-- ==== Sys2Proof/Word.lean ====
section
/-! DEFINITION. The word type of the block and the ASCII bytes the spec names. -/

namespace Sys2Proof

/-- A byte: an unsigned 8-bit value (00_scope.md R9). -/
abbrev Byte := BitVec 8

namespace Ascii

/-- `'*'`, the head marker of an inbound frame (00_scope.md R12). -/
abbrev star : Byte := 0x2A
/-- `'@'`, the head of an outbound command (00_scope.md R12). -/
abbrev atSign : Byte := 0x40
/-- `'='` (00_scope.md R12). -/
abbrev equals : Byte := 0x3D
/-- `'D'` (00_scope.md R12). -/
abbrev letterD : Byte := 0x44
/-- `'I'` (00_scope.md R12). -/
abbrev letterI : Byte := 0x49
/-- `'R'` (00_scope.md R12). -/
abbrev letterR : Byte := 0x52
/-- `'T'` (00_scope.md R12). -/
abbrev letterT : Byte := 0x54
/-- Carriage return (00_scope.md R12). -/
abbrev cr : Byte := 0x0D
/-- Line feed (00_scope.md R12). -/
abbrev lf : Byte := 0x0A

/-- The token of a data frame, `"DR="` (00_scope.md R12). -/
abbrev tokenDR : List Byte := [letterD, letterR, equals]
/-- The token of a collision frame, `"IR"` (00_scope.md R12). -/
abbrev tokenIR : List Byte := [letterI, letterR]
/-- The command of a send-payload frame, `"DT"` (00_scope.md R12). -/
abbrev tokenDT : List Byte := [letterD, letterT]
/-- The footer of every frame (00_scope.md R10). -/
abbrev crlf : List Byte := [cr, lf]

end Ascii

end Sys2Proof
end

