-- ==== Sys2Proof/Config.lean ====
section
/-! DEFINITION. The parameters of the block (00_scope.md R6): the fixed ones as constants, the OPEN ones as the fields
of a configuration that reset latches. -/

namespace Sys2Proof.Config

/-- `CAPACITY`: packet buffer size in bytes (R6). -/
abbrev capacity : Nat := 8
/-- `MASK_BITS`: button mask width in bits (R6). -/
abbrev maskBits : Nat := 16
/-- `NUM_CHANNELS`: analog channels (R6). -/
abbrev numChannels : Nat := 6
/-- `CHANNEL_BITS`: width of one analog channel (R6). -/
abbrev channelBits : Nat := 4
/-- `ANALOG_BYTES`: bytes holding the analog channels (R6). -/
abbrev analogBytes : Nat := 3
/-- `PAYLOAD_LEN`: serialised ControllerData length in bytes (R6). -/
abbrev payloadLen : Nat := 5
/-- `LEN_DIGITS`: hex digits of a frame length or parameter value (R6). -/
abbrev lenDigits : Nat := 2
/-- `NUM_PARSER_STATES`: parser states (R6). -/
abbrev numParserStates : Nat := 6
/-- The largest MAX_PAYLOAD a configuration may have (R7). -/
abbrev maxPayloadLimit : Nat := 254
/-- Bytes the parser's command buffer `ps_cmd` holds (10_state.md R30). -/
abbrev cmdBytes : Nat := 3
/-- The largest count n of format FN (30_encoding.md R69). -/
abbrev maxCount : Nat := 255

end Sys2Proof.Config

namespace Sys2Proof

/-- The OPEN parameters (00_scope.md R6), as a host could write them: nothing is checked here. -/
structure Config where
  /-- MAX_PAYLOAD -/
  maxPayload : Nat
  /-- ID_WIDTH, in bits -/
  idWidth : Nat
  /-- PKT_ID -/
  pktId : Nat
  deriving DecidableEq, Repr

/-- The configurations the block accepts (R6, R7): 0 ≤ MAX_PAYLOAD ≤ 254, ID_WIDTH ≥ 1, PKT_ID < 2^ID_WIDTH. -/
abbrev Config.legal (c : Config) : Prop :=
  c.maxPayload ≤ Config.maxPayloadLimit ∧ 1 ≤ c.idWidth ∧ c.pktId < 2 ^ c.idWidth

/-- The example values of the spec's test vectors (00_scope.md R6, last sentence): DESIGN CHOICE for `State.reset`,
unsafe, log 5. The spec gives no value; no statement rests on these. -/
def Config.example8 : Config := { maxPayload := 8, idWidth := 8, pktId := 0 }

end Sys2Proof
end

