-- ==== Sys2Proof/Syntax.lean ====
section
/-! DEFINITION. The syntax of the block's operations: one constructor per row of spec/opcode_table.json (30_encoding.md
R68, R70), with its operands as 30_encoding.md R69 and R71 give them. -/

namespace Sys2Proof

/-- The 25 operations of the command port. The count n of format FN is the length of the byte list. -/
inductive Instr
  /-- FR_FEED (R79), format FN: the inbound bytes. -/
  | frFeed (d : List Byte)
  /-- FR_SEND_DATA (R105), format FN: the payload. -/
  | frSendData (d : List Byte)
  /-- FR_SEND_PARAM (R106), format FP: two code bytes and the value. -/
  | frSendParam (p0 p1 v : Byte)
  /-- PKT_INIT (R114), format F1: the zero option, bit 0 of the operand; bits 7:1 must be 0 (R71). -/
  | pktInit (zero : Bool)
  /-- PKT_PACK_U8 (R115), format FV1. -/
  | pktPackU8 (v : BitVec 8)
  /-- PKT_PACK_U16 (R116), format FV2. -/
  | pktPackU16 (v : BitVec 16)
  /-- PKT_PACK_U32 (R117), format FV4. -/
  | pktPackU32 (v : BitVec 32)
  /-- PKT_PACK_U64 (R118), format FV8. -/
  | pktPackU64 (v : BitVec 64)
  /-- PKT_PACK_BYTES (R119), format FN: the raw run. -/
  | pktPackBytes (d : List Byte)
  /-- PKT_LENGTH (R127), format F0. -/
  | pktLength
  /-- PKT_DATA (R128), format F0. -/
  | pktData
  /-- PKT_ID (R129), format F0. -/
  | pktId
  /-- PKT_UNPACK_U8 (R120), format F0. -/
  | pktUnpackU8
  /-- PKT_UNPACK_U16 (R121), format F0. -/
  | pktUnpackU16
  /-- PKT_UNPACK_U32 (R122), format F0. -/
  | pktUnpackU32
  /-- PKT_UNPACK_U64 (R123), format F0. -/
  | pktUnpackU64
  /-- PKT_UNPACK_BYTES (R124), format F1: the count n. -/
  | pktUnpackBytes (n : Byte)
  /-- PKT_SUCCESS (R125), format F0. -/
  | pktSuccess
  /-- PKT_STATUS (R126), format F0. -/
  | pktStatus
  /-- CD_SET_BUTTON (R133), format F2: button index and level. -/
  | cdSetButton (i v : Byte)
  /-- CD_TEST_BUTTON (R134), format F1: button index. -/
  | cdTestButton (i : Byte)
  /-- CD_SET_ANALOG (R135), format F2: channel and value. -/
  | cdSetAnalog (c v : Byte)
  /-- CD_GET_ANALOG (R136), format F1: channel. -/
  | cdGetAnalog (c : Byte)
  /-- CD_PACK (R137), format F0. -/
  | cdPack
  /-- CD_UNPACK (R138), format F0. -/
  | cdUnpack
  deriving DecidableEq, Repr

/-- The model-only refusal reasons (60_exceptions.md R145). -/
inductive RefuseReason
  /-- ILLEGAL_OPCODE: an opcode byte outside the table of R70 (R74). -/
  | illegalOpcode
  /-- RESERVED_BITS: PKT_INIT with operand bits 7:1 not zero (R114). -/
  | reservedBits
  /-- SEND_TOO_LONG: FR_SEND_DATA with n > MAX_PAYLOAD (R105). -/
  | sendTooLong
  /-- BAD_PARAM_CODE: FR_SEND_PARAM with a code byte outside 'A'..'Z' (R106). -/
  | badParamCode
  deriving DecidableEq, Repr

end Sys2Proof
end

