-- ==== Sys2Proof/WellFormed.lean ====
section
/-! DEFINITION. When an operation has an encoding: the count n of an FN operation is one byte (30_encoding.md R69, R71),
so its byte string holds at most 255 bytes ("more than 255 bytes is an assembly error", R77). Every other operand is
typed with its width. The operand ranges of FR_SEND_DATA and FR_SEND_PARAM are refusals by value (R74), not syntax. -/

namespace Sys2Proof

/-- The operation has an encoding on the command port. -/
def Instr.wellFormed : Instr → Bool
  | .frFeed d => decide (d.length ≤ Config.maxCount)
  | .frSendData d => decide (d.length ≤ Config.maxCount)
  | .pktPackBytes d => decide (d.length ≤ Config.maxCount)
  | .frSendParam _ _ _ => true
  | .pktInit _ => true
  | .pktPackU8 _ => true
  | .pktPackU16 _ => true
  | .pktPackU32 _ => true
  | .pktPackU64 _ => true
  | .pktLength => true
  | .pktData => true
  | .pktId => true
  | .pktUnpackU8 => true
  | .pktUnpackU16 => true
  | .pktUnpackU32 => true
  | .pktUnpackU64 => true
  | .pktUnpackBytes _ => true
  | .pktSuccess => true
  | .pktStatus => true
  | .cdSetButton _ _ => true
  | .cdTestButton _ => true
  | .cdSetAnalog _ _ => true
  | .cdGetAnalog _ => true
  | .cdPack => true
  | .cdUnpack => true

end Sys2Proof
end

