-- ==== Sys2Proof/Decode.lean ====
section
/-! DEFINITION. The command port's encoding (30_encoding.md section 2): byte order, the decoder, total on every byte
stream, and the encoder. -/

namespace Sys2Proof

/-! ## Byte order (00_scope.md R10) -/

/-- `LE_W(v)`: the W bytes of v, least significant first (R10). -/
def leBytes : Nat → Nat → List Byte
  | 0, _ => []
  | w + 1, v => BitVec.ofNat 8 v :: leBytes w (v / 256)

/-- `fromLE_W(s)`: the value of a little-endian byte string (R10). -/
def fromLE : List Byte → Nat
  | [] => 0
  | b :: bs => b.toNat + 256 * fromLE bs

/-! ## Formats (R69) and the opcode table (R70) -/

/-- The six formats of R69; FV_W carries its width W in bytes. -/
inductive Format
  /-- `op` -/
  | f0
  /-- `op a` -/
  | f1
  /-- `op a b` -/
  | f2
  /-- `op v[7:0] … v[8W-1:8W-8]` -/
  | fv (w : Nat)
  /-- `op n d[0] … d[n-1]` -/
  | fn
  /-- `op p0 p1 v` -/
  | fp
  deriving DecidableEq, Repr

/-- One row of the opcode table. -/
structure OpRow where
  /-- the opcode byte -/
  opcode : Byte
  /-- the mnemonic -/
  mnemonic : String
  /-- the format -/
  format : Format
  deriving DecidableEq, Repr

/-- The opcode table of R70. -/
def opTable : List OpRow :=
  [⟨0x10, "FR_FEED", .fn⟩, ⟨0x11, "FR_SEND_DATA", .fn⟩, ⟨0x12, "FR_SEND_PARAM", .fp⟩] ++
  [⟨0x20, "PKT_INIT", .f1⟩, ⟨0x21, "PKT_PACK_U8", .fv 1⟩, ⟨0x22, "PKT_PACK_U16", .fv 2⟩,
   ⟨0x23, "PKT_PACK_U32", .fv 4⟩, ⟨0x24, "PKT_PACK_U64", .fv 8⟩, ⟨0x25, "PKT_PACK_BYTES", .fn⟩,
   ⟨0x26, "PKT_LENGTH", .f0⟩, ⟨0x27, "PKT_DATA", .f0⟩, ⟨0x28, "PKT_ID", .f0⟩] ++
  [⟨0x29, "PKT_UNPACK_U8", .f0⟩, ⟨0x2A, "PKT_UNPACK_U16", .f0⟩, ⟨0x2B, "PKT_UNPACK_U32", .f0⟩,
   ⟨0x2C, "PKT_UNPACK_U64", .f0⟩, ⟨0x2D, "PKT_UNPACK_BYTES", .f1⟩, ⟨0x2E, "PKT_SUCCESS", .f0⟩,
   ⟨0x2F, "PKT_STATUS", .f0⟩] ++
  [⟨0x30, "CD_SET_BUTTON", .f2⟩, ⟨0x31, "CD_TEST_BUTTON", .f1⟩, ⟨0x32, "CD_SET_ANALOG", .f2⟩,
   ⟨0x33, "CD_GET_ANALOG", .f1⟩, ⟨0x34, "CD_PACK", .f0⟩, ⟨0x35, "CD_UNPACK", .f0⟩]

/-- The format an opcode byte selects; none for an illegal opcode byte (R70, R74). -/
def formatOf (op : Byte) : Option Format :=
  (opTable.find? (fun r => r.opcode == op)).map OpRow.format

/-- The length in bytes of the operation a stream begins with, read from the opcode byte alone, and for FN from the
count byte too (R73). None: an illegal opcode byte, or an FN whose count has not arrived. -/
def opLength : List Byte → Option Nat
  | [] => none
  | op :: rest =>
    match formatOf op with
    | none => none
    | some .f0 => some 1
    | some .f1 => some 2
    | some .f2 => some 3
    | some (.fv w) => some (1 + w)
    | some .fp => some 4
    | some .fn => rest.head?.map (fun n => 2 + n.toNat)

/-! ## The decoder -/

/-- What the front of the command port holds. -/
inductive Decoded
  /-- A complete operation, and the bytes after it. -/
  | op (i : Instr) (rest : List Byte)
  /-- Bytes the block gives no meaning, by name, and the bytes after them (R74). -/
  | rejected (r : RefuseReason) (rest : List Byte)
  /-- No byte, or an operation whose bytes have not all arrived (R73). -/
  | incomplete
  deriving DecidableEq, Repr

/-- Format F1. -/
def decodeF1 (mk : Byte → Instr) : List Byte → Decoded
  | a :: rest => .op (mk a) rest
  | [] => .incomplete

/-- Format F2. -/
def decodeF2 (mk : Byte → Byte → Instr) : List Byte → Decoded
  | a :: b :: rest => .op (mk a b) rest
  | _ => .incomplete

/-- Format FP. -/
def decodeFP (mk : Byte → Byte → Byte → Instr) : List Byte → Decoded
  | p0 :: p1 :: v :: rest => .op (mk p0 p1 v) rest
  | _ => .incomplete

/-- Format FV_W: the value is `fromLE_W` of the W operand bytes (R71). -/
def decodeFV (w : Nat) (mk : Nat → Instr) (bs : List Byte) : Decoded :=
  if bs.length < w then .incomplete else .op (mk (fromLE (bs.take w))) (bs.drop w)

/-- Format FN: the count byte n and exactly n bytes (R71). -/
def decodeFN (mk : List Byte → Instr) : List Byte → Decoded
  | [] => .incomplete
  | n :: rest => if rest.length < n.toNat then .incomplete else .op (mk (rest.take n.toNat)) (rest.drop n.toNat)

/-- PKT_INIT's operand byte: z is bit 0, and bits 7:1 must be 0 (R71, R74, R114). The refused operation is two bytes
long and is consumed whole: DEDUCED from R73, log 4. -/
def decodeInit : List Byte → Decoded
  | [] => .incomplete
  | a :: rest => if a.extractLsb 7 1 = 0 then .op (.pktInit (a.getLsbD 0)) rest else .rejected .reservedBits rest

/-- The operation at the front of a byte stream (R69 to R76). Total: an illegal opcode byte is rejected by name and
consumes one byte (R74). -/
def decode : List Byte → Decoded
  | [] => .incomplete
  | op :: rest =>
    match op.toNat with
    | 0x10 => decodeFN .frFeed rest
    | 0x11 => decodeFN .frSendData rest
    | 0x12 => decodeFP .frSendParam rest
    | 0x20 => decodeInit rest
    | 0x21 => decodeFV 1 (fun v => .pktPackU8 (BitVec.ofNat 8 v)) rest
    | 0x22 => decodeFV 2 (fun v => .pktPackU16 (BitVec.ofNat 16 v)) rest
    | 0x23 => decodeFV 4 (fun v => .pktPackU32 (BitVec.ofNat 32 v)) rest
    | 0x24 => decodeFV 8 (fun v => .pktPackU64 (BitVec.ofNat 64 v)) rest
    | 0x25 => decodeFN .pktPackBytes rest
    | 0x26 => .op .pktLength rest
    | 0x27 => .op .pktData rest
    | 0x28 => .op .pktId rest
    | 0x29 => .op .pktUnpackU8 rest
    | 0x2A => .op .pktUnpackU16 rest
    | 0x2B => .op .pktUnpackU32 rest
    | 0x2C => .op .pktUnpackU64 rest
    | 0x2D => decodeF1 .pktUnpackBytes rest
    | 0x2E => .op .pktSuccess rest
    | 0x2F => .op .pktStatus rest
    | 0x30 => decodeF2 .cdSetButton rest
    | 0x31 => decodeF1 .cdTestButton rest
    | 0x32 => decodeF2 .cdSetAnalog rest
    | 0x33 => decodeF1 .cdGetAnalog rest
    | 0x34 => .op .cdPack rest
    | 0x35 => .op .cdUnpack rest
    | _ => .rejected .illegalOpcode rest

/-! ## The encoder -/

/-- The row of an operation in the opcode table (R70). -/
def Instr.row : Instr → OpRow
  | .frFeed _ => ⟨0x10, "FR_FEED", .fn⟩
  | .frSendData _ => ⟨0x11, "FR_SEND_DATA", .fn⟩
  | .frSendParam _ _ _ => ⟨0x12, "FR_SEND_PARAM", .fp⟩
  | .pktInit _ => ⟨0x20, "PKT_INIT", .f1⟩
  | .pktPackU8 _ => ⟨0x21, "PKT_PACK_U8", .fv 1⟩
  | .pktPackU16 _ => ⟨0x22, "PKT_PACK_U16", .fv 2⟩
  | .pktPackU32 _ => ⟨0x23, "PKT_PACK_U32", .fv 4⟩
  | .pktPackU64 _ => ⟨0x24, "PKT_PACK_U64", .fv 8⟩
  | .pktPackBytes _ => ⟨0x25, "PKT_PACK_BYTES", .fn⟩
  | .pktLength => ⟨0x26, "PKT_LENGTH", .f0⟩
  | .pktData => ⟨0x27, "PKT_DATA", .f0⟩
  | .pktId => ⟨0x28, "PKT_ID", .f0⟩
  | .pktUnpackU8 => ⟨0x29, "PKT_UNPACK_U8", .f0⟩
  | .pktUnpackU16 => ⟨0x2A, "PKT_UNPACK_U16", .f0⟩
  | .pktUnpackU32 => ⟨0x2B, "PKT_UNPACK_U32", .f0⟩
  | .pktUnpackU64 => ⟨0x2C, "PKT_UNPACK_U64", .f0⟩
  | .pktUnpackBytes _ => ⟨0x2D, "PKT_UNPACK_BYTES", .f1⟩
  | .pktSuccess => ⟨0x2E, "PKT_SUCCESS", .f0⟩
  | .pktStatus => ⟨0x2F, "PKT_STATUS", .f0⟩
  | .cdSetButton _ _ => ⟨0x30, "CD_SET_BUTTON", .f2⟩
  | .cdTestButton _ => ⟨0x31, "CD_TEST_BUTTON", .f1⟩
  | .cdSetAnalog _ _ => ⟨0x32, "CD_SET_ANALOG", .f2⟩
  | .cdGetAnalog _ => ⟨0x33, "CD_GET_ANALOG", .f1⟩
  | .cdPack => ⟨0x34, "CD_PACK", .f0⟩
  | .cdUnpack => ⟨0x35, "CD_UNPACK", .f0⟩

/-- The operand bytes of an operation, in the layout of its format (R69, R71). -/
def Instr.operandBytes : Instr → List Byte
  | .frFeed d => BitVec.ofNat 8 d.length :: d
  | .frSendData d => BitVec.ofNat 8 d.length :: d
  | .frSendParam p0 p1 v => [p0, p1, v]
  | .pktInit z => [if z then 0x01 else 0x00]
  | .pktPackU8 v => leBytes 1 v.toNat
  | .pktPackU16 v => leBytes 2 v.toNat
  | .pktPackU32 v => leBytes 4 v.toNat
  | .pktPackU64 v => leBytes 8 v.toNat
  | .pktPackBytes d => BitVec.ofNat 8 d.length :: d
  | .pktLength => []
  | .pktData => []
  | .pktId => []
  | .pktUnpackU8 => []
  | .pktUnpackU16 => []
  | .pktUnpackU32 => []
  | .pktUnpackU64 => []
  | .pktUnpackBytes n => [n]
  | .pktSuccess => []
  | .pktStatus => []
  | .cdSetButton i v => [i, v]
  | .cdTestButton i => [i]
  | .cdSetAnalog c v => [c, v]
  | .cdGetAnalog c => [c]
  | .cdPack => []
  | .cdUnpack => []

/-- The bytes of a well-formed operation on the command port (R69 to R71). -/
def encode (i : Instr) : List Byte := i.row.opcode :: i.operandBytes

/-- The bytes of a sequence of operations, in issue order. -/
def encodeAll : List Instr → List Byte
  | [] => []
  | i :: is => encode i ++ encodeAll is

/-! ## Splitting a whole stream (R76) -/

/-- One part of a split stream: an operation, or a refusal. -/
inductive StreamItem
  /-- An operation. -/
  | op (i : Instr)
  /-- Refused bytes (R74). -/
  | refusal (r : RefuseReason)
  deriving DecidableEq, Repr

/-- The stream as operations and refusals, and the bytes of the incomplete operation left at its end (R76). The fuel is
a bound on the number of parts; the length of the stream is always enough, since each part takes a byte or more. -/
def splitFuel : Nat → List Byte → List StreamItem × List Byte
  | 0, bs => ([], bs)
  | fuel + 1, bs =>
    match decode bs with
    | .op i rest => let r := splitFuel fuel rest; (.op i :: r.1, r.2)
    | .rejected why rest => let r := splitFuel fuel rest; (.refusal why :: r.1, r.2)
    | .incomplete => ([], bs)

/-- `splitFuel` with enough fuel (R76). -/
def splitStream (bs : List Byte) : List StreamItem × List Byte := splitFuel bs.length bs

/-! ## Words as the opcode table numbers them -/

/-- The bytes of exactly one operation (or of one illegal opcode byte) given as a table word: bit 0 is the least
significant bit of byte 0, and every bit at and above `nbits` is 0, as far as the operation is long (R73). -/
def tableOpBytes (nbits w : Nat) : List Byte :=
  let bs := leBytes ((nbits + 7) / 8) (w % 2 ^ nbits)
  let len := (opLength (bs ++ [0x00])).getD 1
  (bs ++ List.replicate (len - bs.length) 0x00).take len

/-- The operation the decoder reads from a table word; none where it refuses. -/
def decodeTableWord (nbits w : Nat) : Option Instr :=
  match decode (tableOpBytes nbits w) with
  | .op i _ => some i
  | .rejected _ _ => none
  | .incomplete => none

end Sys2Proof
end

