-- ==== Sys2Proof/Machine/State.lean ====
section
/-! DEFINITION. The state of the block (10_state.md), the reasons a step can stop, and the state after reset (R41).
Each unit's registers stand in a structure of their own, as 00_scope.md R2 divides them. -/

namespace Sys2Proof.Machine

/-- A byte store: pairs of a position and a byte, positions strictly rising, no byte equal to `Memory.unlisted`
(log 7). The block has two: `pkt_buf` and `ps_data` (20_memory.md R42). -/
abbrev Memory := List Host.Cell

/-- What a position that no cell lists reads as. DESIGN CHOICE, unsafe, log 7: the spec leaves the contents of both
stores after reset unspecified (10_state.md R26, R41). -/
def Memory.unlisted : Byte := 0x00

/-- The canonical form of a store: positions strictly rising from `lo`, no cell holding the unlisted value. -/
def Memory.wfFrom : Nat → Memory → Bool
  | _, [] => true
  | lo, (a, b) :: rest => decide (lo ≤ a) && decide (b ≠ Memory.unlisted) && Memory.wfFrom (a + 1) rest

/-- The canonical form of a store. -/
def Memory.wf (m : Memory) : Bool := Memory.wfFrom 0 m

/-- Every listed position lies below `bound`: the store has no byte there (R22, R30). -/
def Memory.within (bound : Nat) : Memory → Bool
  | [] => true
  | (a, _) :: rest => decide (a < bound) && Memory.within bound rest

/-- Three bytes by position: `cd_analog[0..2]` (R28) and `ps_cmd[0..2]` (R30). -/
structure Bytes3 where
  /-- byte 0 -/
  b0 : Byte
  /-- byte 1 -/
  b1 : Byte
  /-- byte 2 -/
  b2 : Byte
  deriving DecidableEq, Repr

/-- The codec's error states (10_state.md R24, 60_exceptions.md R144). -/
inductive CodecErr
  /-- NONE, no failure since the last PKT_INIT -/
  | ok
  /-- BUFFER_OVERFLOW, a pack would exceed the capacity -/
  | bufferOverflow
  /-- INVALID_LENGTH, an unpack would pass the packed length -/
  | invalidLength
  deriving DecidableEq, Repr

/-- The framer's error codes (60_exceptions.md R143). -/
inductive FrameError
  /-- INVALID_COMMAND -/
  | invalidCommand
  /-- LENGTH_NOT_HEX -/
  | lengthNotHex
  /-- LENGTH_TOO_LONG -/
  | lengthTooLong
  /-- FOOTER_NOT_CRLF -/
  | footerNotCrlf
  /-- COLLISION_DETECTED -/
  | collisionDetected
  deriving DecidableEq, Repr

/-- The six parser states (10_state.md R31). -/
inductive ParserState
  /-- 0 WAIT_HEAD -/
  | waitHead
  /-- 1 COMMAND -/
  | command
  /-- 2 LENGTH -/
  | length
  /-- 3 DATA -/
  | data
  /-- 4 TAIL_HAS_DATA -/
  | tailHasData
  /-- 5 TAIL -/
  | tail
  deriving DecidableEq, Repr

/-- An event of the transmit sink (10_state.md R36). -/
inductive Event
  /-- send-request(bytes) -/
  | sendBytes (s : List Byte)
  /-- decoded-payload(bytes) -/
  | payload (s : List Byte)
  /-- error(code) -/
  | error (code : FrameError)
  deriving DecidableEq, Repr

/-- The packet codec's registers (10_state.md R22). -/
structure Packet where
  /-- `pkt_buf[0..7]`, positions below CAPACITY -/
  buf : Memory
  /-- `pkt_len`, the number of bytes packed and the write position (R23) -/
  len : BitVec 4
  /-- `pkt_cur`, the read cursor (R25) -/
  cur : BitVec 4
  /-- `pkt_err`, the sticky error state (R24) -/
  err : BitVec 2
  /-- `pkt_id`, below 2^ID_WIDTH (R27; log 11) -/
  id : Nat
  deriving DecidableEq, Repr

/-- The ControllerData registers (10_state.md R28). -/
structure Controller where
  /-- `cd_mask`, button i is bit i -/
  mask : BitVec 16
  /-- `cd_analog[0..2]`, two channels a byte (R29) -/
  analog : Bytes3
  deriving DecidableEq, Repr

/-- The inbound parser's registers (10_state.md R30). -/
structure Parser where
  /-- `ps_state` (R31) -/
  state : BitVec 3
  /-- `ps_cmd[0..2]`, the command token bytes received so far -/
  cmd : Bytes3
  /-- `ps_cmd_cnt`, bytes held in `ps_cmd` before the current byte -/
  cmdCnt : BitVec 2
  /-- `ps_len_hi`, value of the first length digit -/
  lenHi : BitVec 4
  /-- `ps_len_cnt`, length digits received -/
  lenCnt : BitVec 1
  /-- `ps_decl_len`, declared payload length -/
  declLen : BitVec 8
  /-- `ps_data[0..MAX_PAYLOAD-1]`, payload bytes received -/
  data : Memory
  /-- `ps_data_cnt`, payload bytes received so far -/
  dataCnt : BitVec 8
  /-- `ps_tail_cnt`, footer bytes received -/
  tailCnt : BitVec 1
  /-- `ps_tail_ok`, the first footer byte was CR -/
  tailOk : Bool
  deriving DecidableEq, Repr

/-- Everything the spec gives the block (10_state.md R20 to R41). -/
structure State where
  /-- the packet codec (R22) -/
  pkt : Packet
  /-- the ControllerData value (R28) -/
  cd : Controller
  /-- the inbound parser (R30) -/
  ps : Parser
  /-- MAX_PAYLOAD, latched at reset, never written (R34); at most 254 (00_scope.md R7) -/
  maxPayload : Fin 255
  /-- ID_WIDTH in bits, fixed at reset (00_scope.md R6) -/
  idWidth : Nat
  /-- bytes delivered on the command port and not yet taken (R35; log 1) -/
  cmdPort : List Byte
  /-- the transmit sink's events, oldest first (R36) -/
  sink : List Event
  /-- the response port's bytes, oldest first (R37) -/
  resp : List Byte
  /-- the refusals so far, oldest first (60_exceptions.md R145, R146; log 3) -/
  refusals : List RefuseReason
  deriving DecidableEq, Repr

/-- The model-only mark `refused` (10_state.md R38): 0 until the first refusal, and never cleared. -/
def State.refused (s : State) : Bool := !s.refusals.isEmpty

/-- Why a step stops with a fault. No fault is reachable from reset (R97; R24; R22, R30). -/
inductive Fault
  /-- MODEL_FAULT_STATE (60_exceptions.md R145, 40_framer_parser.md R97): FR_FEED meets `ps_state` 6 or 7. Safe. -/
  | modelFaultState
  /-- `pkt_err` holds encoding 3 when an operation reads it (93_implementation_defined.md item 8). Safe, log 9. -/
  | modelFaultErr
  /-- An operation reaches a position that a store does not have, since a position register holds a value outside its
  legal range (10_state.md R22, R30). Raised by PKT_DATA, the unpacks and FR_FEED. Safe, log 10. -/
  | noSuchByte
  deriving DecidableEq, Repr

/-- Why a step has no meaning. The spec's own refusals are next states (log 3). -/
inductive Refusal
  /-- exec gives the instruction no meaning. Raised by no arm of this model. Safe. -/
  | notModelled (mnemonic : String)
  deriving DecidableEq, Repr

/-- The contents at power-on of the registers whose reset value 10_state.md R41 calls unspecified. -/
structure Unspecified where
  /-- `pkt_buf` -/
  buf : Memory
  /-- `ps_cmd` -/
  cmd : Bytes3
  /-- `ps_len_hi` -/
  lenHi : BitVec 4
  /-- `ps_decl_len` -/
  declLen : BitVec 8
  /-- `ps_data` -/
  data : Memory
  /-- `ps_tail_ok` -/
  tailOk : Bool
  deriving DecidableEq, Repr

/-- All unspecified registers zero. DESIGN CHOICE for `State.reset`, unsafe, log 6. -/
def Unspecified.zero : Unspecified :=
  { buf := [], cmd := ⟨0x00, 0x00, 0x00⟩, lenHi := 0, declLen := 0, data := [], tailOk := false }

/-- The state after reset (R41, R158) for a configuration and for any contents of the unspecified registers. -/
def State.resetAt (maxPayload : Fin 255) (idWidth pktId : Nat) (u : Unspecified) : State :=
  { pkt := { buf := u.buf, len := 0, cur := 0, err := 0, id := pktId }
    cd := { mask := 0x0000, analog := ⟨0x00, 0x00, 0x00⟩ }
    ps := { state := 0, cmd := u.cmd, cmdCnt := 0, lenHi := u.lenHi, lenCnt := 0, declLen := u.declLen,
            data := u.data, dataCnt := 0, tailCnt := 0, tailOk := u.tailOk }
    maxPayload := maxPayload
    idWidth := idWidth
    cmdPort := []
    sink := []
    resp := []
    refusals := [] }

/-- Reset as the host asks for it (R158): a configuration that R6 or R7 rules out is rejected. -/
def State.construct (c : Config) (u : Unspecified) : Option State :=
  if h : c.legal then some (State.resetAt ⟨c.maxPayload, Nat.lt_succ_of_le h.1⟩ c.idWidth c.pktId u) else none

/-- The machine right after reset, with the parameters of the spec's test vectors (log 5) and zero in every register
whose reset value R41 leaves unspecified (log 6). -/
def State.reset : State :=
  State.resetAt 8 Config.example8.idWidth Config.example8.pktId Unspecified.zero

end Sys2Proof.Machine
end

