-- ==== Sys2Proof/Machine/Operands.lean ====
section
/-! DEFINITION. Operand forms and the values computed from them: hex digits, code letters, button bits, analog nibbles,
the three-byte registers, and the numeric views of the status registers. -/

namespace Sys2Proof.Machine

/-! ## Hex digits (00_scope.md R13) -/

/-- A run of consecutive hex digits: its first byte, that byte's value, and how many digits it has. -/
structure DigitRun where
  /-- the first digit -/
  first : Byte
  /-- its value -/
  value : BitVec 4
  /-- the number of digits -/
  count : Nat
  deriving DecidableEq, Repr

/-- The three runs of R13: `'0'..'9'` with 0..9, `'A'..'F'` and `'a'..'f'` with 10..15. -/
def digitRuns : List DigitRun := [⟨0x30, 0, 10⟩, ⟨0x41, 10, 6⟩, ⟨0x61, 10, 6⟩]

/-- How far a byte stands after the first digit of a run, modulo 256: below `count` exactly for the run's own digits. -/
def DigitRun.offset (r : DigitRun) (b : Byte) : Nat := (b - r.first).toNat

/-- `hexVal(b)`, none where `isHex(b)` fails. Both cases are digits (R13). -/
def hexVal? (b : Byte) : Option (BitVec 4) :=
  (digitRuns.find? fun r => decide (r.offset b < r.count)).map fun r => r.value + BitVec.ofNat 4 (r.offset b)

/-- `isHex(b)` (R13). -/
def isHex (b : Byte) : Bool := (hexVal? b).isSome

/-- `hexUp(d)`, the uppercase digit (R13). -/
def hexUp (d : BitVec 4) : Byte :=
  if d.toNat ≤ 9 then BitVec.ofNat 8 (0x30 + d.toNat) else BitVec.ofNat 8 (0x41 + (d.toNat - 10))

/-- `v[7:4]` (R9). -/
def hiNibble (v : Byte) : BitVec 4 := v.extractLsb 7 4

/-- `v[3:0]` (R9). -/
def loNibble (v : Byte) : BitVec 4 := v.extractLsb 3 0

/-- `{hi, lo}` (R9). -/
def fromNibbles (hi lo : BitVec 4) : Byte := hi ++ lo

/-- `hex2(v)`, two uppercase digits, the most significant first (R13, 20_memory.md R48). -/
def hex2 (v : Byte) : List Byte := [hexUp (hiNibble v), hexUp (loNibble v)]

/-- A code byte of FR_SEND_PARAM is an uppercase letter (41_framer_encoder.md R106). -/
def isUpper (b : Byte) : Bool := decide (0x41 ≤ b.toNat ∧ b.toNat ≤ 0x5A)

/-! ## Outbound frames (30_encoding.md R64, R65) -/

/-- The send-payload frame of a payload (R64). -/
def sendDataFrame (d : List Byte) : List Byte :=
  [Ascii.atSign] ++ Ascii.tokenDT ++ hex2 (BitVec.ofNat 8 d.length) ++ d ++ Ascii.crlf

/-- The parameter-set frame of a code and a value (R65). -/
def sendParamFrame (p0 p1 v : Byte) : List Byte := [Ascii.atSign, p0, p1] ++ hex2 v ++ Ascii.crlf

/-! ## Inbound frames (30_encoding.md R62, R63): what a modem sends, for the host's use -/

/-- The data frame of a payload (R62). -/
def inboundDataFrame (d : List Byte) : List Byte :=
  [Ascii.star] ++ Ascii.tokenDR ++ hex2 (BitVec.ofNat 8 d.length) ++ d ++ Ascii.crlf

/-- The collision frame (R63). -/
def inboundCollisionFrame : List Byte := [Ascii.star] ++ Ascii.tokenIR ++ Ascii.crlf

/-! ## Three-byte registers -/

/-- Byte k; positions 3 and above do not exist and are never asked for. -/
def Bytes3.get (t : Bytes3) : Nat → Byte
  | 0 => t.b0
  | 1 => t.b1
  | _ => t.b2

/-- The register with byte k replaced; positions 3 and above do not exist and are never asked for. -/
def Bytes3.set (t : Bytes3) (k : Nat) (b : Byte) : Bytes3 :=
  match k with
  | 0 => { t with b0 := b }
  | 1 => { t with b1 := b }
  | 2 => { t with b2 := b }
  | _ => t

/-- The three bytes in order. -/
def Bytes3.toList (t : Bytes3) : List Byte := [t.b0, t.b1, t.b2]

/-- The register holding the first three bytes of a list, a missing one read as 0x00 (never the case where it is used:
R138 reads exactly three). -/
def Bytes3.ofList (bs : List Byte) : Bytes3 := ⟨bs.getD 0 0x00, bs.getD 1 0x00, bs.getD 2 0x00⟩

/-! ## Controller data (10_state.md R28, R29) -/

/-- The mask with bit i written (43_controller_data.md R133); every other bit is kept. -/
def writeButton (mask : BitVec 16) (i : Nat) (pressed : Bool) : BitVec 16 :=
  if pressed then mask ||| BitVec.twoPow 16 i else mask &&& ~~~(BitVec.twoPow 16 i)

/-- `chan(c)`: an even channel is the low nibble of byte c div 2, an odd one the high nibble (R29). -/
def channel (a : Bytes3) (c : Nat) : BitVec 4 :=
  if c % 2 = 0 then loNibble (a.get (c / 2)) else hiNibble (a.get (c / 2))

/-- The channel value clamped to 4 bits, `min(v, 15)` (43_controller_data.md R135). -/
def clampNibble (v : Byte) : BitVec 4 := BitVec.ofNat 4 (min v.toNat 15)

/-- The analog bytes with channel c written; the other nibble of its byte is kept (43_controller_data.md R135). -/
def writeChannel (a : Bytes3) (c : Nat) (q : BitVec 4) : Bytes3 :=
  let old := a.get (c / 2)
  a.set (c / 2) (if c % 2 = 0 then fromNibbles (hiNibble old) q else fromNibbles q (loNibble old))

/-- The 5-byte controller payload (30_encoding.md R66, 20_memory.md R47). -/
def controllerPayload (cd : Controller) : List Byte := leBytes 2 cd.mask.toNat ++ cd.analog.toList

/-! ## Numeric encodings -/

/-- The numbers of 10_state.md R31. -/
def ParserState.bits : ParserState → BitVec 3
  | .waitHead => 0
  | .command => 1
  | .length => 2
  | .data => 3
  | .tailHasData => 4
  | .tail => 5

/-- The parser state a register value stands for; none for 6 and 7 (R31). -/
def parserState? (b : BitVec 3) : Option ParserState :=
  match b.toNat with
  | 0 => some .waitHead
  | 1 => some .command
  | 2 => some .length
  | 3 => some .data
  | 4 => some .tailHasData
  | 5 => some .tail
  | _ => none

/-- The numbers of 60_exceptions.md R143. -/
def FrameError.code : FrameError → Byte
  | .invalidCommand => 1
  | .lengthNotHex => 2
  | .lengthTooLong => 3
  | .footerNotCrlf => 4
  | .collisionDetected => 5

/-- Bytes PKT_ID responds: ceil(ID_WIDTH / 8) (42_packet_codec.md R129). -/
def idBytes (idWidth : Nat) : Nat := (idWidth + 7) / 8

end Sys2Proof.Machine
end

