-- ==== Sys2Proof/Machine/Flags.lean ====
section
/-! DEFINITION. The block's one status flag, the codec's sticky error state `pkt_err` (10_state.md R24): its numbers, its
view, and the bytes the status queries compute from it. -/

namespace Sys2Proof.Machine

/-- The numbers of 60_exceptions.md R144. -/
def CodecErr.bits : CodecErr → BitVec 2
  | .ok => 0
  | .bufferOverflow => 1
  | .invalidLength => 2

/-- The error state a register value stands for; none for encoding 3 (R24). -/
def codecErr? (b : BitVec 2) : Option CodecErr :=
  match b.toNat with
  | 0 => some .ok
  | 1 => some .bufferOverflow
  | 2 => some .invalidLength
  | _ => none

/-- `success()` is `pkt_err = NONE` (R24). -/
def CodecErr.success : CodecErr → Bool
  | .ok => true
  | .bufferOverflow => false
  | .invalidLength => false

/-- A truth value as a response byte, 0x01 or 0x00 (30_encoding.md R72). -/
def boolByte (b : Bool) : Byte := if b then 0x01 else 0x00

/-- PKT_STATUS's byte, `zext_8(pkt_err)` (42_packet_codec.md R126). -/
def CodecErr.statusByte (e : CodecErr) : Byte := e.bits.setWidth 8

end Sys2Proof.Machine
end

