-- ==== Sys2Proof/Machine/Ops.lean ====
section
/-! DEFINITION. The named operations the meanings share: the byte stores, the ports, what an error does on entry, and the
codec's steps. -/

namespace Sys2Proof.Machine

/-- The outcome of a meaning. -/
abbrev Result := Host.Outcome State Fault Refusal

/-- The outcome of an operation that either completes or meets a fault. -/
def ofExcept : Except Fault State → Result
  | .ok s => .next s
  | .error f => .fault f

/-! ## Byte stores (20_memory.md R42, log 7) -/

/-- The byte at a position. -/
def Memory.read : Memory → Nat → Byte
  | [], _ => Memory.unlisted
  | (k, v) :: rest, a => if k = a then v else Memory.read rest a

/-- The store with one byte written, in canonical form. -/
def Memory.write : Memory → Nat → Byte → Memory
  | [], a, b => if b = Memory.unlisted then [] else [(a, b)]
  | (k, v) :: rest, a, b =>
    if a < k then (if b = Memory.unlisted then (k, v) :: rest else (a, b) :: (k, v) :: rest)
    else if a = k then (if b = Memory.unlisted then rest else (a, b) :: rest)
    else (k, v) :: Memory.write rest a b

/-- `MemRead(addr, n)`: n bytes from a position on (00_scope.md R11). -/
def Memory.readRun (m : Memory) : Nat → Nat → List Byte
  | _, 0 => []
  | a, n + 1 => Memory.read m a :: Memory.readRun m (a + 1) n

/-- `MemWrite(addr, n, s)`: the bytes of s from a position on (00_scope.md R11). -/
def Memory.writeRun : Memory → Nat → List Byte → Memory
  | m, _, [] => m
  | m, a, b :: bs => Memory.writeRun (Memory.write m a b) (a + 1) bs

/-- A run of bytes of a store of `bound` bytes; a position at or above the bound does not exist (log 10). -/
def readStore (bound : Nat) (m : Memory) (a n : Nat) : Except Fault (List Byte) :=
  if a + n ≤ bound then .ok (Memory.readRun m a n) else .error .noSuchByte

/-! ## Ports and marks (00_scope.md R14) -/

/-- `emit E` (R14). -/
def emit (e : Event) (s : State) : State := { s with sink := s.sink ++ [e] }

/-- `respond s` (R14). -/
def respond (bs : List Byte) (s : State) : State := { s with resp := s.resp ++ bs }

/-- `refuse(reason)`: the mark is set and nothing else changes (R14, 60_exceptions.md R146). -/
def refuse (r : RefuseReason) (s : State) : State := { s with refusals := s.refusals ++ [r] }

/-- The command port's bytes once an operation has been taken from its front (30_encoding.md R73). -/
def withPort (bs : List Byte) (s : State) : State := { s with cmdPort := bs }

/-- The host delivers bytes on the command port (10_state.md R35, 70_reset_and_hazards.md R166; log 1). -/
def deliver (bs : List Byte) (s : State) : State := { s with cmdPort := s.cmdPort ++ bs }

/-! ## What an error does on entry, and recovery (60_exceptions.md R149, R150). No condition traps: there is no handler,
saved register, mode or return (R142, R149). -/

/-- `ResetParser` (40_framer_parser.md R81). -/
def resetParser (s : State) : State :=
  { s with ps := { s.ps with state := ParserState.waitHead.bits, cmdCnt := 0, lenCnt := 0, dataCnt := 0, tailCnt := 0 } }

/-- A framer error on entry: the event, then ResetParser (R149). Recovery is immediate (R150). -/
def frameError (code : FrameError) (s : State) : State := resetParser (emit (.error code) s)

/-- A codec error on entry: `pkt_err` and nothing else (R149). -/
def setErr (e : CodecErr) (s : State) : State := { s with pkt := { s.pkt with err := e.bits } }

/-- Recovery of the codec, and PKT_INIT's effect (R150, 42_packet_codec.md R114). -/
def initPacket (zero : Bool) (s : State) : State :=
  { s with pkt := { s.pkt with len := 0, cur := 0, err := CodecErr.ok.bits,
                               buf := if zero then Memory.writeRun s.pkt.buf 0 (List.replicate Config.capacity 0x00)
                                      else s.pkt.buf } }

/-! ## Codec steps (42_packet_codec.md section 1) -/

/-- The error state, or the model fault for encoding 3 (93_implementation_defined.md item 8; log 9). -/
def readErr (s : State) : Except Fault CodecErr :=
  match codecErr? s.pkt.err with
  | some e => .ok e
  | none => .error .modelFaultErr

/-- `PackCore(s)` (R111): the check comes before any write. -/
def packCore (bs : List Byte) (s : State) : State :=
  if s.pkt.len.toNat + bs.length > Config.capacity then setErr .bufferOverflow s
  else { s with pkt := { s.pkt with buf := Memory.writeRun s.pkt.buf s.pkt.len.toNat bs,
                                    len := BitVec.ofNat 4 (s.pkt.len.toNat + bs.length) } }

/-- A pack step under the sticky guard (R110). -/
def guardedPack (bs : List Byte) (s : State) : Except Fault State :=
  match readErr s with
  | .error f => .error f
  | .ok .ok => .ok (packCore bs s)
  | .ok .bufferOverflow => .ok s
  | .ok .invalidLength => .ok s

/-- `UnpackCore(m)` (R112): the bytes read, or none, and the state after. -/
def unpackCore (m : Nat) (s : State) : Except Fault (Option (List Byte) × State) :=
  if s.pkt.cur.toNat + m > s.pkt.len.toNat then .ok (none, setErr .invalidLength s)
  else
    match readStore Config.capacity s.pkt.buf s.pkt.cur.toNat m with
    | .error f => .error f
    | .ok bs => .ok (some bs, { s with pkt := { s.pkt with cur := BitVec.ofNat 4 (s.pkt.cur.toNat + m) } })

/-- An unpack step under the sticky guard (R110): a guarded step reads nothing. -/
def guardedUnpack (m : Nat) (s : State) : Except Fault (Option (List Byte) × State) :=
  match readErr s with
  | .error f => .error f
  | .ok .ok => unpackCore m s
  | .ok .bufferOverflow => .ok (none, s)
  | .ok .invalidLength => .ok (none, s)

/-- The response of an unpack of m bytes: `ok` and the bytes read, or the failure response of R113 (log 16). -/
def unpackResponse (m : Nat) : Option (List Byte) → List Byte
  | some bs => boolByte true :: bs
  | none => boolByte false :: List.replicate m 0x00

/-- Unpack m bytes and respond (R113, R120 to R124). -/
def unpackRespond (m : Nat) (s : State) : Except Fault State :=
  match guardedUnpack m s with
  | .error f => .error f
  | .ok (r, t) => .ok (respond (unpackResponse m r) t)

/-! ## The outbound transport (41_framer_encoder.md R107) -/

/-- The concatenation of the SendBytes strings in sink order: what the modem sees, however a transport splits it. -/
def sentBytes : List Event → List Byte
  | [] => []
  | .sendBytes bs :: rest => bs ++ sentBytes rest
  | .payload _ :: rest => sentBytes rest
  | .error _ :: rest => sentBytes rest

/-- The inbound events of the sink, in order: the decoded payloads and the errors. -/
def inboundEvents : List Event → List Event
  | [] => []
  | .sendBytes _ :: rest => inboundEvents rest
  | .payload bs :: rest => .payload bs :: inboundEvents rest
  | .error c :: rest => .error c :: inboundEvents rest

end Sys2Proof.Machine
end

