-- ==== Sys2Proof/Machine/Codec.lean ====
section
/-! DEFINITION. The packet codec (42_packet_codec.md). -/

namespace Sys2Proof.Machine

/-- PKT_INIT (R114). The refusal of reserved bits is the decoder's (log 4). -/
def execPktInit (zero : Bool) (s : State) : Result := .next (initPacket zero s)

/-! ## Pack (section 4) -/

/-- PKT_PACK_U8 (R115). -/
def execPktPackU8 (v : BitVec 8) (s : State) : Result := ofExcept (guardedPack (leBytes 1 v.toNat) s)

/-- PKT_PACK_U16 (R116). -/
def execPktPackU16 (v : BitVec 16) (s : State) : Result := ofExcept (guardedPack (leBytes 2 v.toNat) s)

/-- PKT_PACK_U32 (R117). -/
def execPktPackU32 (v : BitVec 32) (s : State) : Result := ofExcept (guardedPack (leBytes 4 v.toNat) s)

/-- PKT_PACK_U64 (R118). -/
def execPktPackU64 (v : BitVec 64) (s : State) : Result := ofExcept (guardedPack (leBytes 8 v.toNat) s)

/-- PKT_PACK_BYTES (R119). -/
def execPktPackBytes (d : List Byte) (s : State) : Result := ofExcept (guardedPack d s)

/-! ## Unpack (section 5) -/

/-- PKT_UNPACK_U8 (R120). -/
def execPktUnpackU8 (s : State) : Result := ofExcept (unpackRespond 1 s)

/-- PKT_UNPACK_U16 (R121). -/
def execPktUnpackU16 (s : State) : Result := ofExcept (unpackRespond 2 s)

/-- PKT_UNPACK_U32 (R122). -/
def execPktUnpackU32 (s : State) : Result := ofExcept (unpackRespond 4 s)

/-- PKT_UNPACK_U64 (R123). -/
def execPktUnpackU64 (s : State) : Result := ofExcept (unpackRespond 8 s)

/-- PKT_UNPACK_BYTES (R124). -/
def execPktUnpackBytes (n : Byte) (s : State) : Result := ofExcept (unpackRespond n.toNat s)

/-! ## Status and read-out (section 6) -/

/-- PKT_SUCCESS (R125). -/
def execPktSuccess (s : State) : Result :=
  match readErr s with
  | .error f => .fault f
  | .ok e => .next (respond [boolByte e.success] s)

/-- PKT_STATUS (R126). -/
def execPktStatus (s : State) : Result :=
  match readErr s with
  | .error f => .fault f
  | .ok e => .next (respond [e.statusByte] s)

/-- PKT_LENGTH (R127). -/
def execPktLength (s : State) : Result := .next (respond [s.pkt.len.setWidth 8] s)

/-- PKT_DATA (R128). -/
def execPktData (s : State) : Result :=
  match readStore Config.capacity s.pkt.buf 0 s.pkt.len.toNat with
  | .error f => .fault f
  | .ok bs => .next (respond (s.pkt.len.setWidth 8 :: bs) s)

/-- PKT_ID (R129). -/
def execPktId (s : State) : Result := .next (respond (leBytes (idBytes s.idWidth) s.pkt.id) s)

end Sys2Proof.Machine
end

