-- ==== Sys2Proof/Machine/ControllerData.lean ====
section
/-! DEFINITION. Controller data (43_controller_data.md). -/

namespace Sys2Proof.Machine

/-- CD_SET_BUTTON (R133): an index above 15 is ignored (R141). -/
def execCdSetButton (i v : Byte) (s : State) : Result :=
  .next (if i.toNat ≤ 15 then { s with cd := { s.cd with mask := writeButton s.cd.mask i.toNat (decide (v ≠ 0)) } }
         else s)

/-- CD_TEST_BUTTON (R134): an index above 15 is false. -/
def execCdTestButton (i : Byte) (s : State) : Result :=
  .next (respond [boolByte (decide (i.toNat ≤ 15) && s.cd.mask.getLsbD i.toNat)] s)

/-- CD_SET_ANALOG (R135): the value is clamped, a channel above 5 is ignored (R141). -/
def execCdSetAnalog (c v : Byte) (s : State) : Result :=
  .next (if c.toNat ≤ 5 then { s with cd := { s.cd with analog := writeChannel s.cd.analog c.toNat (clampNibble v) } }
         else s)

/-- CD_GET_ANALOG (R136): a channel above 5 reads 0x00. -/
def execCdGetAnalog (c : Byte) (s : State) : Result :=
  .next (respond [if c.toNat ≤ 5 then (channel s.cd.analog c.toNat).setWidth 8 else 0x00] s)

/-- CD_PACK (R137): two guarded codec steps, mask first. -/
def execCdPack (s : State) : Result :=
  match guardedPack (leBytes 2 s.cd.mask.toNat) s with
  | .error f => .fault f
  | .ok t => ofExcept (guardedPack s.cd.analog.toList t)

/-- The first step of CD_UNPACK (R138). -/
def unpackMask (s : State) : Except Fault State :=
  match guardedUnpack 2 s with
  | .error f => .error f
  | .ok (some bs, t) => .ok { t with cd := { t.cd with mask := BitVec.ofNat 16 (fromLE bs) } }
  | .ok (none, t) => .ok t

/-- The second step of CD_UNPACK (R138). -/
def unpackAnalog (s : State) : Except Fault State :=
  match guardedUnpack 3 s with
  | .error f => .error f
  | .ok (some bs, t) => .ok { t with cd := { t.cd with analog := Bytes3.ofList bs } }
  | .ok (none, t) => .ok t

/-- CD_UNPACK (R138): two guarded codec steps; each field is written only if its own read succeeded. -/
def execCdUnpack (s : State) : Result :=
  match unpackMask s with
  | .error f => .fault f
  | .ok t => ofExcept (unpackAnalog t)

end Sys2Proof.Machine
end

