-- ==== Sys2Proof/Machine/Encoder.lean ====
section
/-! DEFINITION. The protocol framer's outbound encoder (41_framer_encoder.md). It holds no state (10_state.md R33). -/

namespace Sys2Proof.Machine

/-- FR_SEND_DATA (R105). One event holds the whole frame (R107; log 12). -/
def execFrSendData (d : List Byte) (s : State) : Result :=
  .next (if d.length > s.maxPayload.val then refuse .sendTooLong s else emit (.sendBytes (sendDataFrame d)) s)

/-- FR_SEND_PARAM (R106). -/
def execFrSendParam (p0 p1 v : Byte) (s : State) : Result :=
  .next (if isUpper p0 && isUpper p1 then emit (.sendBytes (sendParamFrame p0 p1 v)) s else refuse .badParamCode s)

end Sys2Proof.Machine
end

