-- ==== Sys2Proof/Machine/Parser.lean ====
section
/-! DEFINITION. The protocol framer's inbound parser: the byte step of 40_framer_parser.md R80, one definition for each
parser state, and FR_FEED. -/

namespace Sys2Proof.Machine

/-- WAIT_HEAD (R82, R83). -/
def stepWaitHead (b : Byte) (s : State) : State :=
  if b = Ascii.star then { s with ps := { s.ps with cmdCnt := 0, state := ParserState.command.bits } } else s

/-- The token so far plus b (R80). -/
def commandToken (b : Byte) (s : State) : List Byte := s.ps.cmd.toList.take s.ps.cmdCnt.toNat ++ [b]

/-- COMMAND (R84 to R87). A fourth token byte has no place in `ps_cmd` (log 10). -/
def stepCommand (b : Byte) (s : State) : Except Fault State :=
  let tok := commandToken b s
  if tok = Ascii.tokenIR then .ok { s with ps := { s.ps with tailCnt := 0, state := ParserState.tail.bits } }
  else if tok = Ascii.tokenDR then .ok { s with ps := { s.ps with lenCnt := 0, state := ParserState.length.bits } }
  else if tok.length = 3 then .ok (frameError .invalidCommand s)
  else if s.ps.cmdCnt.toNat < Config.cmdBytes then
    .ok { s with ps := { s.ps with cmd := s.ps.cmd.set s.ps.cmdCnt.toNat b, cmdCnt := s.ps.cmdCnt + 1 } }
  else .error .noSuchByte

/-- LENGTH (R88 to R91). -/
def stepLength (b : Byte) (s : State) : State :=
  match hexVal? b with
  | none => frameError .lengthNotHex s
  | some d =>
    if s.ps.lenCnt = 0 then { s with ps := { s.ps with lenHi := d, lenCnt := 1 } }
    else
      let n := 16 * s.ps.lenHi.toNat + d.toNat
      if n > s.maxPayload.val then frameError .lengthTooLong s
      else if n = 0 then
        { s with ps := { s.ps with declLen := BitVec.ofNat 8 n, dataCnt := 0, tailCnt := 0,
                                   state := ParserState.tailHasData.bits } }
      else
        { s with ps := { s.ps with declLen := BitVec.ofNat 8 n, dataCnt := 0, state := ParserState.data.bits } }

/-- DATA (R92). `ps_data` has MAX_PAYLOAD bytes and no others (log 10). -/
def stepData (b : Byte) (s : State) : Except Fault State :=
  if s.ps.dataCnt.toNat < s.maxPayload.val then
    let t := { s with ps := { s.ps with data := Memory.write s.ps.data s.ps.dataCnt.toNat b,
                                        dataCnt := s.ps.dataCnt + 1 } }
    .ok (if t.ps.dataCnt = t.ps.declLen then
           { t with ps := { t.ps with tailCnt := 0, state := ParserState.tailHasData.bits } }
         else t)
  else .error .noSuchByte

/-- TAIL_HAS_DATA (`hasData`) and TAIL (R93 to R96). -/
def stepTail (hasData : Bool) (b : Byte) (s : State) : Except Fault State :=
  if s.ps.tailCnt = 0 then .ok { s with ps := { s.ps with tailOk := decide (b = Ascii.cr), tailCnt := 1 } }
  else if s.ps.tailOk = true ∧ b = Ascii.lf then
    if hasData then
      match readStore s.maxPayload.val s.ps.data 0 s.ps.declLen.toNat with
      | .error f => .error f
      | .ok bs => .ok (resetParser (emit (.payload bs) s))
    else .ok (frameError .collisionDetected s)
  else .ok (frameError .footerNotCrlf s)

/-- `Step(b)` (R80); encodings 6 and 7 of `ps_state` are a model fault (R97). -/
def stepByte (b : Byte) (s : State) : Except Fault State :=
  match parserState? s.ps.state with
  | some .waitHead => .ok (stepWaitHead b s)
  | some .command => stepCommand b s
  | some .length => .ok (stepLength b s)
  | some .data => stepData b s
  | some .tailHasData => stepTail true b s
  | some .tail => stepTail false b s
  | none => .error .modelFaultState

/-- Step over a byte string, in index order (R79). -/
def feed : List Byte → State → Except Fault State
  | [], s => .ok s
  | b :: bs, s =>
    match stepByte b s with
    | .error f => .error f
    | .ok t => feed bs t

/-- FR_FEED (40_framer_parser.md R79). -/
def execFrFeed (d : List Byte) (s : State) : Result := ofExcept (feed d s)

end Sys2Proof.Machine
end

