-- ==== Sys2Proof/Machine/Dispatch.lean ====
section
/-! DEFINITION. exec: one arm per operation (30_encoding.md R70). -/

namespace Sys2Proof.Machine

def exec (i : Instr) (s : State) : Host.Outcome State Fault Refusal :=
  match i with
  -- protocol framer
  | .frFeed d => Sys2Proof.Machine.execFrFeed d s
  | .frSendData d => Sys2Proof.Machine.execFrSendData d s
  | .frSendParam p0 p1 v => Sys2Proof.Machine.execFrSendParam p0 p1 v s
  -- packet codec
  | .pktInit zero => Sys2Proof.Machine.execPktInit zero s
  | .pktPackU8 v => Sys2Proof.Machine.execPktPackU8 v s
  | .pktPackU16 v => Sys2Proof.Machine.execPktPackU16 v s
  | .pktPackU32 v => Sys2Proof.Machine.execPktPackU32 v s
  | .pktPackU64 v => Sys2Proof.Machine.execPktPackU64 v s
  | .pktPackBytes d => Sys2Proof.Machine.execPktPackBytes d s
  | .pktLength => Sys2Proof.Machine.execPktLength s
  | .pktData => Sys2Proof.Machine.execPktData s
  | .pktId => Sys2Proof.Machine.execPktId s
  | .pktUnpackU8 => Sys2Proof.Machine.execPktUnpackU8 s
  | .pktUnpackU16 => Sys2Proof.Machine.execPktUnpackU16 s
  | .pktUnpackU32 => Sys2Proof.Machine.execPktUnpackU32 s
  | .pktUnpackU64 => Sys2Proof.Machine.execPktUnpackU64 s
  | .pktUnpackBytes n => Sys2Proof.Machine.execPktUnpackBytes n s
  | .pktSuccess => Sys2Proof.Machine.execPktSuccess s
  | .pktStatus => Sys2Proof.Machine.execPktStatus s
  -- controller data
  | .cdSetButton i' v => Sys2Proof.Machine.execCdSetButton i' v s
  | .cdTestButton i' => Sys2Proof.Machine.execCdTestButton i' s
  | .cdSetAnalog c v => Sys2Proof.Machine.execCdSetAnalog c v s
  | .cdGetAnalog c => Sys2Proof.Machine.execCdGetAnalog c s
  | .cdPack => Sys2Proof.Machine.execCdPack s
  | .cdUnpack => Sys2Proof.Machine.execCdUnpack s

end Sys2Proof.Machine
end

