-- ==== Sys2Proof/Machine/Step.lean ====
section
/-! DEFINITION. One step of the block: the operation at the front of the command port (00_scope.md R18). -/

namespace Sys2Proof.Machine

/-- One step. A complete operation is taken from the port and executed on the state without its bytes; refused bytes are
taken and the mark is set (30_encoding.md R74, 60_exceptions.md R146); an incomplete operation is left to wait, and no
step is taken (R73; 60_exceptions.md R157; log 2). -/
def step (s : State) : Host.Outcome State Fault Refusal :=
  match decode s.cmdPort with
  | .op i rest => exec i (withPort rest s)
  | .rejected r rest => .next (refuse r (withPort rest s))
  | .incomplete => .next s

/-- The state with one operation, given as a word of the opcode table, put at the front of the command port, where step
takes its next operation (log 1). -/
def State.withFetchWord (s : State) (nbits w : Nat) : State := withPort (tableOpBytes nbits w ++ s.cmdPort) s

end Sys2Proof.Machine
end

