-- ==== Sys2Proof/Machine/Pseudo.lean ====
section
/-! DEFINITION. The host's side of a run: sequences of operations (70_reset_and_hazards.md R162) and the
pseudo-instructions of 30_encoding.md R78, which are host-side macros over the real operations (log 14). exec neither
reads nor writes the command port, so a sequence is given to it directly. -/

namespace Sys2Proof.Machine

/-- Go on with the next state; a fault or a refusal ends the sequence. -/
def andThen (r : Result) (k : State → Result) : Result :=
  match r with
  | .next t => k t
  | .fault f => .fault f
  | .refused x => .refused x

/-- The operations of a list, in issue order (20_memory.md R57). -/
def execAll : List Instr → State → Result
  | [], s => .next s
  | i :: is, s => andThen (exec i s) (execAll is)

/-- The bytes the response port has gained from one state to a later one (10_state.md R37). -/
def responseSince (s t : State) : List Byte := t.resp.drop s.resp.length

/-- Pieces of at most 255 bytes, in order; the fuel bounds the number of pieces. -/
def feedPieces : Nat → List Byte → List Instr
  | 0, _ => []
  | fuel + 1, bs =>
    if bs.isEmpty then [] else .frFeed (bs.take Config.maxCount) :: feedPieces fuel (bs.drop Config.maxCount)

/-- FR_FEED_BYTES s (R78). -/
def frFeedBytes (bs : List Byte) : List Instr := feedPieces bs.length bs

/-- PKT_SEND (R78): PKT_DATA, then FR_SEND_DATA of the bytes its response carries after the length byte. -/
def pktSend (s : State) : Result :=
  andThen (exec .pktData s) fun t =>
    match responseSince s t with
    | [] => .next t
    | len :: bs => exec (.frSendData (bs.take len.toNat)) t

/-- CD_SEND (R78): PKT_INIT 0, CD_PACK, PKT_SUCCESS, then PKT_SEND if the success response is 0x01. -/
def cdSend (s : State) : Result :=
  andThen (execAll [.pktInit false, .cdPack] s) fun t =>
    andThen (exec .pktSuccess t) fun u =>
      if responseSince t u = [0x01] then pktSend u else .next u

/-- CD_RECEIVE s (R78): PKT_INIT 0, PKT_PACK_BYTES s, CD_UNPACK, PKT_SUCCESS. -/
def cdReceive (bs : List Byte) : List Instr := [.pktInit false, .pktPackBytes bs, .cdUnpack, .pktSuccess]

end Sys2Proof.Machine
end

