-- ==== Sys2Proof/Safety.lean ====
section
/-! DEFINITION. What the spec says of every reachable state (10_state.md R25, R32), what a clean run is
(60_exceptions.md R146, 70_reset_and_hazards.md R162), and the terms the statements are written in. -/

namespace Sys2Proof.Machine

/-! ## Invariants of reachable states -/

/-- The packet registers: `pkt_cur ≤ pkt_len ≤ 8` (10_state.md R25), `pkt_err` never 3 (R24), and the buffer in its
canonical form with no position at or above CAPACITY (R22; log 7). -/
abbrev Packet.Inv (p : Packet) : Prop :=
  p.cur.toNat ≤ p.len.toNat ∧ p.len.toNat ≤ Config.capacity ∧ p.err ≠ 3 ∧
  Memory.wf p.buf = true ∧ Memory.within Config.capacity p.buf = true

/-- Every count of the parser is 0 (10_state.md R41, 40_framer_parser.md R102). -/
abbrev Parser.CountsZero (p : Parser) : Prop :=
  p.cmdCnt = 0 ∧ p.lenCnt = 0 ∧ p.dataCnt = 0 ∧ p.tailCnt = 0

/-- The parser is between frames: WAIT_HEAD with every count at 0 (R102). -/
abbrev Parser.Idle (p : Parser) : Prop := p.state = ParserState.waitHead.bits ∧ p.CountsZero

/-- The parser invariants of 10_state.md R32 (the bounds on one-bit counts hold by their width), the legal encodings of
R31, the idle counts of R102, and the payload buffer in its canonical form (R30; log 7). -/
abbrev Parser.Inv (maxPayload : Nat) (p : Parser) : Prop :=
  p.state.toNat ≤ 5 ∧
  (p.state = ParserState.waitHead.bits → p.CountsZero) ∧
  (p.state = ParserState.command.bits → p.cmdCnt.toNat ≤ 2) ∧
  (p.state = ParserState.data.bits → p.declLen.toNat ≤ maxPayload ∧ p.dataCnt.toNat < p.declLen.toNat) ∧
  (p.state = ParserState.tailHasData.bits → p.declLen.toNat ≤ maxPayload ∧ p.dataCnt = p.declLen) ∧
  Memory.wf p.data = true ∧ Memory.within maxPayload p.data = true

/-- The invariant of every reachable state. -/
abbrev State.Inv (s : State) : Prop :=
  s.pkt.Inv ∧ s.ps.Inv s.maxPayload.val ∧ 1 ≤ s.idWidth ∧ s.pkt.id < 2 ^ s.idWidth

/-- Contents of the unspecified registers that a block of this configuration can hold at power-on: the buffers have no
byte beyond their size, and stand in canonical form (log 7). -/
abbrev Unspecified.Fits (maxPayload : Nat) (u : Unspecified) : Prop :=
  Memory.wf u.buf = true ∧ Memory.within Config.capacity u.buf = true ∧
  Memory.wf u.data = true ∧ Memory.within maxPayload u.data = true

/-! ## Runs (70_reset_and_hazards.md R162) -/

/-- A state a run can reach: reset with a legal configuration, deliveries by the host, and steps. -/
inductive Reachable : State → Prop
  /-- reset (R158) -/
  | reset (c : Config) (u : Unspecified) (s : State) :
      u.Fits c.maxPayload → State.construct c u = some s → Reachable s
  /-- the host delivers bytes (R166) -/
  | deliver (bs : List Byte) (s : State) : Reachable s → Reachable (deliver bs s)
  /-- the block takes a step (00_scope.md R18) -/
  | step (s t : State) : Reachable s → step s = .next t → Reachable t

/-- A run so far has no refusal (60_exceptions.md R146); a model fault ends a run, so a state reached has none. -/
abbrev State.Clean (s : State) : Prop := s.refused = false

end Sys2Proof.Machine

namespace Sys2Proof

/-! ## Operation classes -/

/-- The operations of the protocol framer, 0x10 to 0x12 (30_encoding.md R70). -/
def Instr.isFramer : Instr → Bool
  | .frFeed _ | .frSendData _ | .frSendParam _ _ _ => true
  | .pktInit _ | .pktPackU8 _ | .pktPackU16 _ | .pktPackU32 _ | .pktPackU64 _ => false
  | .pktPackBytes _ | .pktLength | .pktData | .pktId | .pktUnpackU8 => false
  | .pktUnpackU16 | .pktUnpackU32 | .pktUnpackU64 | .pktUnpackBytes _ | .pktSuccess => false
  | .pktStatus | .cdSetButton _ _ | .cdTestButton _ | .cdSetAnalog _ _ | .cdGetAnalog _ => false
  | .cdPack | .cdUnpack => false

/-- The operations of the packet codec, 0x20 to 0x2F (30_encoding.md R70). -/
def Instr.isCodec : Instr → Bool
  | .pktInit _ | .pktPackU8 _ | .pktPackU16 _ | .pktPackU32 _ | .pktPackU64 _ => true
  | .pktPackBytes _ | .pktLength | .pktData | .pktId | .pktUnpackU8 => true
  | .pktUnpackU16 | .pktUnpackU32 | .pktUnpackU64 | .pktUnpackBytes _ | .pktSuccess => true
  | .pktStatus => true
  | .frFeed _ | .frSendData _ | .frSendParam _ _ _ | .cdSetButton _ _ | .cdTestButton _ => false
  | .cdSetAnalog _ _ | .cdGetAnalog _ | .cdPack | .cdUnpack => false

/-- PKT_PACK_* and PKT_UNPACK_* (42_packet_codec.md R110). -/
def Instr.isPackOrUnpack : Instr → Bool
  | .pktPackU8 _ | .pktPackU16 _ | .pktPackU32 _ | .pktPackU64 _ | .pktPackBytes _ => true
  | .pktUnpackU8 | .pktUnpackU16 | .pktUnpackU32 | .pktUnpackU64 | .pktUnpackBytes _ => true
  | .frFeed _ | .frSendData _ | .frSendParam _ _ _ | .pktInit _ => false
  | .pktLength | .pktData | .pktId | .pktSuccess | .pktStatus => false
  | .cdSetButton _ _ | .cdTestButton _ | .cdSetAnalog _ _ | .cdGetAnalog _ | .cdPack | .cdUnpack => false

/-- The query operations, and how many bytes each responds: the second column of 30_encoding.md R72. `idWidth` is
ID_WIDTH and `pktLen` is `pkt_len`. -/
def Instr.responseLength? (i : Instr) (idWidth pktLen : Nat) : Option Nat :=
  match i with
  | .pktUnpackU8 => some (1 + 1)
  | .pktUnpackU16 => some (1 + 2)
  | .pktUnpackU32 => some (1 + 4)
  | .pktUnpackU64 => some (1 + 8)
  | .pktUnpackBytes n => some (1 + n.toNat)
  | .pktSuccess => some 1
  | .pktStatus => some 1
  | .pktLength => some 1
  | .pktData => some (1 + pktLen)
  | .pktId => some ((idWidth + 7) / 8)
  | .cdTestButton _ => some 1
  | .cdGetAnalog _ => some 1
  | .frFeed _ => none
  | .frSendData _ => none
  | .frSendParam _ _ _ => none
  | .pktInit _ => none
  | .pktPackU8 _ => none
  | .pktPackU16 _ => none
  | .pktPackU32 _ => none
  | .pktPackU64 _ => none
  | .pktPackBytes _ => none
  | .cdSetButton _ _ => none
  | .cdSetAnalog _ _ => none
  | .cdPack => none
  | .cdUnpack => none

end Sys2Proof
end

