-- ==== Sys2Proof/Certificates/Slice0/Obligations.lean ====
section
/-! DEFINITION. The statements for the provers. Each docstring says which rule of spec/ it formalises. The terms the
statements use stand first, in namespace Sys2Proof.Claims, written from the rules' own words and not from the meanings. -/

namespace Sys2Proof.Claims

open Sys2Proof.Machine

/-! ## Terms -/

/-- `b` is a hexadecimal digit of value `v` (00_scope.md R13). -/
def HexDigit (b : Byte) (v : Nat) : Prop :=
  (0x30 ≤ b.toNat ∧ b.toNat ≤ 0x39 ∧ v = b.toNat - 0x30) ∨
  (0x41 ≤ b.toNat ∧ b.toNat ≤ 0x46 ∧ v = b.toNat - 0x41 + 10) ∨
  (0x61 ≤ b.toNat ∧ b.toNat ≤ 0x66 ∧ v = b.toNat - 0x61 + 10)

/-- `b` is no hexadecimal digit (00_scope.md R13). -/
def NotHex (b : Byte) : Prop := ∀ v, ¬ HexDigit b v

/-- The sixteen uppercase digits (00_scope.md R13). -/
def upperDigits : List Byte :=
  [0x30, 0x31, 0x32, 0x33, 0x34, 0x35, 0x36, 0x37, 0x38, 0x39, 0x41, 0x42, 0x43, 0x44, 0x45, 0x46]

/-- Two uppercase digits, the most significant first (20_memory.md R48). -/
def twoDigits (n : Nat) : List Byte := [upperDigits.getD (n / 16 % 16) 0x00, upperDigits.getD (n % 16) 0x00]

/-- An uppercase letter (00_scope.md R12). -/
def Letter (b : Byte) : Prop := 0x41 ≤ b.toNat ∧ b.toNat ≤ 0x5A

/-- In COMMAND, copies of `g` take three bytes to end the token: none is held, or `I` is held and `g` is `R`, which makes
the token IR and leads to the footer (40_framer_parser.md R84, R86, R87). -/
def TokenTakesThree (s : State) (g : Byte) : Prop :=
  s.ps.state = 1 ∧ (s.ps.cmdCnt = 0 ∨ s.ps.cmdCnt = 1 ∧ s.ps.cmd.b0 = 0x49 ∧ g = 0x52)

/-- Only parser registers and the sink differ. -/
def OnlyParserAndSink (s t : State) : Prop := t = { s with ps := t.ps, sink := t.sink }

/-- The outcome of an error event: one `Error(code)`, the parser idle, the undeclared registers kept (60_exceptions.md
R149, 40_framer_parser.md R81). -/
def EmitsErrorAndResets (code : FrameError) (s : State) (r : Result) : Prop :=
  r = .next { s with
    sink := s.sink ++ [.error code]
    ps := { s.ps with state := 0, cmdCnt := 0, lenCnt := 0, dataCnt := 0, tailCnt := 0 } }

/-- `r` is a next state whose packet holds `bs` from position `pos` on and every other byte as in `s` (read byte by
byte), whose length is `len` and whose error state is `err`, everything else as in `s`. -/
def StoresPacketBytes (pos : Nat) (bs : List Byte) (len : Nat) (err : BitVec 2) (s : State) (r : Result) : Prop :=
  ∃ t, r = .next t ∧
    t = { s with pkt := { s.pkt with buf := t.pkt.buf, len := BitVec.ofNat 4 len, err := err } } ∧
    (∀ k (h : k < bs.length), Memory.read t.pkt.buf (pos + k) = bs[k]) ∧
    (∀ a, a < pos ∨ pos + bs.length ≤ a → Memory.read t.pkt.buf a = Memory.read s.pkt.buf a)

/-- The bytes `bs` on the command port are the operation `i`, whatever follows them (30_encoding.md R69, R70). -/
def Encodes (bs : List Byte) (i : Instr) : Prop := ∀ rest, decode (bs ++ rest) = .op i rest

/-- What appending `bs` to the packet does in every case (42_packet_codec.md R110, R111): it fits, it overflows, or a
sticky error makes it a no-op. -/
def Appends (bs : List Byte) (s : State) (r : Result) : Prop :=
  (s.pkt.err = 0 → s.pkt.len.toNat + bs.length ≤ 8 →
    StoresPacketBytes s.pkt.len.toNat bs (s.pkt.len.toNat + bs.length) 0 s r) ∧
  (s.pkt.err = 0 → s.pkt.len.toNat + bs.length > 8 → r = .next { s with pkt := { s.pkt with err := 1 } }) ∧
  (s.pkt.err = 1 ∨ s.pkt.err = 2 → r = .next s)

/-- The bytes of the packet from position `pos` on, read one by one. -/
def packetBytes (s : State) (pos n : Nat) : List Byte := (List.range n).map fun k => Memory.read s.pkt.buf (pos + k)

/-- What reading `m` bytes of the packet does in every case (42_packet_codec.md R110, R112, R113). -/
def Reads (m : Nat) (s : State) (r : Result) : Prop :=
  (s.pkt.err = 0 → s.pkt.len.toNat ≤ 8 → s.pkt.cur.toNat + m ≤ s.pkt.len.toNat →
    r = .next { s with
      pkt := { s.pkt with cur := BitVec.ofNat 4 (s.pkt.cur.toNat + m) }
      resp := s.resp ++ [0x01] ++ packetBytes s s.pkt.cur.toNat m }) ∧
  (s.pkt.err = 0 → s.pkt.cur.toNat + m > s.pkt.len.toNat →
    r = .next { s with
      pkt := { s.pkt with err := 2 }
      resp := s.resp ++ [0x00] ++ List.replicate m 0x00 }) ∧
  (s.pkt.err = 1 ∨ s.pkt.err = 2 → r = .next { s with resp := s.resp ++ [0x00] ++ List.replicate m 0x00 })

/-- Channel c of the analog bytes: byte c div 2, the low nibble for an even c (10_state.md R29). -/
def nibble (a : Bytes3) (c : Nat) : Nat :=
  ([a.b0, a.b1, a.b2].getD (c / 2) 0x00).toNat / (if c % 2 = 0 then 1 else 16) % 16

/-- The five payload bytes of a ControllerData value (20_memory.md R47). -/
def payloadBytes (cd : Controller) : List Byte :=
  [cd.mask.extractLsb 7 0, cd.mask.extractLsb 15 8, cd.analog.b0, cd.analog.b1, cd.analog.b2]

/-- A stream is `items`, one after another, and then `tail`, with which no complete operation begins (30_encoding.md
R74, R76). -/
def Splits : List StreamItem → List Byte → List Byte → Prop
  | [], bs, tail => bs = tail ∧ decode tail = .incomplete
  | .op i :: items, bs, tail => i.wellFormed = true ∧ ∃ rest, bs = encode i ++ rest ∧ Splits items rest tail
  | .refusal .illegalOpcode :: items, bs, tail =>
    ∃ b rest, bs = b :: rest ∧ (∀ row ∈ opTable, row.opcode ≠ b) ∧ Splits items rest tail
  | .refusal .reservedBits :: items, bs, tail =>
    ∃ a rest, bs = 0x20 :: a :: rest ∧ a.toNat ≥ 2 ∧ Splits items rest tail
  | .refusal .sendTooLong :: _, _, _ => False
  | .refusal .badParamCode :: _, _, _ => False

/-- A packed field of the codec: how it is packed, how it is read back, and its bytes. -/
inductive Field
  /-- one byte -/
  | u8 (v : BitVec 8)
  /-- two bytes -/
  | u16 (v : BitVec 16)
  /-- four bytes -/
  | u32 (v : BitVec 32)
  /-- eight bytes -/
  | u64 (v : BitVec 64)
  /-- a raw run -/
  | run (d : List Byte)

/-- The pack operation of a field. -/
def Field.pack : Field → Instr
  | .u8 v => .pktPackU8 v
  | .u16 v => .pktPackU16 v
  | .u32 v => .pktPackU32 v
  | .u64 v => .pktPackU64 v
  | .run d => .pktPackBytes d

/-- The bytes of a field: little-endian for a fixed width, in order for a run (20_memory.md R45, R46). -/
def Field.bytes : Field → List Byte
  | .u8 v => [v]
  | .u16 v => [v.extractLsb 7 0, v.extractLsb 15 8]
  | .u32 v => [v.extractLsb 7 0, v.extractLsb 15 8, v.extractLsb 23 16, v.extractLsb 31 24]
  | .u64 v => [v.extractLsb 7 0, v.extractLsb 15 8, v.extractLsb 23 16, v.extractLsb 31 24,
               v.extractLsb 39 32, v.extractLsb 47 40, v.extractLsb 55 48, v.extractLsb 63 56]
  | .run d => d

/-- An unpack operation, by its width. -/
inductive ReadOp
  /-- PKT_UNPACK_U8 -/
  | u8
  /-- PKT_UNPACK_U16 -/
  | u16
  /-- PKT_UNPACK_U32 -/
  | u32
  /-- PKT_UNPACK_U64 -/
  | u64
  /-- PKT_UNPACK_BYTES n -/
  | run (n : Byte)

/-- The unpack operation. -/
def ReadOp.unpack : ReadOp → Instr
  | .u8 => .pktUnpackU8
  | .u16 => .pktUnpackU16
  | .u32 => .pktUnpackU32
  | .u64 => .pktUnpackU64
  | .run n => .pktUnpackBytes n

/-- The bytes an unpack reads. -/
def ReadOp.width : ReadOp → Nat
  | .u8 => 1
  | .u16 => 2
  | .u32 => 4
  | .u64 => 8
  | .run n => n.toNat

/-- The responses of reads in order over packed bytes: 0x01 and the bytes at each read's position. -/
def readResponses : List ReadOp → List Byte → List Byte
  | [], _ => []
  | r :: rs, bs => [0x01] ++ bs.take r.width ++ readResponses rs (bs.drop r.width)

/-- Two states agree in everything a rule reads: they may differ in packet bytes at and above `pkt_len` (10_state.md
R26) and in parser registers the current parser state gives no meaning (R32, R41; 40_framer_parser.md R81). -/
def LooksAlike (s t : State) : Prop :=
  (s.pkt.len = t.pkt.len ∧ s.pkt.cur = t.pkt.cur ∧ s.pkt.err = t.pkt.err ∧ s.pkt.id = t.pkt.id ∧
    ∀ a, a < s.pkt.len.toNat → Memory.read s.pkt.buf a = Memory.read t.pkt.buf a) ∧
  s.cd = t.cd ∧
  (s.ps.state = t.ps.state ∧ s.ps.cmdCnt = t.ps.cmdCnt ∧ s.ps.lenCnt = t.ps.lenCnt ∧ s.ps.dataCnt = t.ps.dataCnt ∧
    s.ps.tailCnt = t.ps.tailCnt) ∧
  (s.ps.state = ParserState.command.bits →
    s.ps.cmd.toList.take s.ps.cmdCnt.toNat = t.ps.cmd.toList.take t.ps.cmdCnt.toNat) ∧
  (s.ps.state = ParserState.length.bits → s.ps.lenCnt = 1 → s.ps.lenHi = t.ps.lenHi) ∧
  (s.ps.state = ParserState.data.bits ∨ s.ps.state = ParserState.tailHasData.bits →
    s.ps.declLen = t.ps.declLen ∧
    ∀ a, a < s.ps.dataCnt.toNat → Memory.read s.ps.data a = Memory.read t.ps.data a) ∧
  (s.ps.state = ParserState.tailHasData.bits ∨ s.ps.state = ParserState.tail.bits → s.ps.tailCnt = 1 →
    s.ps.tailOk = t.ps.tailOk) ∧
  s.maxPayload = t.maxPayload ∧ s.idWidth = t.idWidth ∧ s.cmdPort = t.cmdPort ∧ s.sink = t.sink ∧ s.resp = t.resp ∧
  s.refusals = t.refusals

end Sys2Proof.Claims

open Sys2Proof Sys2Proof.Machine Sys2Proof.Claims

/-! ## Configuration and reset -/

/-- R7: a configuration with MAX_PAYLOAD > 254 is rejected; an accepted one is latched as given. -/
def Obligations.IllegalConfigurationRejected : Prop :=
  (∀ c u, 254 < c.maxPayload → State.construct c u = none) ∧
  (∀ s : State, s.maxPayload.val < 255) ∧
  (∀ c u, c.maxPayload ≤ 254 → 1 ≤ c.idWidth → c.pktId < 2 ^ c.idWidth →
    ∃ s, State.construct c u = some s ∧ s.maxPayload.val = c.maxPayload)

/-- R41, for every configuration and whatever the unspecified registers hold. -/
def Obligations.ResetLeavesTheListedValues : Prop :=
  ∀ c u s, State.construct c u = some s →
    s.pkt.len = 0 ∧ s.pkt.cur = 0 ∧ s.pkt.err = 0 ∧ s.pkt.id = c.pktId ∧
    s.cd.mask = 0x0000 ∧ s.cd.analog = ⟨0x00, 0x00, 0x00⟩ ∧
    s.ps.state = 0 ∧ s.ps.cmdCnt = 0 ∧ s.ps.lenCnt = 0 ∧ s.ps.dataCnt = 0 ∧ s.ps.tailCnt = 0 ∧
    s.maxPayload.val = c.maxPayload ∧ s.sink = [] ∧ s.resp = [] ∧ s.refused = false

/-- R159: no operation sequence tells a fresh block from one whose host issued PKT_INIT 0 first. -/
def Obligations.FreshBlockActsAsInitialised : Prop :=
  ∀ c u s, State.construct c u = some s →
    exec (.pktInit false) s = .next s ∧ ∀ ops, execAll (.pktInit false :: ops) s = execAll ops s

/-- R34: MAX_PAYLOAD and PKT_ID are latched at reset, and no step writes them (nor ID_WIDTH). -/
def Obligations.ConfigurationIsReadOnly : Prop :=
  (∀ c u s, State.construct c u = some s → s.maxPayload.val = c.maxPayload ∧ s.pkt.id = c.pktId) ∧
  (∀ i s t, exec i s = .next t → t.maxPayload = s.maxPayload ∧ t.pkt.id = s.pkt.id ∧ t.idWidth = s.idWidth) ∧
  (∀ s t, step s = .next t → t.maxPayload = s.maxPayload ∧ t.pkt.id = s.pkt.id ∧ t.idWidth = s.idWidth)

/-! ## Invariants -/

/-- 10_state.md R25, R32: the invariant holds after reset, for every legal configuration and all contents of the
unspecified registers that fit it. -/
def Obligations.ConstructedStatesMeetInvariant : Prop :=
  (∀ c u s, u.Fits c.maxPayload → State.construct c u = some s → s.Inv) ∧ State.reset.Inv

/-- 10_state.md R25, R32; 20_memory.md R56: every step keeps the invariant: `pkt_cur ≤ pkt_len ≤ 8`, a legal `pkt_err`
and `ps_state`, the parser counts in their ranges, both byte stores canonical and inside their bounds. -/
def Obligations.StepKeepsInvariant : Prop := ∀ s t, s.Inv → step s = .next t → t.Inv

/-- 10_state.md R25, R32: the invariant holds in every reachable state. -/
def Obligations.ReachableStatesMeetInvariant : Prop := ∀ s, Reachable s → s.Inv

/-- 60_exceptions.md R142, 40_framer_parser.md R101: nothing traps or halts the block. From every state that meets the
invariant every operation completes, and every step answers a next state. -/
def Obligations.NothingTrapsOrHalts : Prop :=
  (∀ i s, s.Inv → ∃ t, exec i s = .next t) ∧ (∀ s, s.Inv → ∃ t, step s = .next t)

/-! ## Encoding and the command port -/

/-- 30_encoding.md R69, R70, R71, R76: every well-formed operation decodes from its bytes, whatever follows them. -/
def Obligations.DecodeInvertsEncode : Prop :=
  ∀ i rest, i.wellFormed = true → decode (encode i ++ rest) = .op i rest

/-- 30_encoding.md R69 to R71: what the decoder reads is well-formed and is exactly the bytes it consumed. -/
def Obligations.DecodedOperationIsItsBytes : Prop :=
  ∀ bs i rest, decode bs = .op i rest → i.wellFormed = true ∧ bs = encode i ++ rest

/-- 30_encoding.md R76: every byte stream splits into operations and refusals, and then at most one incomplete operation.
(That a refused PKT_INIT takes both its bytes is the model's DEDUCED choice, log 4.) -/
def Obligations.StreamSplitsIntoOperations : Prop :=
  ∀ bs, Splits (splitStream bs).1 bs (splitStream bs).2

/-- 30_encoding.md R70: words written out from the table decode to the operations they stand for. -/
def Obligations.WrittenOutWordsDecode : Prop :=
  decode [0x10, 0x05, 0x2A, 0x49, 0x52, 0x0D, 0x0A] = .op (.frFeed [0x2A, 0x49, 0x52, 0x0D, 0x0A]) [] ∧
  decode [0x12, 0x43, 0x48, 0x0E] = .op (.frSendParam 0x43 0x48 0x0E) [] ∧
  decode [0x20, 0x01] = .op (.pktInit true) [] ∧
  decode [0x22, 0x34, 0x12, 0x2E] = .op (.pktPackU16 0x1234) [0x2E] ∧
  decode [0x24, 0x01, 0x02, 0x03, 0x04, 0x05, 0x06, 0x07, 0x08] = .op (.pktPackU64 0x0807060504030201) [] ∧
  decode [0x2D, 0x03] = .op (.pktUnpackBytes 3) [] ∧
  decode [0x30, 0x0F, 0x01] = .op (.cdSetButton 15 1) [] ∧
  decode [0x35] = .op .cdUnpack []

/-- R74: the illegal opcode bytes are the ones outside the table; one is refused and consumed alone, and PKT_INIT with a
reserved bit set is refused. Nothing but the mark and the port changes. (How many bytes the reserved form takes from the
port is left open here; the model's DEDUCED choice is log 4.) -/
def Obligations.IllegalEncodingsRefused : Prop :=
  (∀ b : Byte, (∀ row ∈ opTable, row.opcode ≠ b) ↔
    (b.toNat ≤ 0x0F ∨ (0x13 ≤ b.toNat ∧ b.toNat ≤ 0x1F) ∨ 0x36 ≤ b.toNat)) ∧
  (∀ s b rest, s.cmdPort = b :: rest → (b.toNat ≤ 0x0F ∨ (0x13 ≤ b.toNat ∧ b.toNat ≤ 0x1F) ∨ 0x36 ≤ b.toNat) →
    step s = .next { s with cmdPort := rest, refusals := s.refusals ++ [.illegalOpcode] }) ∧
  (∀ s a rest, s.cmdPort = 0x20 :: a :: rest → a.toNat ≥ 2 →
    ∃ rest', step s = .next { s with cmdPort := rest', refusals := s.refusals ++ [.reservedBits] })

/-- 00_scope.md R18, 20_memory.md R57: when the command port begins with an operation's bytes, the step is exec of it on
the state without those bytes. -/
def Obligations.StepRunsTheDecodedOperation : Prop :=
  (∀ s i rest, i.wellFormed = true → s.cmdPort = encode i ++ rest → step s = exec i { s with cmdPort := rest }) ∧
  (∀ s i rest, decode s.cmdPort = .op i rest → step s = exec i { s with cmdPort := rest })

/-- R73: an operation's length, read from its first bytes; and an operation whose bytes have not all arrived is not
executed: the state stays as it is until more arrives. (That "no step" is the step that changes nothing is the model's
DESIGN CHOICE, log 2.) -/
def Obligations.IncompleteOperationWaits : Prop :=
  (∀ i rest, i.wellFormed = true → opLength (encode i ++ rest) = some (encode i).length) ∧
  (∀ s i k, i.wellFormed = true → k < (encode i).length → s.cmdPort = (encode i).take k → step s = .next s)

/-- R38: the mark is 0 at reset, a refusal of any of the four kinds sets it, and no step clears it. -/
def Obligations.RefusedMarkNeverCleared : Prop :=
  (∀ c u s, State.construct c u = some s → s.refused = false) ∧
  (∀ s t, step s = .next t → s.refusals <+: t.refusals) ∧
  (∀ s t, step s = .next t → s.refused = true → t.refused = true) ∧
  (∀ s r rest, decode s.cmdPort = .rejected r rest → ∃ t, step s = .next t ∧ t.refused = true) ∧
  (∀ d s, d.length > s.maxPayload.val → ∃ t, exec (.frSendData d) s = .next t ∧ t.refused = true) ∧
  (∀ p0 p1 v s, ¬ (Letter p0 ∧ Letter p1) → ∃ t, exec (.frSendParam p0 p1 v) s = .next t ∧ t.refused = true)

/-! ## Ports and units -/

/-- R37: the response port is append-only, empty at reset, and written by query operations alone. -/
def Obligations.OnlyQueriesRespond : Prop :=
  (∀ c u s, State.construct c u = some s → s.resp = []) ∧
  (∀ s t, step s = .next t → s.resp <+: t.resp) ∧
  (∀ i s t, i.responseLength? s.idWidth s.pkt.len.toNat = none → exec i s = .next t → t.resp = s.resp)

/-- 30_encoding.md R72: every query's response has the length the table gives it. -/
def Obligations.ResponsesHaveTheirLength : Prop :=
  ∀ i s t n, i.responseLength? s.idWidth s.pkt.len.toNat = some n → exec i s = .next t →
    ∃ bs, t.resp = s.resp ++ bs ∧ bs.length = n

/-- 10_state.md R36, 60_exceptions.md R147: the sink is append-only, and only the framer writes it. -/
def Obligations.SinkIsAppendOnly : Prop :=
  (∀ s t, step s = .next t → s.sink <+: t.sink) ∧
  (∀ i s t, i.isFramer = false → exec i s = .next t → t.sink = s.sink)

/-- 00_scope.md R2, 60_exceptions.md R148: the frames of the framer, the codec and the encoder. A framer operation leaves
the packet and the ControllerData value alone, the other operations leave the parser alone, a codec operation leaves the
ControllerData value alone, and the encoder leaves the parser alone. (Which CD operations write the packet is said by
`ControllerDataWrittenOnlyByItsOperations`.) -/
def Obligations.FramerCodecAndEncoderFrames : Prop :=
  (∀ i s t, i.isFramer = true → exec i s = .next t → t.pkt = s.pkt ∧ t.cd = s.cd ∧ t.resp = s.resp) ∧
  (∀ i s t, i.isFramer = false → exec i s = .next t → t.ps = s.ps ∧ t.refusals = s.refusals) ∧
  (∀ i s t, i.isCodec = true → exec i s = .next t → t.cd = s.cd) ∧
  (∀ d s t, exec (.frSendData d) s = .next t → t.ps = s.ps) ∧
  (∀ p0 p1 v s t, exec (.frSendParam p0 p1 v) s = .next t → t.ps = s.ps)

/-- 43_controller_data.md R140: only CD_SET_BUTTON, CD_SET_ANALOG and CD_UNPACK write the ControllerData value, each
only its own field, and only CD_PACK, CD_UNPACK and the codec write the packet. -/
def Obligations.ControllerDataWrittenOnlyByItsOperations : Prop :=
  (∀ i s t, exec i s = .next t → t.cd.mask ≠ s.cd.mask → (∃ j v, i = .cdSetButton j v) ∨ i = .cdUnpack) ∧
  (∀ i s t, exec i s = .next t → t.cd.analog ≠ s.cd.analog → (∃ c v, i = .cdSetAnalog c v) ∨ i = .cdUnpack) ∧
  (∀ i s t, exec i s = .next t → t.pkt ≠ s.pkt → i.isCodec = true ∨ i = .cdPack ∨ i = .cdUnpack)

/-! ## The inbound parser -/

/-- R82, R83: in WAIT_HEAD a star opens a frame, and bytes without a star are discarded. -/
def Obligations.WaitHeadAwaitsStar : Prop :=
  ∀ s, s.ps.state = 0 →
    exec (.frFeed [0x2A]) s = .next { s with ps := { s.ps with cmdCnt := 0, state := 1 } } ∧
    ∀ d, 0x2A ∉ d → exec (.frFeed d) s = .next s

/-- R84 to R87: what a byte does in COMMAND, by the token it makes with the bytes received so far. The premise on the
count is that of 10_state.md R32. -/
def Obligations.CommandTokenDecides : Prop :=
  ∀ (s : State) (b : Byte) (tok : List Byte), s.ps.state = 1 → s.ps.cmdCnt.toNat ≤ 2 →
    tok = s.ps.cmd.toList.take s.ps.cmdCnt.toNat ++ [b] →
    (tok = [0x49, 0x52] →
      exec (.frFeed [b]) s = .next { s with ps := { s.ps with state := 5, tailCnt := 0 } }) ∧
    (tok = [0x44, 0x52, 0x3D] →
      exec (.frFeed [b]) s = .next { s with ps := { s.ps with state := 2, lenCnt := 0 } }) ∧
    (tok.length = 3 → tok ≠ [0x44, 0x52, 0x3D] →
      EmitsErrorAndResets .invalidCommand s (exec (.frFeed [b]) s)) ∧
    (tok.length ≤ 2 → tok ≠ [0x49, 0x52] →
      ∃ t, exec (.frFeed [b]) s = .next t ∧
        t = { s with ps := { s.ps with cmd := t.ps.cmd, cmdCnt := s.ps.cmdCnt + 1 } } ∧
        t.ps.cmd.toList = tok ++ s.ps.cmd.toList.drop tok.length)

/-- R88 to R91: what a byte does in LENGTH. -/
def Obligations.LengthDigitsDecide : Prop :=
  ∀ (s : State) (b : Byte), s.ps.state = 2 →
    (NotHex b → EmitsErrorAndResets .lengthNotHex s (exec (.frFeed [b]) s)) ∧
    (∀ v, HexDigit b v → s.ps.lenCnt = 0 →
      exec (.frFeed [b]) s = .next { s with ps := { s.ps with lenHi := BitVec.ofNat 4 v, lenCnt := 1 } }) ∧
    (∀ v n, HexDigit b v → s.ps.lenCnt = 1 → n = 16 * s.ps.lenHi.toNat + v →
      (n > s.maxPayload.val → EmitsErrorAndResets .lengthTooLong s (exec (.frFeed [b]) s)) ∧
      (n ≤ s.maxPayload.val → 1 ≤ n → exec (.frFeed [b]) s =
        .next { s with ps := { s.ps with declLen := BitVec.ofNat 8 n, dataCnt := 0, state := 3 } }) ∧
      (n = 0 → exec (.frFeed [b]) s =
        .next { s with ps := { s.ps with declLen := 0, dataCnt := 0, tailCnt := 0, state := 4 } }))

/-- R92: DATA stores any byte at `ps_data_cnt` and moves on when the declared length is reached. The premises are those
of 10_state.md R32 for DATA, and the canonical form of the store (log 7). -/
def Obligations.DataByteStored : Prop :=
  ∀ (s : State) (b : Byte), s.ps.state = 3 → s.ps.dataCnt.toNat < s.ps.declLen.toNat →
    s.ps.declLen.toNat ≤ s.maxPayload.val → Memory.wf s.ps.data = true →
    ∃ t, exec (.frFeed [b]) s = .next t ∧
      t = { s with ps := { s.ps with data := t.ps.data, dataCnt := s.ps.dataCnt + 1,
                                     state := t.ps.state, tailCnt := t.ps.tailCnt } } ∧
      Memory.read t.ps.data s.ps.dataCnt.toNat = b ∧
      (∀ a, a ≠ s.ps.dataCnt.toNat → Memory.read t.ps.data a = Memory.read s.ps.data a) ∧
      (s.ps.dataCnt.toNat + 1 = s.ps.declLen.toNat → t.ps.state = 4 ∧ t.ps.tailCnt = 0) ∧
      (s.ps.dataCnt.toNat + 1 < s.ps.declLen.toNat → t.ps.state = 3 ∧ t.ps.tailCnt = s.ps.tailCnt)

/-- R93 to R96: the two footer bytes. In TAIL_HAS_DATA the declared length fits the payload buffer (10_state.md R32). -/
def Obligations.FooterDecides : Prop :=
  ∀ (s : State) (b : Byte), s.ps.state = 4 ∨ s.ps.state = 5 →
    (s.ps.tailCnt = 0 →
      exec (.frFeed [b]) s = .next { s with ps := { s.ps with tailOk := decide (b = 0x0D), tailCnt := 1 } }) ∧
    (s.ps.tailCnt = 1 → s.ps.tailOk = false ∨ b ≠ 0x0A →
      EmitsErrorAndResets .footerNotCrlf s (exec (.frFeed [b]) s)) ∧
    (s.ps.tailCnt = 1 → s.ps.tailOk = true → b = 0x0A → s.ps.state = 5 →
      EmitsErrorAndResets .collisionDetected s (exec (.frFeed [b]) s)) ∧
    (s.ps.tailCnt = 1 → s.ps.tailOk = true → b = 0x0A → s.ps.state = 4 → s.ps.declLen.toNat ≤ s.maxPayload.val →
      exec (.frFeed [b]) s = .next { s with
        sink := s.sink ++ [.payload ((List.range s.ps.declLen.toNat).map (Memory.read s.ps.data))]
        ps := { s.ps with state := 0, cmdCnt := 0, lenCnt := 0, dataCnt := 0, tailCnt := 0 } })

/-- 30_encoding.md R62, R63; 40_framer_parser.md R94, R96; 20_memory.md R48: from WAIT_HEAD, a well-formed data frame
gives exactly its payload, with length digits of either case, and a collision frame gives COLLISION_DETECTED. The frame
may be longer than one FR_FEED can carry; FR_FEED_BYTES then splits it (R78). -/
def Obligations.WellFormedFramesDecode : Prop :=
  (∀ (s : State) (p : List Byte) (h l : Byte) (vh vl : Nat), s.ps.state = 0 → Memory.wf s.ps.data = true →
    p.length ≤ s.maxPayload.val → HexDigit h vh → HexDigit l vl → 16 * vh + vl = p.length →
    ∃ t, execAll (frFeedBytes ([0x2A, 0x44, 0x52, 0x3D, h, l] ++ p ++ [0x0D, 0x0A])) s = .next t ∧
      OnlyParserAndSink s t ∧ t.sink = s.sink ++ [.payload p] ∧ t.ps.Idle) ∧
  (∀ s : State, s.ps.state = 0 →
    ∃ t, exec (.frFeed [0x2A, 0x49, 0x52, 0x0D, 0x0A]) s = .next t ∧
      OnlyParserAndSink s t ∧ t.sink = s.sink ++ [.error .collisionDetected] ∧ t.ps.Idle)

/-- 40_framer_parser.md R90, R102; 95_test_vectors.md V2: a frame of length FF gives length-too-long whatever
MAX_PAYLOAD is, its bytes are discarded as far as they hold no star, and the next valid frame decodes. -/
def Obligations.TooLongThenValidFrame : Prop :=
  ∀ (s : State) (junk p : List Byte) (h l : Byte) (vh vl : Nat), s.ps.state = 0 → Memory.wf s.ps.data = true →
    0x2A ∉ junk → p.length ≤ s.maxPayload.val → HexDigit h vh → HexDigit l vl → 16 * vh + vl = p.length →
    ∃ t, execAll (frFeedBytes ([0x2A, 0x44, 0x52, 0x3D, 0x46, 0x46] ++ junk ++
        ([0x2A, 0x44, 0x52, 0x3D, h, l] ++ p ++ [0x0D, 0x0A]))) s = .next t ∧
      OnlyParserAndSink s t ∧ t.sink = s.sink ++ [.error .lengthTooLong, .payload p] ∧ t.ps.Idle

/-- R99: how a byte string is split into FR_FEED operations does not matter. -/
def Obligations.ChunkingDoesNotMatter : Prop :=
  ∀ (cs cs' : List (List Byte)) (s : State), cs.flatten = cs'.flatten →
    execAll (cs.map Instr.frFeed) s = execAll (cs'.map Instr.frFeed) s

/-- R100: one byte gives at most one event, a payload or an error; with it the frame ends and the parser is idle; and a
frame does not end without one. -/
def Obligations.OneEventPerFrame : Prop :=
  ∀ (s t : State) (b : Byte), exec (.frFeed [b]) s = .next t →
    (t.sink = s.sink ∨
      ((∃ p, t.sink = s.sink ++ [.payload p]) ∨ (∃ c, t.sink = s.sink ++ [.error c])) ∧ t.ps.Idle) ∧
    (s.ps.state ≠ 0 → t.ps.state = 0 → t.sink ≠ s.sink)

/-- R97: encodings 6 and 7 of `ps_state` are unreachable, and a byte that meets one is a model fault: no step. -/
def Obligations.IllegalParserStateFaults : Prop :=
  (∀ s, Reachable s → s.ps.state ≠ 6 ∧ s.ps.state ≠ 7) ∧
  (∀ (s : State) (b : Byte) (d : List Byte), s.ps.state = 6 ∨ s.ps.state = 7 →
    exec (.frFeed (b :: d)) s = .fault .modelFaultState)

/-- 70_reset_and_hazards.md R160 for every MAX_PAYLOAD, as far as R80 allows it: MAX_PAYLOAD + 2 or more copies of a byte
that is no star, no CR and no hex digit bring the parser back to WAIT_HEAD, with at most one event; where the token takes
three bytes there must be three. (With MAX_PAYLOAD ≥ 1 there always are. With MAX_PAYLOAD = 0 the rule's own count is two,
log 15: see `FlushAlsoWithoutPayload`.) -/
def Obligations.FlushReturnsToWaitHead : Prop :=
  ∀ (s : State) (g : Byte) (n : Nat), s.Inv → g ≠ 0x2A → g ≠ 0x0D → NotHex g → s.maxPayload.val + 2 ≤ n →
    (TokenTakesThree s g → 3 ≤ n) →
    ∃ t, execAll (frFeedBytes (List.replicate n g)) s = .next t ∧ OnlyParserAndSink s t ∧
      t.ps.Idle ∧ (t.sink = s.sink ∨ ∃ e, t.sink = s.sink ++ [e])

/-- 70_reset_and_hazards.md R160 in its own words, for every MAX_PAYLOAD. Expected to fail: right after a star three bytes
are needed to end the token (R86, R87), and MAX_PAYLOAD = 0 gives two (log 15). -/
def Obligations.FlushAlsoWithoutPayload : Prop :=
  ∀ (s : State) (g : Byte), Reachable s → g ≠ 0x2A → g ≠ 0x0D → NotHex g →
    ∃ t, execAll (frFeedBytes (List.replicate (s.maxPayload.val + 2) g)) s = .next t ∧
      t.ps.Idle ∧ (t.sink = s.sink ∨ ∃ e, t.sink = s.sink ++ [e])

/-- R104: the parser reads nothing but its registers and MAX_PAYLOAD and writes nothing but its registers and the sink:
two blocks that agree on those do the same with the same bytes, whatever their packets and ControllerData values. -/
def Obligations.FeedReadsOnlyTheParser : Prop :=
  ∀ (d : List Byte) (s s' t : State), s'.ps = s.ps → s'.maxPayload = s.maxPayload → exec (.frFeed d) s = .next t →
    OnlyParserAndSink s t ∧
    ∃ t' evs, exec (.frFeed d) s' = .next t' ∧ OnlyParserAndSink s' t' ∧ t'.ps = t.ps ∧
      t.sink = s.sink ++ evs ∧ t'.sink = s'.sink ++ evs

/-! ## The outbound encoder -/

/-- R105: FR_SEND_DATA, its encoding and its effect. What is sent is said of the concatenation of the sink's sends, as R107 asks. -/
def Obligations.SendDataRenders : Prop :=
  (∀ d, d.length ≤ 255 → Encodes (0x11 :: BitVec.ofNat 8 d.length :: d) (.frSendData d)) ∧
  ∀ (d : List Byte) (s : State),
    (d.length ≤ s.maxPayload.val → ∃ t, exec (.frSendData d) s = .next t ∧ t = { s with sink := t.sink } ∧
      sentBytes t.sink = sentBytes s.sink ++ ([0x40, 0x44, 0x54] ++ twoDigits d.length ++ d ++ [0x0D, 0x0A]) ∧
      inboundEvents t.sink = inboundEvents s.sink) ∧
    (d.length > s.maxPayload.val →
      exec (.frSendData d) s = .next { s with refusals := s.refusals ++ [.sendTooLong] })

/-- R106: FR_SEND_PARAM, its encoding and its effect. -/
def Obligations.SendParamRenders : Prop :=
  (∀ p0 p1 v, Encodes [0x12, p0, p1, v] (.frSendParam p0 p1 v)) ∧
  ∀ (p0 p1 v : Byte) (s : State),
    (Letter p0 → Letter p1 → ∃ t, exec (.frSendParam p0 p1 v) s = .next t ∧ t = { s with sink := t.sink } ∧
      sentBytes t.sink = sentBytes s.sink ++ ([0x40, p0, p1] ++ twoDigits v.toNat ++ [0x0D, 0x0A]) ∧
      inboundEvents t.sink = inboundEvents s.sink) ∧
    (¬ (Letter p0 ∧ Letter p1) →
      exec (.frSendParam p0 p1 v) s = .next { s with refusals := s.refusals ++ [.badParamCode] })

/-- 41_framer_encoder.md R107, R109: a send that is not refused emits exactly one event, which holds the whole frame, of
n + 7 bytes or of 7. -/
def Obligations.OneEventPerSend : Prop :=
  (∀ d s t, exec (.frSendData d) s = .next t → t.refusals = s.refusals →
    ∃ f, t.sink = s.sink ++ [.sendBytes f] ∧ f.length = d.length + 7) ∧
  (∀ p0 p1 v s t, exec (.frSendParam p0 p1 v) s = .next t → t.refusals = s.refusals →
    ∃ f, t.sink = s.sink ++ [.sendBytes f] ∧ f.length = 7)

/-- R108: the encoder reads no parser register and writes none, and a send between two FR_FEEDs does not disturb the
parse. -/
def Obligations.EncoderIndependentOfParser : Prop :=
  ∀ (i : Instr) (s : State), (∃ d, i = .frSendData d) ∨ (∃ p0 p1 v, i = .frSendParam p0 p1 v) →
    ∃ t, exec i s = .next t ∧ t.ps = s.ps ∧
      (∀ p, exec i { s with ps := p } = .next { t with ps := p }) ∧
      (∀ d u, exec (.frFeed d) s = .next u →
        ∃ u', exec (.frFeed d) t = .next u' ∧ u'.ps = u.ps ∧ inboundEvents u'.sink = inboundEvents u.sink)

/-! ## The packet codec -/

/-- R114: PKT_INIT, whatever the error state; with z = 1 all eight bytes read 0x00, with z = 0 the buffer is kept, and
with a reserved bit set the operation is refused. (Canonical store, log 7.) -/
def Obligations.PacketInitialised : Prop :=
  Encodes [0x20, 0x00] (.pktInit false) ∧ Encodes [0x20, 0x01] (.pktInit true) ∧
  (∀ s : State, Memory.wf s.pkt.buf = true → ∃ t, exec (.pktInit true) s = .next t ∧
    t = { s with pkt := { s.pkt with buf := t.pkt.buf, len := 0, cur := 0, err := 0 } } ∧
    (∀ a, a < 8 → Memory.read t.pkt.buf a = 0x00) ∧
    (∀ a, 8 ≤ a → Memory.read t.pkt.buf a = Memory.read s.pkt.buf a)) ∧
  (∀ s, exec (.pktInit false) s = .next { s with pkt := { s.pkt with len := 0, cur := 0, err := 0 } }) ∧
  (∀ s a rest, s.cmdPort = 0x20 :: a :: rest → a.toNat ≥ 2 →
    ∃ rest', step s = .next { s with cmdPort := rest', refusals := s.refusals ++ [.reservedBits] })

/-- R115 to R118: the four fixed-width packs append their value little-endian, overflow whole, and do nothing under
a sticky error. (Canonical store, log 7.) -/
def Obligations.FixedWidthPacksAppend : Prop :=
  (∀ v : BitVec 8, Encodes [0x21, v] (.pktPackU8 v)) ∧
  (∀ v : BitVec 16, Encodes [0x22, v.extractLsb 7 0, v.extractLsb 15 8] (.pktPackU16 v)) ∧
  (∀ v : BitVec 32, Encodes [0x23, v.extractLsb 7 0, v.extractLsb 15 8, v.extractLsb 23 16, v.extractLsb 31 24]
    (.pktPackU32 v)) ∧
  (∀ v : BitVec 64, Encodes [0x24, v.extractLsb 7 0, v.extractLsb 15 8, v.extractLsb 23 16, v.extractLsb 31 24,
    v.extractLsb 39 32, v.extractLsb 47 40, v.extractLsb 55 48, v.extractLsb 63 56] (.pktPackU64 v)) ∧
  ∀ s : State, Memory.wf s.pkt.buf = true →
    (∀ v : BitVec 8, Appends [v] s (exec (.pktPackU8 v) s)) ∧
    (∀ v : BitVec 16, Appends [v.extractLsb 7 0, v.extractLsb 15 8] s (exec (.pktPackU16 v) s)) ∧
    (∀ v : BitVec 32, Appends [v.extractLsb 7 0, v.extractLsb 15 8, v.extractLsb 23 16, v.extractLsb 31 24] s
      (exec (.pktPackU32 v) s)) ∧
    (∀ v : BitVec 64, Appends [v.extractLsb 7 0, v.extractLsb 15 8, v.extractLsb 23 16, v.extractLsb 31 24,
      v.extractLsb 39 32, v.extractLsb 47 40, v.extractLsb 55 48, v.extractLsb 63 56] s (exec (.pktPackU64 v) s))

/-- R119: the raw pack appends its bytes in order. (Canonical store, log 7.) -/
def Obligations.RawPackAppends : Prop :=
  (∀ d, d.length ≤ 255 → Encodes (0x25 :: BitVec.ofNat 8 d.length :: d) (.pktPackBytes d)) ∧
  ∀ (s : State) (d : List Byte), Memory.wf s.pkt.buf = true → Appends d s (exec (.pktPackBytes d) s)

/-- R120 to R123: the four fixed-width unpacks. -/
def Obligations.FixedWidthUnpacksRead : Prop :=
  Encodes [0x29] .pktUnpackU8 ∧ Encodes [0x2A] .pktUnpackU16 ∧ Encodes [0x2B] .pktUnpackU32 ∧
  Encodes [0x2C] .pktUnpackU64 ∧
  ∀ s : State, Reads 1 s (exec .pktUnpackU8 s) ∧ Reads 2 s (exec .pktUnpackU16 s) ∧
    Reads 4 s (exec .pktUnpackU32 s) ∧ Reads 8 s (exec .pktUnpackU64 s)

/-- R124: the raw unpack. -/
def Obligations.RawUnpackReads : Prop :=
  (∀ n, Encodes [0x2D, n] (.pktUnpackBytes n)) ∧
  ∀ (s : State) (n : Byte), Reads n.toNat s (exec (.pktUnpackBytes n) s)

/-- R110: under a sticky error every pack, unpack and CD step is a no-op but for an unpack's failure response; PKT_INIT
and the five queries are not guarded. -/
def Obligations.StickyErrorGuards : Prop :=
  ∀ s : State, s.pkt.err = 1 ∨ s.pkt.err = 2 →
    (∀ v, exec (.pktPackU8 v) s = .next s) ∧ (∀ v, exec (.pktPackU16 v) s = .next s) ∧
    (∀ v, exec (.pktPackU32 v) s = .next s) ∧ (∀ v, exec (.pktPackU64 v) s = .next s) ∧
    (∀ d, exec (.pktPackBytes d) s = .next s) ∧
    (∀ i ∈ [(Instr.pktUnpackU8, 1), (.pktUnpackU16, 2), (.pktUnpackU32, 4), (.pktUnpackU64, 8)],
      exec i.1 s = .next { s with resp := s.resp ++ [0x00] ++ List.replicate i.2 0x00 }) ∧
    (∀ n : Byte, exec (.pktUnpackBytes n) s =
      .next { s with resp := s.resp ++ [0x00] ++ List.replicate n.toNat 0x00 }) ∧
    exec .cdPack s = .next s ∧ exec .cdUnpack s = .next s ∧
    (∀ z, ∃ t, exec (.pktInit z) s = .next t ∧ t.pkt.err = 0) ∧
    exec .pktSuccess s = .next { s with resp := s.resp ++ [0x00] } ∧
    exec .pktStatus s = .next { s with resp := s.resp ++ [s.pkt.err.setWidth 8] } ∧
    exec .pktLength s = .next { s with resp := s.resp ++ [s.pkt.len.setWidth 8] } ∧
    (s.pkt.len.toNat ≤ 8 → exec .pktData s =
      .next { s with resp := s.resp ++ [s.pkt.len.setWidth 8] ++ packetBytes s 0 s.pkt.len.toNat }) ∧
    (∃ bs, exec .pktId s = .next { s with resp := s.resp ++ bs } ∧
      exec .pktId { s with pkt := { s.pkt with err := 0 } } =
        .next { s with pkt := { s.pkt with err := 0 }, resp := s.resp ++ bs })

/-- 10_state.md R24, 60_exceptions.md R150: no operation but PKT_INIT changes a set error state. -/
def Obligations.OnlyInitClearsError : Prop :=
  ∀ i s t, exec i s = .next t → s.pkt.err ≠ 0 → (∀ z, i ≠ .pktInit z) → t.pkt.err = s.pkt.err

/-- R125, R126: PKT_SUCCESS and PKT_STATUS read the error state, and change no state. -/
def Obligations.SuccessAndStatusRead : Prop :=
  Encodes [0x2E] .pktSuccess ∧ Encodes [0x2F] .pktStatus ∧
  ∀ s : State, s.pkt.err ≠ 3 →
    exec .pktSuccess s = .next { s with resp := s.resp ++ [if s.pkt.err = 0 then 0x01 else 0x00] } ∧
    exec .pktStatus s = .next { s with resp := s.resp ++ [s.pkt.err.setWidth 8] }

/-- R127, R128: PKT_LENGTH and PKT_DATA read the packed length and bytes, and change no state. -/
def Obligations.LengthAndDataRead : Prop :=
  Encodes [0x26] .pktLength ∧ Encodes [0x27] .pktData ∧
  ∀ s : State,
    exec .pktLength s = .next { s with resp := s.resp ++ [s.pkt.len.setWidth 8] } ∧
    (s.pkt.len.toNat ≤ 8 → exec .pktData s =
      .next { s with resp := s.resp ++ [s.pkt.len.setWidth 8] ++ packetBytes s 0 s.pkt.len.toNat })

/-- R129: PKT_ID responds ceil(ID_WIDTH/8) bytes, little-endian, whose value is the id, and changes no state. -/
def Obligations.IdRead : Prop :=
  Encodes [0x28] .pktId ∧
  ∀ s : State, s.pkt.id < 2 ^ s.idWidth →
    ∃ bs, exec .pktId s = .next { s with resp := s.resp ++ bs } ∧ 8 * bs.length < s.idWidth + 8 ∧
      s.idWidth ≤ 8 * bs.length ∧
      ∀ k (h : k < bs.length), bs[k].toNat = s.pkt.id / 256 ^ k % 256

/-- 42_packet_codec.md R130, 20_memory.md R51: after PKT_INIT, packs of at most 8 bytes in all and then unpacks of at most
that many: each unpack returns the bytes packed at its positions, whatever the field boundaries. (Canonical store,
log 7.) -/
def Obligations.PackedBytesReadBack : Prop :=
  ∀ (s : State) (z : Bool) (fs : List Field) (rs : List ReadOp), Memory.wf s.pkt.buf = true →
    (fs.flatMap Field.bytes).length ≤ 8 → (rs.map ReadOp.width).sum ≤ (fs.flatMap Field.bytes).length →
    ∃ t, execAll ([.pktInit z] ++ fs.map Field.pack ++ rs.map ReadOp.unpack) s = .next t ∧
      t.resp = s.resp ++ readResponses rs (fs.flatMap Field.bytes) ∧
      t.pkt.err = 0 ∧ t.pkt.len.toNat = (fs.flatMap Field.bytes).length ∧
      t.pkt.cur.toNat = (rs.map ReadOp.width).sum ∧
      t = { s with pkt := t.pkt, resp := t.resp } ∧ t.pkt.id = s.pkt.id

/-- 42_packet_codec.md R131: a chain of packs and unpacks stops having effect on the packet at its first failure. The
operation that fails changes `pkt_err` alone, and the rest of the chain changes nothing of the packet. -/
def Obligations.ChainStopsAtFirstFailure : Prop :=
  ∀ (s s1 s2 t : State) (pre post : List Instr) (i : Instr),
    (∀ j ∈ pre ++ [i] ++ post, j.isPackOrUnpack = true) → s.pkt.err = 0 →
    execAll pre s = .next s1 → s1.pkt.err = 0 → exec i s1 = .next s2 → s2.pkt.err ≠ 0 →
    execAll post s2 = .next t →
    s2.pkt = { s1.pkt with err := s2.pkt.err } ∧ t.pkt = s2.pkt ∧
    exec .pktSuccess t = .next { t with resp := t.resp ++ [0x00] } ∧
    exec .pktSuccess s1 = .next { s1 with resp := s1.resp ++ [0x01] }

/-! ## Controller data -/

/-- R133, R134: the button accessors. An index above 15 is ignored and reads false. -/
def Obligations.ButtonAccessors : Prop :=
  (∀ i v, Encodes [0x30, i, v] (.cdSetButton i v)) ∧ (∀ i, Encodes [0x31, i] (.cdTestButton i)) ∧
  (∀ (s : State) (i v : Byte), ∃ t, exec (.cdSetButton i v) s = .next t ∧
    t = { s with cd := { s.cd with mask := t.cd.mask } } ∧
    ∀ j, j < 16 → t.cd.mask.getLsbD j = if j = i.toNat then decide (v ≠ 0) else s.cd.mask.getLsbD j) ∧
  (∀ (s : State) (i : Byte), exec (.cdTestButton i) s =
    .next { s with resp := s.resp ++ [if i.toNat ≤ 15 ∧ s.cd.mask.getLsbD i.toNat = true then 0x01 else 0x00] })

/-- R135, R136: the analog accessors. The value is clamped to 15, the other nibbles are kept, a channel above 5 is
ignored and reads 0x00. -/
def Obligations.AnalogAccessors : Prop :=
  (∀ c v, Encodes [0x32, c, v] (.cdSetAnalog c v)) ∧ (∀ c, Encodes [0x33, c] (.cdGetAnalog c)) ∧
  (∀ (s : State) (c v : Byte), ∃ t, exec (.cdSetAnalog c v) s = .next t ∧
    t = { s with cd := { s.cd with analog := t.cd.analog } } ∧
    ∀ k, k < 6 → nibble t.cd.analog k = if k = c.toNat then min v.toNat 15 else nibble s.cd.analog k) ∧
  (∀ (s : State) (c : Byte), exec (.cdGetAnalog c) s =
    .next { s with resp := s.resp ++ [if c.toNat ≤ 5 then BitVec.ofNat 8 (nibble s.cd.analog c.toNat) else 0x00] })

/-- R137: CD_PACK in every case: both steps fit, the mask alone fits, nothing fits, a sticky error. (Canonical store,
log 7.) -/
def Obligations.ControllerPacked : Prop :=
  Encodes [0x34] .cdPack ∧
  ∀ s : State, Memory.wf s.pkt.buf = true →
    (s.pkt.err = 0 → s.pkt.len.toNat ≤ 3 →
      StoresPacketBytes s.pkt.len.toNat (payloadBytes s.cd) (s.pkt.len.toNat + 5) 0 s (exec .cdPack s)) ∧
    (s.pkt.err = 0 → 4 ≤ s.pkt.len.toNat → s.pkt.len.toNat ≤ 6 →
      StoresPacketBytes s.pkt.len.toNat ((payloadBytes s.cd).take 2) (s.pkt.len.toNat + 2) 1 s (exec .cdPack s)) ∧
    (s.pkt.err = 0 → 7 ≤ s.pkt.len.toNat →
      exec .cdPack s = .next { s with pkt := { s.pkt with err := 1 } }) ∧
    (s.pkt.err = 1 ∨ s.pkt.err = 2 → exec .cdPack s = .next s)

/-- R138: CD_UNPACK in every case: both reads succeed, the mask alone is read, nothing is read, a sticky error. -/
def Obligations.ControllerUnpacked : Prop :=
  Encodes [0x35] .cdUnpack ∧
  ∀ (s : State) (c : Nat), c = s.pkt.cur.toNat → s.pkt.len.toNat ≤ 8 →
    (s.pkt.err = 0 → c + 5 ≤ s.pkt.len.toNat → exec .cdUnpack s = .next { s with
      pkt := { s.pkt with cur := BitVec.ofNat 4 (c + 5) }
      cd := { mask := Memory.read s.pkt.buf (c + 1) ++ Memory.read s.pkt.buf c
              analog := ⟨Memory.read s.pkt.buf (c + 2), Memory.read s.pkt.buf (c + 3),
                         Memory.read s.pkt.buf (c + 4)⟩ } }) ∧
    (s.pkt.err = 0 → c + 2 ≤ s.pkt.len.toNat → s.pkt.len.toNat < c + 5 → exec .cdUnpack s = .next { s with
      pkt := { s.pkt with cur := BitVec.ofNat 4 (c + 2), err := 2 }
      cd := { s.cd with mask := Memory.read s.pkt.buf (c + 1) ++ Memory.read s.pkt.buf c } }) ∧
    (s.pkt.err = 0 → s.pkt.len.toNat < c + 2 →
      exec .cdUnpack s = .next { s with pkt := { s.pkt with err := 2 } }) ∧
    (s.pkt.err = 1 ∨ s.pkt.err = 2 → exec .cdUnpack s = .next s)

/-- R66: where each button and each channel stands in the five payload bytes of a fresh packet. (Canonical store,
log 7.) -/
def Obligations.PayloadBitPositions : Prop :=
  ∀ s : State, Memory.wf s.pkt.buf = true → s.pkt.err = 0 → s.pkt.len = 0 →
    ∃ t, exec .cdPack s = .next t ∧ t.pkt.len = 5 ∧
      (∀ i, i < 16 → (Memory.read t.pkt.buf (i / 8)).getLsbD (i % 8) = s.cd.mask.getLsbD i) ∧
      (∀ c k, c < 6 → k < 4 →
        (Memory.read t.pkt.buf (2 + c / 2)).getLsbD (4 * (c % 2) + k) = (nibble s.cd.analog c).testBit k)

/-- R139: PKT_INIT, CD_PACK, CD_UNPACK reproduces the ControllerData value, from every state. (Canonical store, log 7.) -/
def Obligations.ControllerRoundTrip : Prop :=
  ∀ (s : State) (z : Bool), Memory.wf s.pkt.buf = true →
    ∃ t, execAll [.pktInit z, .cdPack, .cdUnpack] s = .next t ∧ t.cd = s.cd ∧
      t.pkt.len = 5 ∧ t.pkt.cur = 5 ∧ t.pkt.err = 0 ∧ packetBytes t 0 5 = payloadBytes s.cd ∧
      t = { s with pkt := t.pkt } ∧ t.pkt.id = s.pkt.id

/-- R168: a decoded payload put into the packet and taken in with CD_UNPACK, by its length: more than 8 bytes do not enter
the packet; fewer than 5 make CD_UNPACK fail, after the mask alone if there were 2; 5 to 8 succeed on the first 5,
whatever they are, and leave the rest unread. (Canonical store, log 7.) -/
def Obligations.PayloadLengthAgainstCapacity : Prop :=
  ∀ (s : State) (p : List Byte), Memory.wf s.pkt.buf = true →
    (p.length > 8 → execAll [.pktInit false, .pktPackBytes p] s =
      .next { s with pkt := { s.pkt with len := 0, cur := 0, err := 1 } }) ∧
    (p.length < 5 → ∃ t, execAll [.pktInit false, .pktPackBytes p, .cdUnpack] s = .next t ∧ t.pkt.err = 2 ∧
      t.cd.analog = s.cd.analog ∧
      (p.length < 2 → t.cd.mask = s.cd.mask) ∧ (2 ≤ p.length → (payloadBytes t.cd).take 2 = p.take 2)) ∧
    (5 ≤ p.length → p.length ≤ 8 → ∃ t, execAll [.pktInit false, .pktPackBytes p, .cdUnpack] s = .next t ∧
      t.pkt.err = 0 ∧ t.pkt.cur = 5 ∧ t.pkt.len.toNat = p.length ∧ payloadBytes t.cd = p.take 5)

/-! ## The whole block -/

/-- 30_encoding.md R78, R64, R66: CD_SEND sends the controller payload in a send-payload frame, from every state, if the
configuration allows five bytes. (How CD_SEND and PKT_SEND run on the block is the model's reading of R78, log 14.) -/
def Obligations.ControllerSent : Prop :=
  ∀ s : State, Memory.wf s.pkt.buf = true → 5 ≤ s.maxPayload.val →
    ∃ t, cdSend s = .next t ∧ t.cd = s.cd ∧ t.ps = s.ps ∧ t.refusals = s.refusals ∧
      sentBytes t.sink = sentBytes s.sink ++
        ([0x40, 0x44, 0x54, 0x30, 0x35] ++ payloadBytes s.cd ++ [0x0D, 0x0A]) ∧
      inboundEvents t.sink = inboundEvents s.sink

/-- 00_scope.md R2, 30_encoding.md R78, 43_controller_data.md R139: the payload one block packs, received by another block
as a data frame and taken in with CD_RECEIVE, gives the second block the first one's ControllerData value. (The host's
part is the model's reading of R78, log 14.) -/
def Obligations.ControllerValueCrossesTheLink : Prop :=
  ∀ s r : State, Memory.wf s.pkt.buf = true → Memory.wf r.pkt.buf = true → Memory.wf r.ps.data = true →
    r.ps.state = 0 → 5 ≤ r.maxPayload.val →
    ∃ t u v p, execAll [.pktInit false, .cdPack] s = .next t ∧ p = packetBytes t 0 5 ∧
      exec (.frFeed ([0x2A, 0x44, 0x52, 0x3D, 0x30, 0x35] ++ p ++ [0x0D, 0x0A])) r = .next u ∧
      u.sink = r.sink ++ [.payload p] ∧ execAll (cdReceive p) u = .next v ∧
      v.cd = s.cd ∧ v.resp = r.resp ++ [0x01] ∧ v.ps.Idle

/-- 10_state.md R26, R32, R39, R41: two blocks that differ only in packet bytes at and above `pkt_len` and in parser
registers without meaning take the same steps for ever: the same events, the same responses, and again alike. -/
def Obligations.UnspecifiedRegistersUnobservable : Prop :=
  ∀ s s' t, s.Inv → s'.Inv → LooksAlike s s' → step s = .next t →
    ∃ t', step s' = .next t' ∧ LooksAlike t t'
end

