-- ==== Sys2Proof/Laws/Decode.lean ====
section
/-! SUPPORT. The laws of the encoding's parts: byte order, and one lemma per format of 30_encoding.md R69. -/

namespace Sys2Proof

@[simp] theorem leBytes_length (w v : Nat) : (leBytes w v).length = w := by
  induction w generalizing v with
  | zero => rfl
  | succ w ih => simp [leBytes, ih]

/-- `fromLE_W(LE_W(v)) = v` for a value of W bytes (00_scope.md R10). -/
theorem fromLE_leBytes (w v : Nat) (h : v < 256 ^ w) : fromLE (leBytes w v) = v := by
  induction w generalizing v with
  | zero => simp only [leBytes, fromLE]; omega
  | succ w ih =>
    have h' : v / 256 < 256 ^ w := by
      rw [Nat.pow_succ] at h
      exact Nat.div_lt_of_lt_mul (by omega)
    simp only [leBytes, fromLE, ih _ h', BitVec.toNat_ofNat]
    omega

theorem fromLE_lt (bs : List Byte) : fromLE bs < 256 ^ bs.length := by
  induction bs with
  | nil => simp [fromLE]
  | cons b bs ih =>
    have hb : b.toNat < 256 := b.isLt
    simp only [fromLE, List.length_cons, Nat.pow_succ]
    omega

/-- `LE_W(fromLE_W(s)) = s` for a string of W bytes (00_scope.md R10). -/
theorem leBytes_fromLE (bs : List Byte) : leBytes bs.length (fromLE bs) = bs := by
  induction bs with
  | nil => rfl
  | cons b bs ih =>
    have hb : b.toNat < 256 := b.isLt
    have h1 : BitVec.ofNat 8 (fromLE (b :: bs)) = b := by
      apply BitVec.eq_of_toNat_eq
      simp only [fromLE, BitVec.toNat_ofNat]
      omega
    have h2 : fromLE (b :: bs) / 256 = fromLE bs := by simp only [fromLE]; omega
    simp only [List.length_cons, leBytes, h1, h2, ih]

/-! ## One lemma per format -/

@[simp] theorem decodeF1_cons (mk : Byte → Instr) (a : Byte) (rest : List Byte) :
    decodeF1 mk (a :: rest) = .op (mk a) rest := rfl

@[simp] theorem decodeF2_cons (mk : Byte → Byte → Instr) (a b : Byte) (rest : List Byte) :
    decodeF2 mk (a :: b :: rest) = .op (mk a b) rest := rfl

@[simp] theorem decodeFP_cons (mk : Byte → Byte → Byte → Instr) (p0 p1 v : Byte) (rest : List Byte) :
    decodeFP mk (p0 :: p1 :: v :: rest) = .op (mk p0 p1 v) rest := rfl

theorem decodeFV_append (w : Nat) (mk : Nat → Instr) (v : Nat) (rest : List Byte) (h : v < 256 ^ w) :
    decodeFV w mk (leBytes w v ++ rest) = .op (mk v) rest := by
  have h1 : ¬ (leBytes w v ++ rest).length < w := by simp
  simp only [decodeFV, h1, if_false]
  rw [List.take_left' (leBytes_length w v), List.drop_left' (leBytes_length w v), fromLE_leBytes w v h]

theorem decodeFN_append (mk : List Byte → Instr) (d rest : List Byte) (h : d.length ≤ Config.maxCount) :
    decodeFN mk (BitVec.ofNat 8 d.length :: (d ++ rest)) = .op (mk d) rest := by
  have hn : (BitVec.ofNat 8 d.length).toNat = d.length := by
    rw [BitVec.toNat_ofNat]; exact Nat.mod_eq_of_lt (Nat.lt_succ_of_le h)
  simp only [decodeFN, hn, List.length_append]
  rw [if_neg (by omega), List.take_left' rfl, List.drop_left' rfl]

/-- What FV_W reads: W bytes, their value, and the rest. -/
theorem decodeFV_op {w : Nat} {mk : Nat → Instr} {bs rest : List Byte} {i : Instr}
    (h : decodeFV w mk bs = .op i rest) :
    ∃ s, s.length = w ∧ bs = s ++ rest ∧ i = mk (fromLE s) := by
  simp only [decodeFV] at h
  split at h
  · cases h
  · rename_i hl
    cases h
    exact ⟨bs.take w, by simp; omega, (List.take_append_drop w bs).symm, rfl⟩

/-- What FN reads: the count, the bytes it counts, and the rest. -/
theorem decodeFN_op {mk : List Byte → Instr} {bs rest : List Byte} {i : Instr}
    (h : decodeFN mk bs = .op i rest) :
    ∃ d, d.length ≤ Config.maxCount ∧ bs = BitVec.ofNat 8 d.length :: (d ++ rest) ∧ i = mk d := by
  cases bs with
  | nil => cases h
  | cons n tail =>
    simp only [decodeFN] at h
    split at h
    · cases h
    · rename_i hl
      cases h
      have hn : n.toNat < 256 := n.isLt
      have hlen : (tail.take n.toNat).length = n.toNat := by simp; omega
      refine ⟨tail.take n.toNat, by rw [hlen]; show _ ≤ 255; omega, ?_, rfl⟩
      rw [hlen, List.take_append_drop]
      simp

/-- A fixed-width field as its bytes, for each of the four widths (20_memory.md R45). -/
theorem leBytes_one (v : BitVec 8) : leBytes 1 v.toNat = [v] := by
  simp [leBytes]

theorem leBytes_two (v : BitVec 16) : leBytes 2 v.toNat =
    [v.extractLsb 7 0, v.extractLsb 15 8] := by
  simp only [leBytes, List.cons.injEq, and_true]
  refine ⟨?_, ?_⟩ <;> apply BitVec.eq_of_toNat_eq <;>
    simp [BitVec.extractLsb, Nat.shiftRight_eq_div_pow]

theorem leBytes_four (v : BitVec 32) : leBytes 4 v.toNat =
    [v.extractLsb 7 0, v.extractLsb 15 8, v.extractLsb 23 16, v.extractLsb 31 24] := by
  simp only [leBytes, List.cons.injEq, and_true]
  refine ⟨?_, ?_, ?_, ?_⟩ <;> apply BitVec.eq_of_toNat_eq <;>
    simp [BitVec.extractLsb, Nat.shiftRight_eq_div_pow, Nat.div_div_eq_div_mul]

theorem leBytes_eight (v : BitVec 64) : leBytes 8 v.toNat =
    [v.extractLsb 7 0, v.extractLsb 15 8, v.extractLsb 23 16, v.extractLsb 31 24,
    v.extractLsb 39 32, v.extractLsb 47 40, v.extractLsb 55 48, v.extractLsb 63 56] := by
  simp only [leBytes, List.cons.injEq, and_true]
  refine ⟨?_, ?_, ?_, ?_, ?_, ?_, ?_, ?_⟩ <;> apply BitVec.eq_of_toNat_eq <;>
    simp [BitVec.extractLsb, Nat.shiftRight_eq_div_pow, Nat.div_div_eq_div_mul]

end Sys2Proof
end

