-- ==== Sys2Proof/Laws/State.lean ====
section
/-! SUPPORT. One lemma per field per update of State, so that no proof unfolds a record update. -/

namespace Sys2Proof.Machine

/-! ## emit -/

@[simp] theorem emit_pkt (e : Event) (s : State) : (emit e s).pkt = s.pkt := rfl
@[simp] theorem emit_cd (e : Event) (s : State) : (emit e s).cd = s.cd := rfl
@[simp] theorem emit_ps (e : Event) (s : State) : (emit e s).ps = s.ps := rfl
@[simp] theorem emit_maxPayload (e : Event) (s : State) : (emit e s).maxPayload = s.maxPayload := rfl
@[simp] theorem emit_idWidth (e : Event) (s : State) : (emit e s).idWidth = s.idWidth := rfl
@[simp] theorem emit_cmdPort (e : Event) (s : State) : (emit e s).cmdPort = s.cmdPort := rfl
@[simp] theorem emit_sink (e : Event) (s : State) : (emit e s).sink = s.sink ++ [e] := rfl
@[simp] theorem emit_resp (e : Event) (s : State) : (emit e s).resp = s.resp := rfl
@[simp] theorem emit_refusals (e : Event) (s : State) : (emit e s).refusals = s.refusals := rfl

/-! ## respond -/

@[simp] theorem respond_pkt (bs : List Byte) (s : State) : (respond bs s).pkt = s.pkt := rfl
@[simp] theorem respond_cd (bs : List Byte) (s : State) : (respond bs s).cd = s.cd := rfl
@[simp] theorem respond_ps (bs : List Byte) (s : State) : (respond bs s).ps = s.ps := rfl
@[simp] theorem respond_maxPayload (bs : List Byte) (s : State) : (respond bs s).maxPayload = s.maxPayload := rfl
@[simp] theorem respond_idWidth (bs : List Byte) (s : State) : (respond bs s).idWidth = s.idWidth := rfl
@[simp] theorem respond_cmdPort (bs : List Byte) (s : State) : (respond bs s).cmdPort = s.cmdPort := rfl
@[simp] theorem respond_sink (bs : List Byte) (s : State) : (respond bs s).sink = s.sink := rfl
@[simp] theorem respond_resp (bs : List Byte) (s : State) : (respond bs s).resp = s.resp ++ bs := rfl
@[simp] theorem respond_refusals (bs : List Byte) (s : State) : (respond bs s).refusals = s.refusals := rfl

/-! ## refuse -/

@[simp] theorem refuse_pkt (r : RefuseReason) (s : State) : (refuse r s).pkt = s.pkt := rfl
@[simp] theorem refuse_cd (r : RefuseReason) (s : State) : (refuse r s).cd = s.cd := rfl
@[simp] theorem refuse_ps (r : RefuseReason) (s : State) : (refuse r s).ps = s.ps := rfl
@[simp] theorem refuse_maxPayload (r : RefuseReason) (s : State) : (refuse r s).maxPayload = s.maxPayload := rfl
@[simp] theorem refuse_idWidth (r : RefuseReason) (s : State) : (refuse r s).idWidth = s.idWidth := rfl
@[simp] theorem refuse_cmdPort (r : RefuseReason) (s : State) : (refuse r s).cmdPort = s.cmdPort := rfl
@[simp] theorem refuse_sink (r : RefuseReason) (s : State) : (refuse r s).sink = s.sink := rfl
@[simp] theorem refuse_resp (r : RefuseReason) (s : State) : (refuse r s).resp = s.resp := rfl
@[simp] theorem refuse_refusals (r : RefuseReason) (s : State) : (refuse r s).refusals = s.refusals ++ [r] := rfl

/-! ## withPort -/

@[simp] theorem withPort_pkt (bs : List Byte) (s : State) : (withPort bs s).pkt = s.pkt := rfl
@[simp] theorem withPort_cd (bs : List Byte) (s : State) : (withPort bs s).cd = s.cd := rfl
@[simp] theorem withPort_ps (bs : List Byte) (s : State) : (withPort bs s).ps = s.ps := rfl
@[simp] theorem withPort_maxPayload (bs : List Byte) (s : State) : (withPort bs s).maxPayload = s.maxPayload := rfl
@[simp] theorem withPort_idWidth (bs : List Byte) (s : State) : (withPort bs s).idWidth = s.idWidth := rfl
@[simp] theorem withPort_cmdPort (bs : List Byte) (s : State) : (withPort bs s).cmdPort = bs := rfl
@[simp] theorem withPort_sink (bs : List Byte) (s : State) : (withPort bs s).sink = s.sink := rfl
@[simp] theorem withPort_resp (bs : List Byte) (s : State) : (withPort bs s).resp = s.resp := rfl
@[simp] theorem withPort_refusals (bs : List Byte) (s : State) : (withPort bs s).refusals = s.refusals := rfl

/-! ## deliver -/

@[simp] theorem deliver_pkt (bs : List Byte) (s : State) : (deliver bs s).pkt = s.pkt := rfl
@[simp] theorem deliver_cd (bs : List Byte) (s : State) : (deliver bs s).cd = s.cd := rfl
@[simp] theorem deliver_ps (bs : List Byte) (s : State) : (deliver bs s).ps = s.ps := rfl
@[simp] theorem deliver_maxPayload (bs : List Byte) (s : State) : (deliver bs s).maxPayload = s.maxPayload := rfl
@[simp] theorem deliver_idWidth (bs : List Byte) (s : State) : (deliver bs s).idWidth = s.idWidth := rfl
@[simp] theorem deliver_cmdPort (bs : List Byte) (s : State) : (deliver bs s).cmdPort = s.cmdPort ++ bs := rfl
@[simp] theorem deliver_sink (bs : List Byte) (s : State) : (deliver bs s).sink = s.sink := rfl
@[simp] theorem deliver_resp (bs : List Byte) (s : State) : (deliver bs s).resp = s.resp := rfl
@[simp] theorem deliver_refusals (bs : List Byte) (s : State) : (deliver bs s).refusals = s.refusals := rfl

/-! ## resetParser -/

@[simp] theorem resetParser_pkt (s : State) : (resetParser s).pkt = s.pkt := rfl
@[simp] theorem resetParser_cd (s : State) : (resetParser s).cd = s.cd := rfl
@[simp] theorem resetParser_maxPayload (s : State) : (resetParser s).maxPayload = s.maxPayload := rfl
@[simp] theorem resetParser_idWidth (s : State) : (resetParser s).idWidth = s.idWidth := rfl
@[simp] theorem resetParser_cmdPort (s : State) : (resetParser s).cmdPort = s.cmdPort := rfl
@[simp] theorem resetParser_sink (s : State) : (resetParser s).sink = s.sink := rfl
@[simp] theorem resetParser_resp (s : State) : (resetParser s).resp = s.resp := rfl
@[simp] theorem resetParser_refusals (s : State) : (resetParser s).refusals = s.refusals := rfl

/-! ## frameError -/

@[simp] theorem frameError_pkt (c : FrameError) (s : State) : (frameError c s).pkt = s.pkt := rfl
@[simp] theorem frameError_cd (c : FrameError) (s : State) : (frameError c s).cd = s.cd := rfl
@[simp] theorem frameError_ps (c : FrameError) (s : State) : (frameError c s).ps = (resetParser s).ps := rfl
@[simp] theorem frameError_maxPayload (c : FrameError) (s : State) : (frameError c s).maxPayload = s.maxPayload := rfl
@[simp] theorem frameError_idWidth (c : FrameError) (s : State) : (frameError c s).idWidth = s.idWidth := rfl
@[simp] theorem frameError_cmdPort (c : FrameError) (s : State) : (frameError c s).cmdPort = s.cmdPort := rfl
@[simp] theorem frameError_sink (c : FrameError) (s : State) : (frameError c s).sink = s.sink ++ [.error c] := rfl
@[simp] theorem frameError_resp (c : FrameError) (s : State) : (frameError c s).resp = s.resp := rfl
@[simp] theorem frameError_refusals (c : FrameError) (s : State) : (frameError c s).refusals = s.refusals := rfl

/-! ## setErr -/

@[simp] theorem setErr_cd (e : CodecErr) (s : State) : (setErr e s).cd = s.cd := rfl
@[simp] theorem setErr_ps (e : CodecErr) (s : State) : (setErr e s).ps = s.ps := rfl
@[simp] theorem setErr_maxPayload (e : CodecErr) (s : State) : (setErr e s).maxPayload = s.maxPayload := rfl
@[simp] theorem setErr_idWidth (e : CodecErr) (s : State) : (setErr e s).idWidth = s.idWidth := rfl
@[simp] theorem setErr_cmdPort (e : CodecErr) (s : State) : (setErr e s).cmdPort = s.cmdPort := rfl
@[simp] theorem setErr_sink (e : CodecErr) (s : State) : (setErr e s).sink = s.sink := rfl
@[simp] theorem setErr_resp (e : CodecErr) (s : State) : (setErr e s).resp = s.resp := rfl
@[simp] theorem setErr_refusals (e : CodecErr) (s : State) : (setErr e s).refusals = s.refusals := rfl

/-! ## initPacket -/

@[simp] theorem initPacket_cd (z : Bool) (s : State) : (initPacket z s).cd = s.cd := rfl
@[simp] theorem initPacket_ps (z : Bool) (s : State) : (initPacket z s).ps = s.ps := rfl
@[simp] theorem initPacket_maxPayload (z : Bool) (s : State) : (initPacket z s).maxPayload = s.maxPayload := rfl
@[simp] theorem initPacket_idWidth (z : Bool) (s : State) : (initPacket z s).idWidth = s.idWidth := rfl
@[simp] theorem initPacket_cmdPort (z : Bool) (s : State) : (initPacket z s).cmdPort = s.cmdPort := rfl
@[simp] theorem initPacket_sink (z : Bool) (s : State) : (initPacket z s).sink = s.sink := rfl
@[simp] theorem initPacket_resp (z : Bool) (s : State) : (initPacket z s).resp = s.resp := rfl
@[simp] theorem initPacket_refusals (z : Bool) (s : State) : (initPacket z s).refusals = s.refusals := rfl

/-! ## The parser registers after ResetParser (40_framer_parser.md R81) -/

@[simp] theorem resetParser_ps_state (s : State) : (resetParser s).ps.state = 0 := rfl
@[simp] theorem resetParser_ps_cmd (s : State) : (resetParser s).ps.cmd = s.ps.cmd := rfl
@[simp] theorem resetParser_ps_cmdCnt (s : State) : (resetParser s).ps.cmdCnt = 0 := rfl
@[simp] theorem resetParser_ps_lenHi (s : State) : (resetParser s).ps.lenHi = s.ps.lenHi := rfl
@[simp] theorem resetParser_ps_lenCnt (s : State) : (resetParser s).ps.lenCnt = 0 := rfl
@[simp] theorem resetParser_ps_declLen (s : State) : (resetParser s).ps.declLen = s.ps.declLen := rfl
@[simp] theorem resetParser_ps_data (s : State) : (resetParser s).ps.data = s.ps.data := rfl
@[simp] theorem resetParser_ps_dataCnt (s : State) : (resetParser s).ps.dataCnt = 0 := rfl
@[simp] theorem resetParser_ps_tailCnt (s : State) : (resetParser s).ps.tailCnt = 0 := rfl
@[simp] theorem resetParser_ps_tailOk (s : State) : (resetParser s).ps.tailOk = s.ps.tailOk := rfl

/-! ## The packet registers after a codec error and after PKT_INIT (60_exceptions.md R149, 42_packet_codec.md R114) -/

@[simp] theorem setErr_pkt_buf (e : CodecErr) (s : State) : (setErr e s).pkt.buf = s.pkt.buf := rfl
@[simp] theorem setErr_pkt_len (e : CodecErr) (s : State) : (setErr e s).pkt.len = s.pkt.len := rfl
@[simp] theorem setErr_pkt_cur (e : CodecErr) (s : State) : (setErr e s).pkt.cur = s.pkt.cur := rfl
@[simp] theorem setErr_pkt_err (e : CodecErr) (s : State) : (setErr e s).pkt.err = e.bits := rfl
@[simp] theorem setErr_pkt_id (e : CodecErr) (s : State) : (setErr e s).pkt.id = s.pkt.id := rfl
@[simp] theorem initPacket_pkt_len (z : Bool) (s : State) : (initPacket z s).pkt.len = 0 := rfl
@[simp] theorem initPacket_pkt_cur (z : Bool) (s : State) : (initPacket z s).pkt.cur = 0 := rfl
@[simp] theorem initPacket_pkt_err (z : Bool) (s : State) : (initPacket z s).pkt.err = 0 := rfl
@[simp] theorem initPacket_pkt_id (z : Bool) (s : State) : (initPacket z s).pkt.id = s.pkt.id := rfl
@[simp] theorem initPacket_pkt_buf (z : Bool) (s : State) : (initPacket z s).pkt.buf =
    if z then Memory.writeRun s.pkt.buf 0 (List.replicate Config.capacity 0x00) else s.pkt.buf := rfl

/-! ## Small consequences -/

@[simp] theorem resetParser_idle (s : State) : (resetParser s).ps.Idle := ⟨rfl, rfl, rfl, rfl, rfl⟩

/-- Outside the two ports and the mark a response and an event change nothing: they commute. -/
theorem emit_respond (e : Event) (bs : List Byte) (s : State) : emit e (respond bs s) = respond bs (emit e s) := rfl

/-- The mark is set by a refusal (10_state.md R38). -/
@[simp] theorem refuse_refused (r : RefuseReason) (s : State) : (refuse r s).refused = true := by simp [State.refused]

end Sys2Proof.Machine
end

