-- ==== Sys2Proof/Laws/Memory.lean ====
section
/-! SUPPORT. The laws of the byte stores: read after write, and that every operation keeps the canonical form and the
bound (log 7). -/

namespace Sys2Proof.Machine

/-! ## One byte -/

theorem Memory.wfFrom_mono {lo lo' : Nat} {m : Memory} (h : lo' ≤ lo) (hw : Memory.wfFrom lo m = true) :
    Memory.wfFrom lo' m = true := by
  cases m with
  | nil => rfl
  | cons c rest =>
    simp only [Memory.wfFrom, Bool.and_eq_true, decide_eq_true_eq] at hw ⊢
    exact ⟨⟨le_trans h hw.1.1, hw.1.2⟩, hw.2⟩

/-- Below its first position a canonical store reads as unlisted. -/
theorem Memory.read_below {lo a : Nat} {m : Memory} (hw : Memory.wfFrom lo m = true) (h : a < lo) :
    Memory.read m a = Memory.unlisted := by
  induction m generalizing lo with
  | nil => rfl
  | cons c rest ih =>
    obtain ⟨k, v⟩ := c
    simp only [Memory.wfFrom, Bool.and_eq_true, decide_eq_true_eq] at hw
    have hk : k ≠ a := by omega
    simp only [Memory.read, hk, if_false]
    exact ih hw.2 (by omega)

theorem Memory.read_write_self {lo : Nat} {m : Memory} (hw : Memory.wfFrom lo m = true) (a : Nat) (b : Byte) :
    Memory.read (Memory.write m a b) a = b := by
  induction m generalizing lo with
  | nil => by_cases hb : b = Memory.unlisted <;> simp [Memory.write, Memory.read, hb]
  | cons c rest ih =>
    obtain ⟨k, v⟩ := c
    have hw' := hw
    simp only [Memory.wfFrom, Bool.and_eq_true, decide_eq_true_eq] at hw
    by_cases h1 : a < k
    · by_cases hb : b = Memory.unlisted
      · have hf : Memory.wfFrom k ((k, v) :: rest) = true := by
          simp only [Memory.wfFrom, Bool.and_eq_true, decide_eq_true_eq]; exact ⟨⟨le_refl k, hw.1.2⟩, hw.2⟩
        simp only [Memory.write, h1, if_true, hb]
        exact Memory.read_below hf h1
      · simp [Memory.write, h1, hb, Memory.read]
    · by_cases h2 : a = k
      · subst h2
        by_cases hb : b = Memory.unlisted
        · simp only [Memory.write, lt_irrefl, if_false, if_true, hb]
          exact Memory.read_below hw.2 (Nat.lt_succ_self a)
        · simp [Memory.write, hb, Memory.read]
      · have hk : k ≠ a := fun h => h2 h.symm
        simp only [Memory.write, h1, h2, if_false, Memory.read, hk]
        exact ih hw.2

theorem Memory.read_write_of_ne (m : Memory) {a a' : Nat} (b : Byte) (h : a' ≠ a) :
    Memory.read (Memory.write m a b) a' = Memory.read m a' := by
  induction m with
  | nil => by_cases hb : b = Memory.unlisted <;> simp [Memory.write, Memory.read, hb, h.symm]
  | cons c rest ih =>
    obtain ⟨k, v⟩ := c
    simp only [Memory.write]
    split
    · split
      · rfl
      · simp [Memory.read, h.symm]
    · split
      · rename_i h2; subst h2
        split <;> simp [Memory.read, h.symm]
      · simp only [Memory.read, ih]

theorem Memory.write_wfFrom {lo : Nat} {m : Memory} {a : Nat} (hw : Memory.wfFrom lo m = true) (ha : lo ≤ a) (b : Byte) :
    Memory.wfFrom lo (Memory.write m a b) = true := by
  induction m generalizing lo with
  | nil => by_cases hb : b = Memory.unlisted <;> simp [Memory.write, Memory.wfFrom, hb, ha]
  | cons c rest ih =>
    obtain ⟨k, v⟩ := c
    have hw' := hw
    simp only [Memory.wfFrom, Bool.and_eq_true, decide_eq_true_eq] at hw
    simp only [Memory.write]
    split
    · split
      · exact hw'
      · rename_i h1 hb
        simp only [Memory.wfFrom, Bool.and_eq_true, decide_eq_true_eq]
        exact ⟨⟨ha, hb⟩, ⟨by omega, hw.1.2⟩, hw.2⟩
    · split
      · rename_i h1 h2; subst h2
        split
        · exact Memory.wfFrom_mono (by omega) hw.2
        · rename_i hb
          simp only [Memory.wfFrom, Bool.and_eq_true, decide_eq_true_eq]
          exact ⟨⟨ha, hb⟩, hw.2⟩
      · rename_i h1 h2
        simp only [Memory.wfFrom, Bool.and_eq_true, decide_eq_true_eq]
        exact ⟨⟨hw.1.1, hw.1.2⟩, ih hw.2 (by omega)⟩

/-- A write keeps the canonical form. -/
theorem Memory.write_wf {m : Memory} (hw : Memory.wf m = true) (a : Nat) (b : Byte) :
    Memory.wf (Memory.write m a b) = true := Memory.write_wfFrom hw (Nat.zero_le a) b

/-- A write below the bound keeps the bound. -/
theorem Memory.write_within {bound : Nat} {m : Memory} (hm : Memory.within bound m = true) {a : Nat} (ha : a < bound)
    (b : Byte) : Memory.within bound (Memory.write m a b) = true := by
  induction m with
  | nil => by_cases hb : b = Memory.unlisted <;> simp [Memory.write, Memory.within, hb, ha]
  | cons c rest ih =>
    obtain ⟨k, v⟩ := c
    simp only [Memory.within, Bool.and_eq_true, decide_eq_true_eq] at hm
    simp only [Memory.write]
    split
    · split <;> simp [Memory.within, hm, ha]
    · split
      · split <;> simp [Memory.within, hm, ha]
      · simp [Memory.within, hm, ih hm.2]

/-! ## Runs of bytes -/

@[simp] theorem Memory.readRun_length (m : Memory) (a n : Nat) : (Memory.readRun m a n).length = n := by
  induction n generalizing a with
  | zero => rfl
  | succ n ih => simp [Memory.readRun, ih]

theorem Memory.readRun_getElem? (m : Memory) (a n k : Nat) (h : k < n) :
    (Memory.readRun m a n)[k]? = some (Memory.read m (a + k)) := by
  induction n generalizing a k with
  | zero => omega
  | succ n ih =>
    cases k with
    | zero => rfl
    | succ k =>
      simp only [Memory.readRun, List.getElem?_cons_succ]
      rw [ih (a + 1) k (by omega)]
      congr 2; omega

/-- Two stores that agree on a run give the same run. -/
theorem Memory.readRun_congr {m m' : Memory} {a n : Nat}
    (h : ∀ p, a ≤ p → p < a + n → Memory.read m p = Memory.read m' p) :
    Memory.readRun m a n = Memory.readRun m' a n := by
  induction n generalizing a with
  | zero => rfl
  | succ n ih =>
    simp only [Memory.readRun]
    rw [h a (le_refl a) (by omega), ih (fun p h1 h2 => h p (by omega) (by omega))]

/-- A run split in two. -/
theorem Memory.readRun_add (m : Memory) (a n k : Nat) :
    Memory.readRun m a (n + k) = Memory.readRun m a n ++ Memory.readRun m (a + n) k := by
  induction n generalizing a with
  | zero => simp [Memory.readRun]
  | succ n ih =>
    rw [Nat.succ_add]
    simp only [Memory.readRun, List.cons_append, List.cons.injEq, true_and]
    rw [ih (a + 1)]
    congr 2; omega

theorem Memory.writeRun_wf {m : Memory} (hw : Memory.wf m = true) (a : Nat) (bs : List Byte) :
    Memory.wf (Memory.writeRun m a bs) = true := by
  induction bs generalizing m a with
  | nil => exact hw
  | cons b bs ih => exact ih (Memory.write_wf hw a b) (a + 1)

theorem Memory.writeRun_within {bound : Nat} {m : Memory} (hm : Memory.within bound m = true) (a : Nat) (bs : List Byte)
    (h : a + bs.length ≤ bound) : Memory.within bound (Memory.writeRun m a bs) = true := by
  induction bs generalizing m a with
  | nil => exact hm
  | cons b bs ih =>
    simp only [List.length_cons] at h
    exact ih (Memory.write_within hm (by omega) b) (a + 1) (by omega)

/-- A run written leaves every byte outside it alone. -/
theorem Memory.read_writeRun_outside (m : Memory) (a : Nat) (bs : List Byte) {p : Nat}
    (h : p < a ∨ a + bs.length ≤ p) : Memory.read (Memory.writeRun m a bs) p = Memory.read m p := by
  induction bs generalizing m a with
  | nil => rfl
  | cons b bs ih =>
    simp only [List.length_cons] at h
    rw [Memory.writeRun, ih (Memory.write m a b) (a + 1) (by omega), Memory.read_write_of_ne m b (by omega)]

/-- A run written reads back byte for byte. -/
theorem Memory.read_writeRun_inside {m : Memory} (hw : Memory.wf m = true) (a : Nat) (bs : List Byte) {k : Nat}
    (h : k < bs.length) : Memory.read (Memory.writeRun m a bs) (a + k) = bs[k] := by
  induction bs generalizing m a k with
  | nil => simp at h
  | cons b bs ih =>
    cases k with
    | zero =>
      rw [Memory.writeRun, Memory.read_writeRun_outside _ (a + 1) bs (by omega)]
      exact Memory.read_write_self hw a b
    | succ k =>
      have hk : k < bs.length := by simpa using h
      rw [Memory.writeRun, show a + (k + 1) = a + 1 + k by omega, ih (Memory.write_wf hw a b) (a + 1) hk]
      rfl

theorem Memory.readRun_writeRun_self {m : Memory} (hw : Memory.wf m = true) (a : Nat) (bs : List Byte) :
    Memory.readRun (Memory.writeRun m a bs) a bs.length = bs := by
  apply List.ext_getElem?
  intro k
  by_cases h : k < bs.length
  · rw [Memory.readRun_getElem? _ _ _ _ h, Memory.read_writeRun_inside hw a bs h, List.getElem?_eq_getElem h]
  · rw [List.getElem?_eq_none (by simpa using h), List.getElem?_eq_none (by simpa using h)]

/-- A run as a list of positions read one by one. -/
theorem Memory.readRun_eq_map (m : Memory) (a n : Nat) :
    Memory.readRun m a n = (List.range n).map fun k => Memory.read m (a + k) := by
  apply List.ext_getElem?
  intro k
  by_cases h : k < n
  · rw [Memory.readRun_getElem? _ _ _ _ h]; simp [h]
  · simp [h]

/-- A run written in two parts. -/
theorem Memory.writeRun_append (m : Memory) (a : Nat) (x y : List Byte) :
    Memory.writeRun m a (x ++ y) = Memory.writeRun (Memory.writeRun m a x) (a + x.length) y := by
  induction x generalizing m a with
  | nil => rfl
  | cons b x ih => 
    simp only [List.cons_append, Memory.writeRun, ih, List.length_cons]
    congr 1; omega

/-- What a read of a store of a given size can do. -/
theorem readStore_eq (bound : Nat) (m : Memory) (a n : Nat) :
    readStore bound m a n = if a + n ≤ bound then .ok (Memory.readRun m a n) else .error .noSuchByte := rfl

theorem readStore_of_le {bound a n : Nat} (m : Memory) (h : a + n ≤ bound) :
    readStore bound m a n = .ok (Memory.readRun m a n) := if_pos h

end Sys2Proof.Machine
end

