-- ==== Sys2Proof/Laws/Ops.lean ====
section
/-! SUPPORT. One spec lemma per shared operation: everything it can do, cited instead of unfolding it. -/

namespace Sys2Proof.Machine

/-! ## The status register (10_state.md R24) -/

theorem codecErr?_bits (e : CodecErr) : codecErr? e.bits = some e := by cases e <;> rfl

theorem codecErr?_eq_some {b : BitVec 2} {e : CodecErr} : codecErr? b = some e ↔ b = e.bits := by
  constructor
  · revert b; cases e <;> decide
  · rintro rfl; exact codecErr?_bits e

theorem readErr_eq {s : State} {e : CodecErr} (h : s.pkt.err = e.bits) : readErr s = .ok e := by
  simp only [readErr, h, codecErr?_bits]

/-- The error state of a packet that does not hold encoding 3. -/
theorem exists_err {s : State} (h : s.pkt.err ≠ 3) : ∃ e : CodecErr, s.pkt.err = e.bits := by
  generalize s.pkt.err = b at h
  have : ∀ b : BitVec 2, b ≠ 3 → b = 0 ∨ b = 1 ∨ b = 2 := by decide
  rcases this b h with rfl | rfl | rfl
  · exact ⟨.ok, rfl⟩
  · exact ⟨.bufferOverflow, rfl⟩
  · exact ⟨.invalidLength, rfl⟩

theorem bits_ok_iff (e : CodecErr) : e.bits = 0 ↔ e = .ok := by cases e <;> decide

/-! ## Pack (42_packet_codec.md R110, R111) -/

/-- PackCore overflows: only `pkt_err` changes. -/
theorem packCore_overflow {bs : List Byte} {s : State} (h : s.pkt.len.toNat + bs.length > Config.capacity) :
    packCore bs s = setErr .bufferOverflow s := if_pos h

/-- PackCore fits: the bytes are appended. -/
theorem packCore_fits {bs : List Byte} {s : State} (h : s.pkt.len.toNat + bs.length ≤ Config.capacity) :
    packCore bs s = { s with pkt := { s.pkt with buf := Memory.writeRun s.pkt.buf s.pkt.len.toNat bs,
                                                 len := BitVec.ofNat 4 (s.pkt.len.toNat + bs.length) } } :=
  if_neg (by omega)

/-- A pack step from an error-free packet. -/
theorem guardedPack_of_ok {s : State} (bs : List Byte) (h : s.pkt.err = 0) :
    guardedPack bs s = .ok (packCore bs s) := by
  simp only [guardedPack, readErr_eq (e := .ok) h]

/-- A pack step under a sticky error does nothing. -/
theorem guardedPack_of_sticky {s : State} (bs : List Byte) {e : CodecErr} (he : e ≠ .ok) (h : s.pkt.err = e.bits) :
    guardedPack bs s = .ok s := by
  simp only [guardedPack, readErr_eq h]
  cases e with
  | ok => exact absurd rfl he
  | bufferOverflow => rfl
  | invalidLength => rfl

/-- Everything a pack step can do. -/
theorem guardedPack_cases {bs : List Byte} {s t : State} (h : guardedPack bs s = .ok t) :
    (s.pkt.err = 0 ∧ s.pkt.len.toNat + bs.length ≤ Config.capacity ∧
      t = { s with pkt := { s.pkt with buf := Memory.writeRun s.pkt.buf s.pkt.len.toNat bs,
                                       len := BitVec.ofNat 4 (s.pkt.len.toNat + bs.length) } }) ∨
    (s.pkt.err = 0 ∧ s.pkt.len.toNat + bs.length > Config.capacity ∧ t = setErr .bufferOverflow s) ∨
    ((s.pkt.err = 1 ∨ s.pkt.err = 2) ∧ t = s) := by
  by_cases h3 : s.pkt.err = 3
  · have hn : codecErr? s.pkt.err = none := by rw [h3]; rfl
    simp [guardedPack, readErr, hn] at h
  · obtain ⟨e, he⟩ := exists_err h3
    cases e with
    | ok =>
      rw [guardedPack_of_ok bs he] at h
      cases h
      by_cases hf : s.pkt.len.toNat + bs.length ≤ Config.capacity
      · exact .inl ⟨he, hf, packCore_fits hf⟩
      · exact .inr (.inl ⟨he, by omega, packCore_overflow (by omega)⟩)
    | bufferOverflow =>
      rw [guardedPack_of_sticky bs (by decide) he] at h
      cases h; exact .inr (.inr ⟨.inl he, rfl⟩)
    | invalidLength =>
      rw [guardedPack_of_sticky bs (by decide) he] at h
      cases h; exact .inr (.inr ⟨.inr he, rfl⟩)

/-! ## Unpack (42_packet_codec.md R110, R112, R113) -/

/-- An unpack step that fits. -/
theorem guardedUnpack_fits {m : Nat} {s : State} (h0 : s.pkt.err = 0) (hm : s.pkt.cur.toNat + m ≤ s.pkt.len.toNat)
    (hl : s.pkt.len.toNat ≤ Config.capacity) :
    guardedUnpack m s = .ok (some (Memory.readRun s.pkt.buf s.pkt.cur.toNat m),
      { s with pkt := { s.pkt with cur := BitVec.ofNat 4 (s.pkt.cur.toNat + m) } }) := by
  simp only [guardedUnpack, readErr_eq (e := .ok) h0, unpackCore]
  rw [if_neg (by omega), readStore_of_le _ (by omega)]

/-- An unpack step that would pass the packed length. -/
theorem guardedUnpack_short {m : Nat} {s : State} (h0 : s.pkt.err = 0) (hm : s.pkt.cur.toNat + m > s.pkt.len.toNat) :
    guardedUnpack m s = .ok (none, setErr .invalidLength s) := by
  simp only [guardedUnpack, readErr_eq (e := .ok) h0, unpackCore]
  rw [if_pos hm]

/-- An unpack step under a sticky error does nothing. -/
theorem guardedUnpack_of_sticky {s : State} (m : Nat) {e : CodecErr} (he : e ≠ .ok) (h : s.pkt.err = e.bits) :
    guardedUnpack m s = .ok (none, s) := by
  simp only [guardedUnpack, readErr_eq h]
  cases e with
  | ok => exact absurd rfl he
  | bufferOverflow => rfl
  | invalidLength => rfl

/-- Everything an unpack step can do. -/
theorem guardedUnpack_cases {m : Nat} {s t : State} {r : Option (List Byte)} (h : guardedUnpack m s = .ok (r, t)) :
    (s.pkt.err = 0 ∧ s.pkt.cur.toNat + m ≤ s.pkt.len.toNat ∧ s.pkt.cur.toNat + m ≤ Config.capacity ∧
      r = some (Memory.readRun s.pkt.buf s.pkt.cur.toNat m) ∧
      t = { s with pkt := { s.pkt with cur := BitVec.ofNat 4 (s.pkt.cur.toNat + m) } }) ∨
    (s.pkt.err = 0 ∧ s.pkt.cur.toNat + m > s.pkt.len.toNat ∧ r = none ∧ t = setErr .invalidLength s) ∨
    ((s.pkt.err = 1 ∨ s.pkt.err = 2) ∧ r = none ∧ t = s) := by
  by_cases h3 : s.pkt.err = 3
  · have hn : codecErr? s.pkt.err = none := by rw [h3]; rfl
    simp [guardedUnpack, readErr, hn] at h
  · obtain ⟨e, he⟩ := exists_err h3
    cases e with
    | ok =>
      by_cases hm : s.pkt.cur.toNat + m > s.pkt.len.toNat
      · rw [guardedUnpack_short he hm] at h
        cases h; exact .inr (.inl ⟨he, hm, rfl, rfl⟩)
      · simp only [guardedUnpack, readErr_eq (e := .ok) he, unpackCore] at h
        rw [if_neg hm] at h
        by_cases hc : s.pkt.cur.toNat + m ≤ Config.capacity
        · rw [readStore_of_le _ hc] at h
          cases h; exact .inl ⟨he, by omega, hc, rfl, rfl⟩
        · rw [readStore, if_neg hc] at h
          cases h
    | bufferOverflow =>
      rw [guardedUnpack_of_sticky m (by decide) he] at h
      cases h; exact .inr (.inr ⟨.inl he, rfl, rfl⟩)
    | invalidLength =>
      rw [guardedUnpack_of_sticky m (by decide) he] at h
      cases h; exact .inr (.inr ⟨.inr he, rfl, rfl⟩)

/-- The response of an unpack has a fixed length (30_encoding.md R72). -/
theorem unpackResponse_length (m : Nat) (r : Option (List Byte)) (h : ∀ bs, r = some bs → bs.length = m) :
    (unpackResponse m r).length = 1 + m := by
  cases r with
  | none => simp [unpackResponse]; omega
  | some bs => simp [unpackResponse, h bs rfl]; omega

/-! ## The parser (40_framer_parser.md R80) -/

theorem parserState?_bits (p : ParserState) : parserState? p.bits = some p := by cases p <;> rfl

theorem parserState?_eq_some {b : BitVec 3} {p : ParserState} : parserState? b = some p ↔ b = p.bits := by
  constructor
  · revert b; cases p <;> decide
  · rintro rfl; exact parserState?_bits p

/-- A legal parser state has a name (10_state.md R31). -/
theorem exists_parserState {b : BitVec 3} (h : b.toNat ≤ 5) : ∃ p : ParserState, b = p.bits := by
  have : ∀ b : BitVec 3, b.toNat ≤ 5 → (parserState? b).isSome = true := by decide
  obtain ⟨p, hp⟩ := Option.isSome_iff_exists.mp (this b h)
  exact ⟨p, parserState?_eq_some.mp hp⟩

/-- `hexVal` of each run of digits counts up from the value of its first (00_scope.md R13). -/
theorem hexVal?_run {r : DigitRun} (hr : r ∈ digitRuns) {k : Nat} (hk : k < r.count) :
    hexVal? (r.first + BitVec.ofNat 8 k) = some (r.value + BitVec.ofNat 4 k) := by
  revert k
  fin_cases hr <;> decide

/-- A byte outside every run of digits has no `hexVal` (00_scope.md R13). -/
theorem hexVal?_eq_none {b : Byte} : hexVal? b = none ↔ ∀ r ∈ digitRuns, r.count ≤ r.offset b := by
  simp [hexVal?, digitRuns]

/-- A hexadecimal digit renders and reads back (00_scope.md R13). -/
theorem hexVal?_hexUp (d : BitVec 4) : hexVal? (hexUp d) = some d := by revert d; decide

/-- FR_FEED is a left fold: a byte string may be split anywhere (R79, R99). -/
theorem feed_append (a b : List Byte) (s : State) :
    feed (a ++ b) s = match feed a s with
      | .error f => .error f
      | .ok t => feed b t := by
  induction a generalizing s with
  | nil => rfl
  | cons x xs ih =>
    simp only [List.cons_append, feed]
    cases stepByte x s with
    | error f => rfl
    | ok t => exact ih t

/-- A byte step writes parser registers and at most appends events: everything else is unchanged (R39, R104). -/
structure ParserFrame (s t : State) : Prop where
  pkt : t.pkt = s.pkt
  cd : t.cd = s.cd
  maxPayload : t.maxPayload = s.maxPayload
  idWidth : t.idWidth = s.idWidth
  cmdPort : t.cmdPort = s.cmdPort
  resp : t.resp = s.resp
  refusals : t.refusals = s.refusals

theorem ParserFrame.rfl' (s : State) : ParserFrame s s := ⟨rfl, rfl, rfl, rfl, rfl, rfl, rfl⟩

theorem ParserFrame.trans {s t u : State} (h : ParserFrame s t) (k : ParserFrame t u) : ParserFrame s u :=
  ⟨k.pkt.trans h.pkt, k.cd.trans h.cd, k.maxPayload.trans h.maxPayload, k.idWidth.trans h.idWidth,
   k.cmdPort.trans h.cmdPort, k.resp.trans h.resp, k.refusals.trans h.refusals⟩

/-- Everything a byte step can do to the events: none, or one that is not a send, after which the parser is idle
(R100, R102). -/
def StepEvents (s t : State) : Prop :=
  t.sink = s.sink ∨
  ((∃ bs, t.sink = s.sink ++ [.payload bs]) ∨ (∃ c, t.sink = s.sink ++ [.error c])) ∧ t.ps.Idle

theorem stepWaitHead_spec (b : Byte) (s : State) :
    ParserFrame s (stepWaitHead b s) ∧ StepEvents s (stepWaitHead b s) := by
  unfold stepWaitHead
  split <;> exact ⟨⟨rfl, rfl, rfl, rfl, rfl, rfl, rfl⟩, .inl rfl⟩

theorem frameError_spec (c : FrameError) (s : State) :
    ParserFrame s (frameError c s) ∧ StepEvents s (frameError c s) :=
  ⟨⟨rfl, rfl, rfl, rfl, rfl, rfl, rfl⟩, .inr ⟨.inr ⟨c, rfl⟩, resetParser_idle _⟩⟩

theorem stepCommand_spec {b : Byte} {s t : State} (h : stepCommand b s = .ok t) :
    ParserFrame s t ∧ StepEvents s t := by
  simp only [stepCommand] at h
  split at h
  · cases h; exact ⟨⟨rfl, rfl, rfl, rfl, rfl, rfl, rfl⟩, .inl rfl⟩
  · split at h
    · cases h; exact ⟨⟨rfl, rfl, rfl, rfl, rfl, rfl, rfl⟩, .inl rfl⟩
    · split at h
      · cases h; exact frameError_spec _ s
      · split at h
        · cases h; exact ⟨⟨rfl, rfl, rfl, rfl, rfl, rfl, rfl⟩, .inl rfl⟩
        · cases h

theorem stepLength_spec (b : Byte) (s : State) : ParserFrame s (stepLength b s) ∧ StepEvents s (stepLength b s) := by
  unfold stepLength
  split
  · exact frameError_spec _ s
  · split
    · exact ⟨⟨rfl, rfl, rfl, rfl, rfl, rfl, rfl⟩, .inl rfl⟩
    · dsimp only
      split
      · exact frameError_spec _ s
      · split <;> exact ⟨⟨rfl, rfl, rfl, rfl, rfl, rfl, rfl⟩, .inl rfl⟩

theorem stepData_spec {b : Byte} {s t : State} (h : stepData b s = .ok t) : ParserFrame s t ∧ StepEvents s t := by
  simp only [stepData] at h
  split at h
  · cases h
    split <;> exact ⟨⟨rfl, rfl, rfl, rfl, rfl, rfl, rfl⟩, .inl rfl⟩
  · cases h

theorem stepTail_spec {hasData : Bool} {b : Byte} {s t : State} (h : stepTail hasData b s = .ok t) :
    ParserFrame s t ∧ StepEvents s t := by
  simp only [stepTail] at h
  split at h
  · cases h; exact ⟨⟨rfl, rfl, rfl, rfl, rfl, rfl, rfl⟩, .inl rfl⟩
  · split at h
    · split at h
      · split at h
        · cases h
        · rename_i bs _
          cases h
          exact ⟨⟨rfl, rfl, rfl, rfl, rfl, rfl, rfl⟩, .inr ⟨.inl ⟨bs, rfl⟩, resetParser_idle _⟩⟩
      · cases h; exact frameError_spec _ s
    · cases h; exact frameError_spec _ s

/-- Everything a byte step leaves alone, and what it does to the events. -/
theorem stepByte_spec {b : Byte} {s t : State} (h : stepByte b s = .ok t) : ParserFrame s t ∧ StepEvents s t := by
  simp only [stepByte] at h
  split at h
  · cases h; exact stepWaitHead_spec _ _
  · exact stepCommand_spec h
  · cases h; exact stepLength_spec _ _
  · exact stepData_spec h
  · exact stepTail_spec h
  · exact stepTail_spec h
  · cases h

theorem feed_frame {d : List Byte} {s t : State} (h : feed d s = .ok t) : ParserFrame s t := by
  induction d generalizing s with
  | nil => cases h; exact ParserFrame.rfl' _
  | cons b bs ih =>
    simp only [feed] at h
    split at h
    · cases h
    · rename_i u hu
      exact (stepByte_spec hu).1.trans (ih h)

end Sys2Proof.Machine
end

