-- ==== Sys2Proof/Laws/Exec.lean ====
section
/-! SUPPORT. What one operation can do, said once: `exec_cases`, with a frame lemma for each shared operation. Every
whole-machine statement cites these instead of unfolding exec. -/

namespace Sys2Proof.Machine

theorem ofExcept_next {x : Except Fault State} {t : State} (h : ofExcept x = .next t) : x = .ok t := by
  cases x with
  | ok s => cases h; rfl
  | error f => cases h

/-! ## The codec's frame -/

/-- What a codec step leaves alone: every other unit, and the id; under a set error the whole packet; and it keeps the
packet's invariant (60_exceptions.md R148, 10_state.md R25). -/
structure CodecFrame (s t : State) : Prop where
  cd : t.cd = s.cd
  ps : t.ps = s.ps
  maxPayload : t.maxPayload = s.maxPayload
  idWidth : t.idWidth = s.idWidth
  cmdPort : t.cmdPort = s.cmdPort
  sink : t.sink = s.sink
  refusals : t.refusals = s.refusals
  id : t.pkt.id = s.pkt.id
  sticky : s.pkt.err ≠ 0 → t.pkt = s.pkt
  inv : s.pkt.Inv → t.pkt.Inv

theorem guardedPack_frame {bs : List Byte} {s t : State} (h : guardedPack bs s = .ok t) :
    CodecFrame s t ∧ t.resp = s.resp := by
  rcases guardedPack_cases h with ⟨h0, hl, rfl⟩ | ⟨h0, hl, rfl⟩ | ⟨h0, rfl⟩
  · refine ⟨⟨rfl, rfl, rfl, rfl, rfl, rfl, rfl, rfl, fun h => absurd h0 h, ?_⟩, rfl⟩
    rintro ⟨a, b, c, d, e⟩
    have hn : (BitVec.ofNat 4 (s.pkt.len.toNat + bs.length)).toNat = s.pkt.len.toNat + bs.length := by
      rw [BitVec.toNat_ofNat]; exact Nat.mod_eq_of_lt (lt_of_le_of_lt hl (by decide))
    refine ⟨?_, ?_, c, Memory.writeRun_wf d _ _, Memory.writeRun_within e _ _ hl⟩
    · rw [hn]; show s.pkt.cur.toNat ≤ _; omega
    · rw [hn]; exact hl
  · refine ⟨⟨rfl, rfl, rfl, rfl, rfl, rfl, rfl, rfl, fun h => absurd h0 h, ?_⟩, rfl⟩
    rintro ⟨a, b, c, d, e⟩
    exact ⟨a, b, by simp [CodecErr.bits], d, e⟩
  · exact ⟨⟨rfl, rfl, rfl, rfl, rfl, rfl, rfl, rfl, fun _ => rfl, id⟩, rfl⟩

theorem guardedUnpack_frame {m : Nat} {s t : State} {r : Option (List Byte)} (h : guardedUnpack m s = .ok (r, t)) :
    CodecFrame s t ∧ t.resp = s.resp ∧ ∀ bs, r = some bs → bs.length = m := by
  rcases guardedUnpack_cases h with ⟨h0, hl, hc, rfl, rfl⟩ | ⟨h0, hl, rfl, rfl⟩ | ⟨h0, rfl, rfl⟩
  · refine ⟨⟨rfl, rfl, rfl, rfl, rfl, rfl, rfl, rfl, fun h => absurd h0 h, ?_⟩, rfl, ?_⟩
    · rintro ⟨a, b, c, d, e⟩
      have hn : (BitVec.ofNat 4 (s.pkt.cur.toNat + m)).toNat = s.pkt.cur.toNat + m := by
        rw [BitVec.toNat_ofNat]; exact Nat.mod_eq_of_lt (lt_of_le_of_lt hc (by decide))
      exact ⟨by rw [hn]; exact hl, b, c, d, e⟩
    · intro bs h; cases h; simp
  · refine ⟨⟨rfl, rfl, rfl, rfl, rfl, rfl, rfl, rfl, fun h => absurd h0 h, ?_⟩, rfl, by simp⟩
    rintro ⟨a, b, c, d, e⟩
    exact ⟨a, b, by simp [CodecErr.bits], d, e⟩
  · exact ⟨⟨rfl, rfl, rfl, rfl, rfl, rfl, rfl, rfl, fun _ => rfl, id⟩, rfl, by simp⟩

/-- An unpack that responds is an unpack step and its response (42_packet_codec.md R113). -/
theorem unpackRespond_cases {m : Nat} {s t : State} (h : unpackRespond m s = .ok t) :
    ∃ r u, guardedUnpack m s = .ok (r, u) ∧ t = respond (unpackResponse m r) u := by
  simp only [unpackRespond] at h
  split at h
  · cases h
  · rename_i r u hu; cases h; exact ⟨r, u, hu, rfl⟩

theorem unpackRespond_frame {m : Nat} {s t : State} (h : unpackRespond m s = .ok t) :
    CodecFrame s t ∧ ∃ bs, t.resp = s.resp ++ bs ∧ bs.length = 1 + m := by
  obtain ⟨r, u, hu, rfl⟩ := unpackRespond_cases h
  obtain ⟨f, hr, hl⟩ := guardedUnpack_frame hu
  exact ⟨⟨f.cd, f.ps, f.maxPayload, f.idWidth, f.cmdPort, f.sink, f.refusals, f.id, f.sticky, f.inv⟩,
    _, by simp [hr], unpackResponse_length m r hl⟩

/-! ## The frame of CD_PACK and CD_UNPACK -/

/-- What CD_PACK, CD_UNPACK and their steps leave alone: everything but the packet and the ControllerData value. -/
structure CdFrame (s t : State) : Prop where
  ps : t.ps = s.ps
  maxPayload : t.maxPayload = s.maxPayload
  idWidth : t.idWidth = s.idWidth
  cmdPort : t.cmdPort = s.cmdPort
  sink : t.sink = s.sink
  refusals : t.refusals = s.refusals
  resp : t.resp = s.resp
  id : t.pkt.id = s.pkt.id
  sticky : s.pkt.err ≠ 0 → t.pkt = s.pkt
  inv : s.pkt.Inv → t.pkt.Inv

theorem CdFrame.trans {s t u : State} (h : CdFrame s t) (k : CdFrame t u) : CdFrame s u :=
  ⟨k.ps.trans h.ps, k.maxPayload.trans h.maxPayload, k.idWidth.trans h.idWidth, k.cmdPort.trans h.cmdPort,
   k.sink.trans h.sink, k.refusals.trans h.refusals, k.resp.trans h.resp, k.id.trans h.id,
   fun e => by
     have hp := h.sticky e
     rw [← hp] at e
     rw [← hp]
     exact k.sticky e,
   fun i => k.inv (h.inv i)⟩

theorem CodecFrame.toCd {s t : State} (h : CodecFrame s t) (hr : t.resp = s.resp) : CdFrame s t :=
  ⟨h.ps, h.maxPayload, h.idWidth, h.cmdPort, h.sink, h.refusals, hr, h.id, h.sticky, h.inv⟩

theorem unpackMask_frame {s t : State} (h : unpackMask s = .ok t) : CdFrame s t ∧ t.cd.analog = s.cd.analog := by
  simp only [unpackMask] at h
  split at h
  · cases h
  · rename_i bs u hu
    cases h
    have ⟨f, hr, _⟩ := guardedUnpack_frame hu
    exact ⟨⟨f.ps, f.maxPayload, f.idWidth, f.cmdPort, f.sink, f.refusals, hr, f.id, f.sticky, f.inv⟩, by rw [← f.cd]⟩
  · rename_i u hu
    cases h
    have ⟨f, hr, _⟩ := guardedUnpack_frame hu
    exact ⟨f.toCd hr, by rw [f.cd]⟩

theorem unpackAnalog_frame {s t : State} (h : unpackAnalog s = .ok t) : CdFrame s t ∧ t.cd.mask = s.cd.mask := by
  simp only [unpackAnalog] at h
  split at h
  · cases h
  · rename_i bs u hu
    cases h
    have ⟨f, hr, _⟩ := guardedUnpack_frame hu
    exact ⟨⟨f.ps, f.maxPayload, f.idWidth, f.cmdPort, f.sink, f.refusals, hr, f.id, f.sticky, f.inv⟩, by rw [← f.cd]⟩
  · rename_i u hu
    cases h
    have ⟨f, hr, _⟩ := guardedUnpack_frame hu
    exact ⟨f.toCd hr, by rw [f.cd]⟩

theorem execCdPack_frame {s t : State} (h : execCdPack s = .next t) : CdFrame s t ∧ t.cd = s.cd := by
  simp only [execCdPack] at h
  split at h
  · cases h
  · rename_i u hu
    have a := guardedPack_frame hu
    have b := guardedPack_frame (ofExcept_next h)
    exact ⟨(a.1.toCd a.2).trans (b.1.toCd b.2), by rw [b.1.cd, a.1.cd]⟩

theorem execCdUnpack_frame {s t : State} (h : execCdUnpack s = .next t) : CdFrame s t := by
  simp only [execCdUnpack] at h
  split at h
  · cases h
  · rename_i u hu
    exact (unpackMask_frame hu).1.trans (unpackAnalog_frame (ofExcept_next h)).1

/-! ## Everything an operation can do -/

/-- The ways an operation can answer a next state. -/
inductive ExecCase (i : Instr) (s t : State) : Prop
  /-- FR_FEED -/
  | feed (d : List Byte) : i = .frFeed d → feed d s = .ok t → ExecCase i s t
  /-- an encoder operation that sends -/
  | send (f : List Byte) : i.isFramer = true → t = emit (.sendBytes f) s → ExecCase i s t
  /-- an encoder operation that is refused -/
  | refuse (r : RefuseReason) : i.isFramer = true → t = refuse r s → ExecCase i s t
  /-- PKT_INIT -/
  | init (z : Bool) : i = .pktInit z → t = initPacket z s → ExecCase i s t
  /-- a pack -/
  | pack (bs : List Byte) : i.isPackOrUnpack = true → i.isCodec = true →
      i.responseLength? s.idWidth s.pkt.len.toNat = none → guardedPack bs s = .ok t → ExecCase i s t
  /-- an unpack -/
  | unpack (m : Nat) : i.isPackOrUnpack = true → i.isCodec = true →
      i.responseLength? s.idWidth s.pkt.len.toNat = some (1 + m) → unpackRespond m s = .ok t → ExecCase i s t
  /-- a query that only reads -/
  | query (bs : List Byte) : i.isFramer = false → i.isPackOrUnpack = false →
      i.responseLength? s.idWidth s.pkt.len.toNat = some bs.length → t = respond bs s → ExecCase i s t
  /-- CD_SET_BUTTON -/
  | setButton (j v : Byte) (m : BitVec 16) : i = .cdSetButton j v →
      t = { s with cd := { s.cd with mask := m } } → ExecCase i s t
  /-- CD_SET_ANALOG -/
  | setAnalog (c v : Byte) (a : Bytes3) : i = .cdSetAnalog c v →
      t = { s with cd := { s.cd with analog := a } } → ExecCase i s t
  /-- CD_PACK -/
  | cdPack : i = .cdPack → execCdPack s = .next t → ExecCase i s t
  /-- CD_UNPACK -/
  | cdUnpack : i = .cdUnpack → execCdUnpack s = .next t → ExecCase i s t

/-- Inversion: an operation that answers a next state did one of these things. -/
theorem exec_cases {i : Instr} {s t : State} (h : exec i s = .next t) : ExecCase i s t := by
  cases i with
  | frFeed d => exact .feed d rfl (ofExcept_next h)
  | frSendData d =>
    simp only [exec, execFrSendData] at h; cases h
    split
    · exact .refuse _ rfl rfl
    · exact .send _ rfl rfl
  | frSendParam p0 p1 v =>
    simp only [exec, execFrSendParam] at h; cases h
    split
    · exact .send _ rfl rfl
    · exact .refuse _ rfl rfl
  | pktInit z => cases h; exact .init z rfl rfl
  | pktPackU8 v => exact .pack _ rfl rfl rfl (ofExcept_next h)
  | pktPackU16 v => exact .pack _ rfl rfl rfl (ofExcept_next h)
  | pktPackU32 v => exact .pack _ rfl rfl rfl (ofExcept_next h)
  | pktPackU64 v => exact .pack _ rfl rfl rfl (ofExcept_next h)
  | pktPackBytes d => exact .pack _ rfl rfl rfl (ofExcept_next h)
  | pktUnpackU8 => exact .unpack _ rfl rfl rfl (ofExcept_next h)
  | pktUnpackU16 => exact .unpack _ rfl rfl rfl (ofExcept_next h)
  | pktUnpackU32 => exact .unpack _ rfl rfl rfl (ofExcept_next h)
  | pktUnpackU64 => exact .unpack _ rfl rfl rfl (ofExcept_next h)
  | pktUnpackBytes n => exact .unpack _ rfl rfl rfl (ofExcept_next h)
  | pktLength => cases h; exact .query _ rfl rfl rfl rfl
  | pktId => cases h; exact .query _ rfl rfl (by simp [Instr.responseLength?, idBytes]) rfl
  | pktData =>
    simp only [exec, execPktData, readStore_eq] at h
    split at h
    · cases h
    · rename_i bs hb; split at hb <;> cases hb
      cases h; exact .query _ rfl rfl (by simp [Instr.responseLength?]; omega) rfl
  | pktSuccess =>
    simp only [exec, execPktSuccess] at h
    split at h <;> cases h
    exact .query _ rfl rfl rfl rfl
  | pktStatus =>
    simp only [exec, execPktStatus] at h
    split at h <;> cases h
    exact .query _ rfl rfl rfl rfl
  | cdSetButton i v =>
    simp only [exec, execCdSetButton] at h; cases h
    split
    · exact .setButton _ _ _ rfl rfl
    · exact .setButton _ _ s.cd.mask rfl rfl
  | cdSetAnalog i v =>
    simp only [exec, execCdSetAnalog] at h; cases h
    split
    · exact .setAnalog _ _ _ rfl rfl
    · exact .setAnalog _ _ s.cd.analog rfl rfl
  | cdTestButton i => cases h; exact .query _ rfl rfl rfl rfl
  | cdGetAnalog i => cases h; exact .query _ rfl rfl rfl rfl
  | cdPack => exact .cdPack rfl h
  | cdUnpack => exact .cdUnpack rfl h

/-! ## Sequences (70_reset_and_hazards.md R162) -/

@[simp] theorem andThen_next (t : State) (k : State → Result) : andThen (.next t) k = k t := rfl

theorem andThen_eq_next {r : Result} {k : State → Result} {u : State} (h : andThen r k = .next u) :
    ∃ t, r = .next t ∧ k t = .next u := by
  cases r with
  | next t => exact ⟨t, rfl, h⟩
  | fault f => cases h
  | refused x => cases h

@[simp] theorem execAll_nil (s : State) : execAll [] s = .next s := rfl

theorem execAll_cons (i : Instr) (is : List Instr) (s : State) :
    execAll (i :: is) s = andThen (exec i s) (execAll is) := rfl

theorem execAll_append (a b : List Instr) (s : State) :
    execAll (a ++ b) s = andThen (execAll a s) (execAll b) := by
  induction a generalizing s with
  | nil => rfl
  | cons i is ih =>
    simp only [List.cons_append, execAll_cons]
    cases exec i s with
    | next t => exact ih t
    | fault f => rfl
    | refused x => rfl

/-! ## A step, and reset -/

/-- Everything a step can do: the decoded operation, a refusal, or waiting (30_encoding.md R73, R74). -/
theorem step_cases {s t : State} (h : step s = .next t) :
    (∃ i rest, decode s.cmdPort = .op i rest ∧ exec i (withPort rest s) = .next t) ∨
    (∃ r rest, decode s.cmdPort = .rejected r rest ∧ t = refuse r (withPort rest s)) ∨
    (decode s.cmdPort = .incomplete ∧ t = s) := by
  simp only [step] at h
  split at h
  · rename_i i rest hd; exact .inl ⟨i, rest, hd, h⟩
  · rename_i r rest hd; cases h; exact .inr (.inl ⟨r, rest, hd, rfl⟩)
  · rename_i hd; cases h; exact .inr (.inr ⟨hd, rfl⟩)

/-- A constructed state is the reset state of a legal configuration (70_reset_and_hazards.md R158). -/
theorem construct_eq {c : Config} {u : Unspecified} {s : State} (h : State.construct c u = some s) :
    ∃ hl : c.legal, s = State.resetAt ⟨c.maxPayload, Nat.lt_succ_of_le hl.1⟩ c.idWidth c.pktId u := by
  simp only [State.construct] at h
  split at h
  · rename_i hl; cases h; exact ⟨hl, rfl⟩
  · cases h

/-! ## The sink -/

/-- What the modem sees of two event lists in a row. -/
theorem sentBytes_append (a b : List Event) : sentBytes (a ++ b) = sentBytes a ++ sentBytes b := by
  induction a with
  | nil => rfl
  | cons e a ih => cases e <;> simp [sentBytes, ih]

/-- The inbound events of two event lists in a row. -/
theorem inboundEvents_append (a b : List Event) : inboundEvents (a ++ b) = inboundEvents a ++ inboundEvents b := by
  induction a with
  | nil => rfl
  | cons e a ih => cases e <;> simp [inboundEvents, ih]

end Sys2Proof.Machine
end

