-- ==== Sys2Proof/Laws/PerInstr.lean ====
section
/-! SUPPORT. Laws of the syntax, one lemma per constructor: the opcode byte of an operation selects its format in the
opcode table (30_encoding.md R70), and the length read from the front of the stream is the length of its encoding
(R73). -/

namespace Sys2Proof.Laws.OpLength

/-- The opcode byte selects the operation's format, and `opLength` of the encoding is its length. -/
def Statement (i : Instr) : Prop :=
  i.wellFormed = true →
    formatOf i.row.opcode = some i.row.format ∧ ∀ rest, opLength (encode i ++ rest) = some (encode i).length

/-- The FN shape: the count byte gives the length. -/
theorem of_fn {i : Instr} {d : List Byte} (hd : d.length ≤ Config.maxCount) (hf : formatOf i.row.opcode = some .fn)
    (ho : i.operandBytes = BitVec.ofNat 8 d.length :: d) :
    ∀ rest, opLength (encode i ++ rest) = some (encode i).length := by
  intro rest
  have hn : d.length % 256 = d.length := Nat.mod_eq_of_lt (Nat.lt_succ_of_le hd)
  simp only [encode, ho, List.cons_append, opLength, hf, List.head?_cons, Option.map_some, BitVec.toNat_ofNat,
    List.length_cons, Option.some.injEq]
  omega

theorem frFeed (d : List Byte) : Statement (.frFeed d) :=
  fun h => ⟨rfl, of_fn (of_decide_eq_true h) rfl rfl⟩

theorem frSendData (d : List Byte) : Statement (.frSendData d) :=
  fun h => ⟨rfl, of_fn (of_decide_eq_true h) rfl rfl⟩

theorem frSendParam (p0 : Byte) (p1 : Byte) (v : Byte) : Statement (.frSendParam p0 p1 v) :=
  fun _ => ⟨rfl, fun _ => rfl⟩

theorem pktInit (z : Bool) : Statement (.pktInit z) :=
  fun _ => ⟨rfl, fun _ => rfl⟩

theorem pktPackU8 (v : BitVec 8) : Statement (.pktPackU8 v) :=
  fun _ => ⟨rfl, fun _ => rfl⟩

theorem pktPackU16 (v : BitVec 16) : Statement (.pktPackU16 v) :=
  fun _ => ⟨rfl, fun _ => rfl⟩

theorem pktPackU32 (v : BitVec 32) : Statement (.pktPackU32 v) :=
  fun _ => ⟨rfl, fun _ => rfl⟩

theorem pktPackU64 (v : BitVec 64) : Statement (.pktPackU64 v) :=
  fun _ => ⟨rfl, fun _ => rfl⟩

theorem pktPackBytes (d : List Byte) : Statement (.pktPackBytes d) :=
  fun h => ⟨rfl, of_fn (of_decide_eq_true h) rfl rfl⟩

theorem pktLength : Statement (.pktLength) :=
  fun _ => ⟨rfl, fun _ => rfl⟩

theorem pktData : Statement (.pktData) :=
  fun _ => ⟨rfl, fun _ => rfl⟩

theorem pktId : Statement (.pktId) :=
  fun _ => ⟨rfl, fun _ => rfl⟩

theorem pktUnpackU8 : Statement (.pktUnpackU8) :=
  fun _ => ⟨rfl, fun _ => rfl⟩

theorem pktUnpackU16 : Statement (.pktUnpackU16) :=
  fun _ => ⟨rfl, fun _ => rfl⟩

theorem pktUnpackU32 : Statement (.pktUnpackU32) :=
  fun _ => ⟨rfl, fun _ => rfl⟩

theorem pktUnpackU64 : Statement (.pktUnpackU64) :=
  fun _ => ⟨rfl, fun _ => rfl⟩

theorem pktUnpackBytes (n : Byte) : Statement (.pktUnpackBytes n) :=
  fun _ => ⟨rfl, fun _ => rfl⟩

theorem pktSuccess : Statement (.pktSuccess) :=
  fun _ => ⟨rfl, fun _ => rfl⟩

theorem pktStatus : Statement (.pktStatus) :=
  fun _ => ⟨rfl, fun _ => rfl⟩

theorem cdSetButton (i : Byte) (v : Byte) : Statement (.cdSetButton i v) :=
  fun _ => ⟨rfl, fun _ => rfl⟩

theorem cdTestButton (i : Byte) : Statement (.cdTestButton i) :=
  fun _ => ⟨rfl, fun _ => rfl⟩

theorem cdSetAnalog (c : Byte) (v : Byte) : Statement (.cdSetAnalog c v) :=
  fun _ => ⟨rfl, fun _ => rfl⟩

theorem cdGetAnalog (c : Byte) : Statement (.cdGetAnalog c) :=
  fun _ => ⟨rfl, fun _ => rfl⟩

theorem cdPack : Statement (.cdPack) :=
  fun _ => ⟨rfl, fun _ => rfl⟩

theorem cdUnpack : Statement (.cdUnpack) :=
  fun _ => ⟨rfl, fun _ => rfl⟩

end Sys2Proof.Laws.OpLength
end

