-- ==== Sys2Proof/Machine/Assembler.lean ====
section
/-! DEFINITION. The assembler syntax of 30_encoding.md R77 and R78, on lists of characters: one operation a line. The details R77
does not state (spacing, what a bad operand does, letter case) are DESIGN CHOICES, log 13. -/

namespace Sys2Proof.Assembler

open Sys2Proof.Machine

/-- An operand as written. -/
inductive Operand
  /-- a number, decimal or hexadecimal with `0x` -/
  | number (n : Nat)
  /-- a byte string, `[b0 b1 …]` or `"…"` -/
  | bytes (bs : List Byte)
  /-- a two-letter parameter code -/
  | code (p0 p1 : Byte)
  deriving DecidableEq, Repr

/-- A space or a tab (DESIGN CHOICE, log 13). -/
def isBlank (c : Char) : Bool := c.toNat == 0x20 || c.toNat == 0x09

/-- The text without its leading blanks. -/
def skipBlanks (cs : List Char) : List Char := cs.dropWhile isBlank

/-- The text without blanks at either end. -/
def trim (cs : List Char) : List Char := (skipBlanks (skipBlanks cs).reverse).reverse

/-- A line without its comment: from `;` on (R77), outside a quoted string (DESIGN CHOICE, log 13). -/
def stripComment (inQuote : Bool) : List Char → List Char
  | [] => []
  | c :: cs =>
    if c = ';' && !inQuote then []
    else c :: stripComment (if c = '"' then !inQuote else inQuote) cs

/-- The byte an ASCII character stands for (00_scope.md R12); none for any other character. -/
def asciiByte? (c : Char) : Option Byte := if c.toNat < 128 then some (BitVec.ofNat 8 c.toNat) else none

/-- The value of a hexadecimal digit of the text: the digits of a frame, either case (00_scope.md R13). -/
def digitValue? (c : Char) : Option (BitVec 4) := (asciiByte? c).bind hexVal?

/-- Digits of a base, most significant first, onto an accumulator. -/
def digits? (base : Nat) (acc : Nat) : List Char → Option Nat
  | [] => some acc
  | c :: cs =>
    match digitValue? c with
    | none => none
    | some d => if d.toNat < base then digits? base (base * acc + d.toNat) cs else none

/-- A number: decimal, or hexadecimal with `0x` (R77). Digits of either case, a lower-case `x`, and at least one digit
(DESIGN CHOICE, log 13). -/
def number? (cs : List Char) : Option Nat :=
  match cs with
  | [] => none
  | '0' :: 'x' :: [] => none
  | '0' :: 'x' :: rest => digits? 16 0 rest
  | _ => digits? 10 0 cs

/-- The bytes of `b0 b1 …` after the opening bracket, each two hexadecimal digits, up to the closing bracket, which must
end the text. Blanks separate the bytes; there may be none (DESIGN CHOICE, log 13). -/
def bracketBytes? : List Char → Option (List Byte)
  | [] => none
  | [c] => if c = ']' then some [] else none
  | h :: l :: rest =>
    if isBlank h then bracketBytes? (l :: rest)
    else
      match digitValue? h, digitValue? l with
      | some hi, some lo =>
        match rest with
        | [] => none
        | c :: _ => if isBlank c || c = ']' then (bracketBytes? rest).map (fromNibbles hi lo :: ·) else none
      | _, _ => none

/-- The bytes of a quoted string after the opening quote, up to the closing quote, which must end the text. ASCII
characters stand for their bytes; the escapes are `\r` and `\n` (R77). A backslash before any other character, a quote
inside the string and a character that is not ASCII are assembly errors (DESIGN CHOICE, log 13). -/
def quotedBytes? : List Char → Option (List Byte)
  | [] => none
  | [c] => if c = '"' then some [] else none
  | '\\' :: 'r' :: rest => (quotedBytes? rest).map (Ascii.cr :: ·)
  | '\\' :: 'n' :: rest => (quotedBytes? rest).map (Ascii.lf :: ·)
  | c :: rest =>
    if c = '\\' || c = '"' then none
    else
      match asciiByte? c with
      | none => none
      | some b => (quotedBytes? rest).map (b :: ·)

/-- One operand. A two-letter code (R77) is two uppercase letters, so another code is an assembly error and not a refusal
of the block (DESIGN CHOICE, log 13). -/
def operand? (cs : List Char) : Option Operand :=
  match cs with
  | '[' :: rest => (bracketBytes? rest).map .bytes
  | '"' :: rest => (quotedBytes? rest).map .bytes
  | [a, b] =>
    match asciiByte? a, asciiByte? b with
    | some p0, some p1 => if isUpper p0 && isUpper p1 then some (.code p0 p1) else (number? cs).map .number
    | _, _ => none
  | _ => (number? cs).map .number

/-- The text split at commas outside a quoted string. -/
def splitCommas (inQuote : Bool) (acc : List Char) : List Char → List (List Char)
  | [] => [acc.reverse]
  | c :: cs =>
    if c = ',' && !inQuote then acc.reverse :: splitCommas inQuote [] cs
    else splitCommas (if c = '"' then !inQuote else inQuote) (c :: acc) cs

/-- Every operand of the text after the mnemonic; none if one is not an operand. -/
def operands? : List (List Char) → Option (List Operand)
  | [] => some []
  | cs :: rest =>
    match operand? (trim cs), operands? rest with
    | some o, some os => some (o :: os)
    | _, _ => none

/-- A number that fits an operand of `bits` bits. -/
def fits (bits n : Nat) : Bool := decide (n < 2 ^ bits)

/-- The operation of an opcode byte and operands (R69, R70, R77); none where they do not fit each other (DESIGN CHOICE,
log 13). -/
def build? (opcode : Byte) (os : List Operand) : Option Instr :=
  match opcode.toNat, os with
  | 0x10, [.bytes d] => some (.frFeed d)
  | 0x11, [.bytes d] => some (.frSendData d)
  | 0x12, [.code p0 p1, .number v] => if fits 8 v then some (.frSendParam p0 p1 (BitVec.ofNat 8 v)) else none
  | 0x20, [.number 0] => some (.pktInit false)
  | 0x20, [.number 1] => some (.pktInit true)
  | 0x21, [.number v] => if fits 8 v then some (.pktPackU8 (BitVec.ofNat 8 v)) else none
  | 0x22, [.number v] => if fits 16 v then some (.pktPackU16 (BitVec.ofNat 16 v)) else none
  | 0x23, [.number v] => if fits 32 v then some (.pktPackU32 (BitVec.ofNat 32 v)) else none
  | 0x24, [.number v] => if fits 64 v then some (.pktPackU64 (BitVec.ofNat 64 v)) else none
  | 0x25, [.bytes d] => some (.pktPackBytes d)
  | 0x26, [] => some .pktLength
  | 0x27, [] => some .pktData
  | 0x28, [] => some .pktId
  | 0x29, [] => some .pktUnpackU8
  | 0x2A, [] => some .pktUnpackU16
  | 0x2B, [] => some .pktUnpackU32
  | 0x2C, [] => some .pktUnpackU64
  | 0x2D, [.number n] => if fits 8 n then some (.pktUnpackBytes (BitVec.ofNat 8 n)) else none
  | 0x2E, [] => some .pktSuccess
  | 0x2F, [] => some .pktStatus
  | 0x30, [.number i, .number v] =>
    if fits 8 i && fits 8 v then some (.cdSetButton (BitVec.ofNat 8 i) (BitVec.ofNat 8 v)) else none
  | 0x31, [.number i] => if fits 8 i then some (.cdTestButton (BitVec.ofNat 8 i)) else none
  | 0x32, [.number c, .number v] =>
    if fits 8 c && fits 8 v then some (.cdSetAnalog (BitVec.ofNat 8 c) (BitVec.ofNat 8 v)) else none
  | 0x33, [.number c] => if fits 8 c then some (.cdGetAnalog (BitVec.ofNat 8 c)) else none
  | 0x34, [] => some .cdPack
  | 0x35, [] => some .cdUnpack
  | _, _ => none

/-- A pseudo-instruction line as the operations it expands to (R78). FR_FEED_BYTES and CD_RECEIVE, which takes at most 8
bytes, have a fixed expansion. PKT_SEND and CD_SEND have none, since the host issues their last operations from responses:
as a line of text each is an assembly error (DESIGN CHOICE, log 13), and `pktSend` and `cdSend` are what the host runs. -/
def pseudo? (mnemonic : List Char) (os : List Operand) : Option (List Instr) :=
  match os with
  | [.bytes s] =>
    if mnemonic = "FR_FEED_BYTES".toList then some (frFeedBytes s)
    else if mnemonic = "CD_RECEIVE".toList ∧ s.length ≤ Config.capacity then some (cdReceive s)
    else none
  | _ => none

/-- The operation of a mnemonic of the opcode table (R70, R77). More than 255 bytes is an assembly error (R77). -/
def core? (mnemonic : List Char) (os : List Operand) : Option Instr :=
  match opTable.find? (fun r => r.mnemonic.toList == mnemonic) with
  | none => none
  | some row => (build? row.opcode os).filter Instr.wellFormed

/-- One line: a mnemonic, then its operands separated by commas (R77); the operations it stands for, none for an assembly
error. An unknown mnemonic is one, and an empty line stands for no operation (DESIGN CHOICE, log 13). -/
def assembleLine (line : List Char) : Option (List Instr) :=
  let text := trim (stripComment false line)
  if text.isEmpty then some []
  else
    let mnemonic := text.takeWhile (fun c => !isBlank c)
    let tail := trim (text.dropWhile (fun c => !isBlank c))
    match operands? (if tail.isEmpty then [] else splitCommas false [] tail) with
    | none => none
    | some os =>
      match core? mnemonic os with
      | some i => some [i]
      | none => pseudo? mnemonic os

/-- The command-port bytes of a program, one line after another; none on an assembly error (R77, R78). -/
def assemble : List (List Char) → Option (List Byte)
  | [] => some []
  | line :: rest =>
    match assembleLine line with
    | none => none
    | some ops => (assemble rest).map (encodeAll ops ++ ·)

end Sys2Proof.Assembler
end

