-- ==== Sys2Proof/Tests/Slice0.lean ====
section
/-! SUPPORT. The model's own tests. Every expected result is a worked example or a vector of the spec, or is read by hand
from a rule; each test names its source. The witnesses for the hypotheses of the statements stand last. -/

namespace Sys2Proof.Tests

open Sys2Proof Sys2Proof.Machine Sys2Proof.Claims

/-! ## Helpers -/

/-- The next state, if there is one. -/
def st? : Result → Option State
  | .next t => some t
  | .fault _ => none
  | .refused _ => none

/-- A field of the next state. -/
def on {α : Type} (f : State → α) (r : Result) : Option α := (st? r).map f

/-- Reset with a packet: its bytes, the cursor and the error state. -/
def pk (bs : List Byte) (cur : BitVec 4) (err : BitVec 2) : State :=
  { State.reset with pkt := { buf := Memory.writeRun [] 0 bs, len := BitVec.ofNat 4 bs.length, cur := cur, err := err,
                              id := 0 } }

/-- Reset with a ControllerData value. -/
def cdv (mask : BitVec 16) (a b c : Byte) (s : State) : State := { s with cd := ⟨mask, ⟨a, b, c⟩⟩ }

/-- Reset, after inbound bytes have been fed. -/
def fed (bs : List Byte) : State := (st? (exec (.frFeed bs) State.reset)).getD State.reset

/-- The bytes of an ASCII text. -/
def ascii (t : String) : List Byte := t.toList.map fun c => BitVec.ofNat 8 c.toNat

/-! ## WellFormed: each check refuses an ill-formed operation (30_encoding.md R69, R77) -/

theorem test_wf_feed : (Instr.frFeed (List.replicate 256 0x00)).wellFormed = false := by
  simp only [Instr.wellFormed, List.length_replicate]; decide
theorem test_wf_send : (Instr.frSendData (List.replicate 256 0x00)).wellFormed = false := by
  simp only [Instr.wellFormed, List.length_replicate]; decide
theorem test_wf_pack : (Instr.pktPackBytes (List.replicate 256 0x00)).wellFormed = false := by
  simp only [Instr.wellFormed, List.length_replicate]; decide
theorem test_wf_bound : (Instr.pktPackBytes (List.replicate 255 0x00)).wellFormed = true := by
  simp only [Instr.wellFormed, List.length_replicate]; decide

/-! ## Decoding: every constructor, from bytes written out from 30_encoding.md R69 and R70 -/

theorem test_decode_framer :
    decode [0x10, 0x05, 0x2A, 0x49, 0x52, 0x0D, 0x0A] = .op (.frFeed [0x2A, 0x49, 0x52, 0x0D, 0x0A]) [] ∧
    decode [0x11, 0x03, 0x01, 0x02, 0x03] = .op (.frSendData [0x01, 0x02, 0x03]) [] ∧
    decode [0x12, 0x43, 0x48, 0x0E] = .op (.frSendParam 0x43 0x48 0x0E) [] := by decide

theorem test_decode_pack :
    decode [0x20, 0x00] = .op (.pktInit false) [] ∧ decode [0x20, 0x01] = .op (.pktInit true) [] ∧
    decode [0x21, 0xAB] = .op (.pktPackU8 0xAB) [] ∧
    decode [0x22, 0x34, 0x12] = .op (.pktPackU16 0x1234) [] ∧
    decode [0x23, 0xEF, 0xBE, 0xAD, 0xDE] = .op (.pktPackU32 0xDEADBEEF) [] ∧
    decode [0x24, 0x01, 0x02, 0x03, 0x04, 0x05, 0x06, 0x07, 0x08] = .op (.pktPackU64 0x0807060504030201) [] ∧
    decode [0x25, 0x03, 0xA5, 0x00, 0x70] = .op (.pktPackBytes [0xA5, 0x00, 0x70]) [] := by decide

theorem test_decode_queries :
    decode [0x26] = .op .pktLength [] ∧ decode [0x27] = .op .pktData [] ∧ decode [0x28] = .op .pktId [] ∧
    decode [0x2E] = .op .pktSuccess [] ∧ decode [0x2F] = .op .pktStatus [] := by decide

theorem test_decode_unpack :
    decode [0x29] = .op .pktUnpackU8 [] ∧ decode [0x2A] = .op .pktUnpackU16 [] ∧
    decode [0x2B] = .op .pktUnpackU32 [] ∧ decode [0x2C] = .op .pktUnpackU64 [] ∧
    decode [0x2D, 0x03] = .op (.pktUnpackBytes 3) [] := by decide

theorem test_decode_controller :
    decode [0x30, 0x0F, 0x01] = .op (.cdSetButton 15 1) [] ∧ decode [0x31, 0x10] = .op (.cdTestButton 16) [] ∧
    decode [0x32, 0x01, 0xC8] = .op (.cdSetAnalog 1 200) [] ∧ decode [0x33, 0x01] = .op (.cdGetAnalog 1) [] ∧
    decode [0x34] = .op .cdPack [] ∧ decode [0x35] = .op .cdUnpack [] := by decide

/-- R73: an operation whose bytes have not all arrived; R74: the two refusals at decode. -/
theorem test_decode_incomplete :
    decode [0x11, 0x03, 0x01, 0x02] = .incomplete ∧ decode [0x24, 0x01] = .incomplete ∧ decode [0x10] = .incomplete ∧
    decode [0x20] = .incomplete := by decide
theorem test_decode_refused :
    decode [0x13, 0x2E] = .rejected .illegalOpcode [0x2E] ∧ decode [0x0F] = .rejected .illegalOpcode [] ∧
    decode [0x36] = .rejected .illegalOpcode [] ∧ decode [0x20, 0x02, 0x2E] = .rejected .reservedBits [0x2E] := by decide

/-- R70: no two rows of the table share an opcode byte. -/
theorem test_table_disjoint : opTable.Pairwise (fun a b => a.opcode ≠ b.opcode) := by decide
/-- R68: there are 25 operations. -/
theorem test_table_size : opTable.length = 25 := by decide

/-- R76: a stream with an operation, a refused byte, an operation and the beginning of a third. -/
theorem test_split :
    splitStream [0x2E, 0x40, 0x31, 0x05, 0x25, 0x02, 0xAA] =
      ([.op .pktSuccess, .refusal .illegalOpcode, .op (.cdTestButton 5)], [0x25, 0x02, 0xAA]) := by decide

/-- The table's numbering: the second byte is bits 15 to 8; operand bytes beyond the row's bits are zero. -/
theorem test_table_word :
    decodeTableWord 8 0x26 = some .pktLength ∧ decodeTableWord 16 0x0120 = some (.pktInit true) ∧
    decodeTableWord 16 0x0220 = none ∧ decodeTableWord 24 0x010F30 = some (.cdSetButton 15 1) ∧
    decodeTableWord 8 0x22 = some (.pktPackU16 0) ∧ decodeTableWord 8 0x00 = none := by decide

/-- step runs a word of the table as its next operation. -/
theorem test_fetch_word :
    on (fun t => (t.cd.mask, t.cmdPort)) (step (State.reset.withFetchWord 24 0x010F30)) = some (0x8000, []) := by decide

/-! ## Reset (10_state.md R41, 00_scope.md R7) -/

theorem test_reset_values :
    (State.reset.pkt.len, State.reset.pkt.cur, State.reset.pkt.err, State.reset.cd.mask, State.reset.ps.state,
     State.reset.refused) = (0, 0, 0, 0x0000, 0, false) ∧ State.reset.sink = [] ∧ State.reset.resp = [] := by decide
theorem test_reset_configuration :
    (State.construct ⟨255, 8, 0⟩ Unspecified.zero).isNone = true ∧
    (State.construct ⟨254, 8, 0xFF⟩ Unspecified.zero).isSome = true ∧
    (State.construct ⟨8, 8, 0x100⟩ Unspecified.zero).isNone = true ∧
    (State.construct ⟨8, 0, 0⟩ Unspecified.zero).isNone = true := by decide

/-! ## The protocol framer (95_test_vectors.md sections 1 to 3; 41_framer_encoder.md examples) -/

/-- T17: star, CR and LF inside a payload are data. -/
theorem test_feed_payload :
    on State.sink (exec (.frFeed (ascii "*DR=03" ++ [0x2A, 0x0D, 0x0A, 0x0D, 0x0A])) State.reset) =
      some [.payload [0x2A, 0x0D, 0x0A]] := by decide
/-- V2: length FF, then a valid frame. -/
theorem test_feed_error_then_frame :
    on State.sink (exec (.frFeed (ascii "*DR=FF" ++ [1, 2, 3, 0x0D, 0x0A] ++ ascii "*DR=03" ++ [1, 2, 3, 0x0D, 0x0A]))
      State.reset) = some [.error .lengthTooLong, .payload [1, 2, 3]] := by decide
/-- R105's example, and the send that is refused (R105, MAX_PAYLOAD = 8). -/
theorem test_send_data :
    on State.sink (exec (.frSendData [1, 2, 3]) State.reset) =
      some [.sendBytes [0x40, 0x44, 0x54, 0x30, 0x33, 0x01, 0x02, 0x03, 0x0D, 0x0A]] := by decide
theorem test_send_data_refused :
    on (fun t => (t.sink, t.refusals)) (exec (.frSendData (List.replicate 9 0x00)) State.reset) =
      some ([], [.sendTooLong]) := by decide
/-- R106's example, and a code byte just outside the letters. -/
theorem test_send_param :
    on State.sink (exec (.frSendParam 0x43 0x48 0x0E) State.reset) =
      some [.sendBytes [0x40, 0x43, 0x48, 0x30, 0x45, 0x0D, 0x0A]] := by decide
theorem test_send_param_refused :
    on (fun t => (t.sink, t.refusals)) (exec (.frSendParam 0x41 0x5B 0x00) State.reset) =
      some ([], [.badParamCode]) := by decide

/-! ## The packet codec (examples and corner cases of 42_packet_codec.md) -/

/-- R114's example. -/
theorem test_init :
    on (fun t => (t.pkt.len, t.pkt.cur, t.pkt.err, t.pkt.buf)) (exec (.pktInit true) (pk [1, 2, 3, 4, 5, 6, 7, 8] 3 1)) =
      some (0, 0, 0, []) := by decide
theorem test_init_keeps :
    on (fun t => Memory.readRun t.pkt.buf 0 2) (exec (.pktInit false) (pk [1, 2] 1 2)) = some [1, 2] := by decide
/-- R115's example: the last free byte. -/
theorem test_pack_u8 :
    on (fun t => (t.pkt.len, Memory.read t.pkt.buf 7)) (exec (.pktPackU8 0xAB) (pk (List.replicate 7 0x00) 0 0)) =
      some (8, 0xAB) := by decide
/-- R116's example, and its corner case at pkt_len = 7: no byte is written. -/
theorem test_pack_u16 :
    on (fun t => (t.pkt.len, Memory.readRun t.pkt.buf 0 2)) (exec (.pktPackU16 0x1234) (pk [] 0 0)) =
      some (2, [0x34, 0x12]) := by decide
theorem test_pack_u16_overflow :
    on (fun t => (t.pkt.len, t.pkt.err, t.pkt.buf)) (exec (.pktPackU16 0x1234) (pk (List.replicate 7 0x00) 0 0)) =
      some (7, 1, []) := by decide
/-- R117's and R118's examples. -/
theorem test_pack_u32 :
    on (fun t => (t.pkt.len, Memory.readRun t.pkt.buf 0 4)) (exec (.pktPackU32 0xDEADBEEF) (pk [] 0 0)) =
      some (4, [0xEF, 0xBE, 0xAD, 0xDE]) := by decide
theorem test_pack_u64 :
    on (fun t => (t.pkt.len, Memory.readRun t.pkt.buf 0 8)) (exec (.pktPackU64 0x0807060504030201) (pk [] 0 0)) =
      some (8, [1, 2, 3, 4, 5, 6, 7, 8]) := by decide
/-- R119: the example, and n = 9 at an empty packet. -/
theorem test_pack_bytes :
    on (fun t => (t.pkt.len, Memory.readRun t.pkt.buf 2 3)) (exec (.pktPackBytes [0xA5, 0x00, 0x70]) (pk [1, 2] 0 0)) =
      some (5, [0xA5, 0x00, 0x70]) := by decide
theorem test_pack_bytes_overflow :
    on (fun t => (t.pkt.len, t.pkt.err)) (exec (.pktPackBytes (List.replicate 9 0x01)) (pk [] 0 0)) = some (0, 1) := by
  decide
/-- R120's example, both halves. -/
theorem test_unpack_u8 :
    on (fun t => (t.resp, t.pkt.cur)) (exec .pktUnpackU8 (pk [0x34, 0x12] 1 0)) = some ([0x01, 0x12], 2) := by decide
theorem test_unpack_u8_short :
    on (fun t => (t.resp, t.pkt.cur, t.pkt.err)) (exec .pktUnpackU8 (pk [0x34, 0x12] 2 0)) =
      some ([0x00, 0x00], 2, 2) := by decide
/-- R121's, R122's and R123's examples. -/
theorem test_unpack_u16 :
    on (fun t => (t.resp, t.pkt.cur)) (exec .pktUnpackU16 (pk [0x34, 0x12] 0 0)) = some ([0x01, 0x34, 0x12], 2) := by
  decide
theorem test_unpack_u32 :
    on (fun t => (t.resp, t.pkt.cur)) (exec .pktUnpackU32 (pk [0xEF, 0xBE, 0xAD, 0xDE] 0 0)) =
      some ([0x01, 0xEF, 0xBE, 0xAD, 0xDE], 4) := by decide
theorem test_unpack_u64_short :
    on (fun t => (t.resp, t.pkt.cur, t.pkt.err)) (exec .pktUnpackU64 (pk [1, 2, 3, 4, 5, 6, 7] 0 0)) =
      some (List.replicate 9 0x00, 0, 2) := by decide
/-- R124: the example, and n = 0. -/
theorem test_unpack_bytes :
    on (fun t => (t.resp, t.pkt.cur)) (exec (.pktUnpackBytes 3) (pk [1, 2, 0xA5, 0x00, 0x70] 2 0)) =
      some ([0x01, 0xA5, 0x00, 0x70], 5) := by decide
theorem test_unpack_no_bytes :
    on (fun t => (t.resp, t.pkt.err)) (exec (.pktUnpackBytes 0) (pk [] 0 0)) = some ([0x01], 0) := by decide
/-- R125 to R129. -/
theorem test_success : on State.resp (exec .pktSuccess (pk [] 0 1)) = some [0x00] := by decide
theorem test_status : on State.resp (exec .pktStatus (pk [] 0 2)) = some [0x02] := by decide
theorem test_length : on State.resp (exec .pktLength (pk [1, 2, 3, 4, 5] 0 0)) = some [0x05] := by decide
theorem test_data :
    on State.resp (exec .pktData (pk [0x01, 0x80, 0xA5, 0x00, 0x70] 0 0)) =
      some [0x05, 0x01, 0x80, 0xA5, 0x00, 0x70] := by decide
/-- R129: little-endian, ceil(ID_WIDTH / 8) bytes; here 12 bits. -/
theorem test_id :
    on State.resp (exec .pktId (State.resetAt 8 12 0xABC Unspecified.zero)) = some [0xBC, 0x0A] := by decide

/-! ## Controller data (examples of 43_controller_data.md) -/

theorem test_set_button :
    on (fun t => t.cd.mask) (exec (.cdSetButton 15 1) (cdv 0x0001 0 0 0 State.reset)) = some 0x8001 := by decide
theorem test_set_button_outside :
    on (fun t => t.cd.mask) (exec (.cdSetButton 16 1) (cdv 0x0001 0 0 0 State.reset)) = some 0x0001 := by decide
theorem test_test_button :
    on State.resp (exec (.cdTestButton 15) (cdv 0x8001 0 0 0 State.reset)) = some [0x01] := by decide
theorem test_test_button_outside :
    on State.resp (exec (.cdTestButton 16) (cdv 0xFFFF 0 0 0 State.reset)) = some [0x00] := by decide
theorem test_set_analog :
    on (fun t => t.cd.analog) (exec (.cdSetAnalog 1 200) (cdv 0 0x05 0 0 State.reset)) = some ⟨0xF5, 0, 0⟩ := by decide
theorem test_set_analog_clamped :
    on (fun t => t.cd.analog) (exec (.cdSetAnalog 4 0x13) (cdv 0 0x05 0 0x70 State.reset)) =
      some ⟨0x05, 0, 0x7F⟩ := by decide
theorem test_get_analog :
    on State.resp (exec (.cdGetAnalog 1) (cdv 0 0xF5 0 0 State.reset)) = some [0x0F] := by decide
theorem test_get_analog_outside :
    on State.resp (exec (.cdGetAnalog 6) (cdv 0 0xF5 0xFF 0xFF State.reset)) = some [0x00] := by decide
/-- R137: the example, and the mask alone from pkt_len = 6. -/
theorem test_cd_pack :
    on (fun t => (t.pkt.len, Memory.readRun t.pkt.buf 0 5)) (exec .cdPack (cdv 0x8001 0xA5 0x00 0x70 State.reset)) =
      some (5, [0x01, 0x80, 0xA5, 0x00, 0x70]) := by decide
theorem test_cd_pack_mask_alone :
    on (fun t => (t.pkt.len, t.pkt.err, Memory.readRun t.pkt.buf 6 2))
      (exec .cdPack (cdv 0x8001 0xA5 0x00 0x70 (pk (List.replicate 6 0x00) 0 0))) = some (8, 1, [0x01, 0x80]) := by decide
/-- R138: the example, and the mask alone with 4 bytes left. -/
theorem test_cd_unpack :
    on (fun t => (t.cd, t.pkt.cur)) (exec .cdUnpack (pk [0x01, 0x80, 0xA5, 0x00, 0x70] 0 0)) =
      some (⟨0x8001, ⟨0xA5, 0x00, 0x70⟩⟩, 5) := by decide
theorem test_cd_unpack_mask_alone :
    on (fun t => (t.cd, t.pkt.cur, t.pkt.err)) (exec .cdUnpack (cdv 0 1 2 3 (pk [0x01, 0x80, 0xA5, 0x00] 0 0))) =
      some (⟨0x8001, ⟨1, 2, 3⟩⟩, 2, 2) := by decide

/-! ## The command port and the faults -/

/-- R74: after an illegal byte the next byte is decoded as a new opcode. -/
theorem test_step_illegal :
    on (fun t => (t.cmdPort, t.refused)) (step (deliver [0x0F, 0x2E] State.reset)) = some ([0x2E], true) := by decide
/-- R73: an incomplete operation waits. -/
theorem test_step_waits :
    st? (step (deliver [0x22, 0x34] State.reset)) = some (deliver [0x22, 0x34] State.reset) := by decide
/-- R97. -/
theorem test_fault_state :
    exec (.frFeed [0x2A]) { State.reset with ps := { State.reset.ps with state := 6 } } = .fault .modelFaultState := rfl
/-- 93_implementation_defined.md item 8 (log 9). -/
theorem test_fault_err : exec .pktSuccess (pk [] 0 3) = .fault .modelFaultErr := rfl

/-- 00_scope.md R13: the six ends of the digit ranges, and the bytes just outside them. -/
theorem test_hexVal :
    [0x30, 0x39, 0x41, 0x46, 0x61, 0x66].map hexVal? = [some 0, some 9, some 10, some 15, some 10, some 15] ∧
    [0x2F, 0x3A, 0x40, 0x47, 0x60, 0x67].map hexVal? = [none, none, none, none, none, none] := by decide

/-! ## Assembler (30_encoding.md R77) -/

theorem test_assemble :
    Assembler.assemble ["PKT_PACK_U16 0x1234".toList, "FR_FEED \"*IR\\r\\n\"".toList, "FR_SEND_PARAM CH, 0x0E".toList,
      "PKT_PACK_BYTES [A5 00 70] ; raw".toList, "PKT_INIT 1".toList] =
    some [0x22, 0x34, 0x12, 0x10, 0x05, 0x2A, 0x49, 0x52, 0x0D, 0x0A, 0x12, 0x43, 0x48, 0x0E,
          0x25, 0x03, 0xA5, 0x00, 0x70, 0x20, 0x01] := by decide

/-- 30_encoding.md R78: the pseudo-instructions with a fixed expansion; the others have none (log 13). -/
theorem test_assemble_pseudo :
    Assembler.assemble ["CD_RECEIVE [01 80 A5 00 70]".toList] =
      some [0x20, 0x00, 0x25, 0x05, 0x01, 0x80, 0xA5, 0x00, 0x70, 0x35, 0x2E] ∧
    Assembler.assemble ["FR_FEED_BYTES \"*IR\"".toList] = some [0x10, 0x03, 0x2A, 0x49, 0x52] ∧
    Assembler.assemble ["PKT_SEND".toList] = none ∧ Assembler.assemble ["CD_SEND".toList] = none := by decide

/-! ## Witnesses: a concrete state and operands that meet the hypotheses of each statement, clause by clause -/

/-- A state with its parser replaced. -/
def psr (p : Parser) : State := { State.reset with ps := p }

/-- The parser of a fed state has every register the statements' premises speak of. -/
def dataState : State := fed (ascii "*DR=08" ++ [1, 2, 3, 4, 5, 6, 7])

/-- COMMAND with two token bytes, LENGTH at its second digit, TAIL_HAS_DATA and TAIL at their second byte. -/
def commandState : State := fed (ascii "*DR")
def lengthState : State := fed (ascii "*DR=0")
def tailDataState : State := fed (ascii "*DR=08" ++ [1, 2, 3, 4, 5, 6, 7, 8, 0x0D])
def tailState : State := fed (ascii "*IR" ++ [0x0D])

theorem witness_IllegalConfigurationRejected :
    254 < (⟨255, 1, 0⟩ : Config).maxPayload ∧ (⟨254, 1, 1⟩ : Config).maxPayload ≤ 254 ∧
    1 ≤ (⟨254, 1, 1⟩ : Config).idWidth ∧ (⟨254, 1, 1⟩ : Config).pktId < 2 ^ (⟨254, 1, 1⟩ : Config).idWidth := by decide

/-- The premise of ResetLeavesTheListedValues, FreshBlockActsAsInitialised, ConfigurationIsReadOnly,
RefusedMarkNeverCleared and OnlyQueriesRespond. -/
theorem witness_construct : State.construct ⟨0, 1, 1⟩ Unspecified.zero = some (State.resetAt 0 1 1 Unspecified.zero) := by
  decide

/-- The premises of the frame statements: an operation and a step that answer a next state. -/
theorem witness_ConfigurationIsReadOnly :
    exec (.cdSetButton 15 1) State.reset = .next (cdv 0x8000 0 0 0 State.reset) ∧
    step (deliver [0x30, 0x0F, 0x01] State.reset) = .next (cdv 0x8000 0 0 0 State.reset) := ⟨rfl, rfl⟩

/-- Unspecified registers at reset: all eight packet bytes and both payload bytes set. -/
def fullBuffers : Unspecified :=
  { Unspecified.zero with
    buf := Memory.writeRun [] 0 (List.replicate 8 0xFF)
    data := [(0, 1), (1, 2)] }

/-- Contents that fit the configuration. -/
theorem witness_ConstructedStatesMeetInvariant :
    fullBuffers.Fits 2 ∧ (State.construct ⟨2, 8, 0⟩ fullBuffers).isSome = true := by decide

/-- The premises of StepKeepsInvariant and NothingTrapsOrHalts, in DATA with one byte missing. -/
theorem witness_StepKeepsInvariant :
    (deliver [0x10, 0x01, 0x08] dataState).Inv ∧ (st? (step (deliver [0x10, 0x01, 0x08] dataState))).isSome = true := by
  decide

/-- The premise of ReachableStatesMeetInvariant. -/
theorem witness_reachable : Reachable (State.resetAt 0 1 1 Unspecified.zero) :=
  .reset ⟨0, 1, 1⟩ Unspecified.zero _ (by decide) witness_construct

theorem witness_DecodeInvertsEncode :
    (Instr.frFeed (List.replicate 255 0x2A)).wellFormed = true ∧ (Instr.frFeed []).wellFormed = true := by
  simp only [Instr.wellFormed, List.length_replicate]; decide
theorem witness_DecodedOperationIsItsBytes : decode [0x25, 0x01, 0xAA, 0x2E] = .op (.pktPackBytes [0xAA]) [0x2E] := by decide

theorem witness_IllegalEncodingsRefused :
    (deliver [0x0F, 0x2E] State.reset).cmdPort = 0x0F :: [0x2E] ∧ (deliver [0x13] State.reset).cmdPort = 0x13 :: [] ∧
    (deliver [0x1F] State.reset).cmdPort = 0x1F :: [] ∧ (deliver [0x36] State.reset).cmdPort = 0x36 :: [] ∧
    (deliver [0x20, 0x02] State.reset).cmdPort = 0x20 :: 0x02 :: [] := by decide
theorem witness_StepRunsTheDecodedOperation :
    (Instr.pktPackU16 0x1234).wellFormed = true ∧
    (deliver [0x22, 0x34, 0x12, 0x2E] State.reset).cmdPort = encode (.pktPackU16 0x1234) ++ [0x2E] ∧
    decode (deliver [0x22, 0x34, 0x12, 0x2E] State.reset).cmdPort = .op (.pktPackU16 0x1234) [0x2E] := by decide
theorem witness_IncompleteOperationWaits :
    (Instr.pktPackU64 1).wellFormed = true ∧ 8 < (encode (.pktPackU64 1)).length ∧
    (deliver [0x24, 1, 0, 0, 0, 0, 0, 0] State.reset).cmdPort = (encode (.pktPackU64 1)).take 8 ∧
    State.reset.cmdPort = (encode (.pktPackU64 1)).take 0 := by decide
theorem witness_RefusedMarkNeverCleared :
    (refuse .illegalOpcode State.reset).refused = true ∧
    decode (deliver [0xFF] State.reset).cmdPort = .rejected .illegalOpcode [] ∧
    (List.replicate 9 (0x00 : Byte)).length > State.reset.maxPayload.val ∧ ¬ (Letter 0x41 ∧ Letter 0x5B) ∧
    ¬ (Letter 0x40 ∧ Letter 0x5A) := by unfold Letter; decide
theorem witness_OnlyQueriesRespond :
    Instr.responseLength? .cdPack State.reset.idWidth State.reset.pkt.len.toNat = none ∧
    (st? (exec .cdPack State.reset)).isSome = true := by decide
theorem witness_ResponsesHaveTheirLength :
    Instr.responseLength? .pktData State.reset.idWidth State.reset.pkt.len.toNat = some 1 ∧
    Instr.responseLength? (.pktUnpackBytes 255) State.reset.idWidth State.reset.pkt.len.toNat = some 256 ∧
    (st? (exec .pktData State.reset)).isSome = true ∧ (st? (exec .pktUnpackU8 State.reset)).isSome = true := by decide
theorem witness_SinkIsAppendOnly : Instr.isFramer .cdPack = false ∧ (st? (exec .cdPack State.reset)).isSome = true := by
  decide
theorem witness_FramerCodecAndEncoderFrames :
    Instr.isFramer (.frFeed [0x2A]) = true ∧ (st? (exec (.frFeed [0x2A]) State.reset)).isSome = true ∧
    Instr.isCodec (.pktPackU8 1) = true ∧ (st? (exec (.pktPackU8 1) State.reset)).isSome = true ∧
    (st? (exec (.frSendData [1]) State.reset)).isSome = true ∧
    (st? (exec (.frSendParam 0x41 0x5A 1) State.reset)).isSome = true := by decide
theorem witness_ControllerDataWrittenOnlyByItsOperations :
    on (fun t => decide (t.cd.mask ≠ State.reset.cd.mask)) (exec (.cdSetButton 0 1) State.reset) = some true ∧
    on (fun t => decide (t.cd.analog ≠ State.reset.cd.analog)) (exec (.cdSetAnalog 5 1) State.reset) = some true ∧
    on (fun t => decide (t.pkt ≠ State.reset.pkt)) (exec .cdPack State.reset) = some true := by decide

/-! ### The inbound parser -/

theorem witness_WaitHeadAwaitsStar : State.reset.ps.state = 0 ∧ (0x2A : Byte) ∉ [0x29, 0x2B, 0x0D, 0x0A] := by decide
/-- Each clause: `IR`, `DR=`, a third byte that matches nothing, a first byte, a second byte that is not `R`. -/
theorem witness_CommandTokenDecides :
    (fed (ascii "*I")).ps.state = 1 ∧ (fed (ascii "*I")).ps.cmd.toList.take (fed (ascii "*I")).ps.cmdCnt.toNat ++ [0x52] =
      [0x49, 0x52] ∧
    commandState.ps.state = 1 ∧ commandState.ps.cmdCnt = 2 ∧
    commandState.ps.cmd.toList.take commandState.ps.cmdCnt.toNat ++ [0x3D] = [0x44, 0x52, 0x3D] ∧
    commandState.ps.cmd.toList.take commandState.ps.cmdCnt.toNat ++ [0x3E] ≠ [0x44, 0x52, 0x3D] ∧
    (fed (ascii "*")).ps.state = 1 ∧ (fed (ascii "*")).ps.cmdCnt = 0 ∧
    (fed (ascii "*I")).ps.cmd.toList.take (fed (ascii "*I")).ps.cmdCnt.toNat ++ [0x53] = [0x49, 0x53] := by decide
/-- The bytes at the edges of the digit ranges are digits, and the bytes beyond them are not. -/
theorem witness_HexDigit :
    HexDigit 0x30 0 ∧ HexDigit 0x39 9 ∧ HexDigit 0x41 10 ∧ HexDigit 0x46 15 ∧ HexDigit 0x61 10 ∧ HexDigit 0x66 15 := by
  unfold HexDigit; decide
theorem witness_NotHex : NotHex 0x2F ∧ NotHex 0x3A ∧ NotHex 0x40 ∧ NotHex 0x47 ∧ NotHex 0x60 ∧ NotHex 0x67 := by
  refine ⟨?_, ?_, ?_, ?_, ?_, ?_⟩ <;> intro v <;> unfold HexDigit <;> simp
/-- Both digit positions; with MAX_PAYLOAD = 8 the second digit 9 is too long, 8 and 1 are accepted and 0 goes to the
footer (`HexDigit` for these digits: `witness_HexDigit`, and the values of R13). -/
theorem witness_LengthDigitsDecide :
    (fed (ascii "*DR=")).ps.state = 2 ∧ (fed (ascii "*DR=")).ps.lenCnt = 0 ∧
    lengthState.ps.state = 2 ∧ lengthState.ps.lenCnt = 1 ∧
    16 * lengthState.ps.lenHi.toNat + 9 > lengthState.maxPayload.val ∧
    16 * lengthState.ps.lenHi.toNat + 8 ≤ lengthState.maxPayload.val ∧ 1 ≤ 16 * lengthState.ps.lenHi.toNat + 1 ∧
    16 * lengthState.ps.lenHi.toNat + 0 = 0 := by decide
/-- The last payload byte, and the first of eight. -/
theorem witness_DataByteStored :
    dataState.ps.state = 3 ∧ dataState.ps.dataCnt.toNat < dataState.ps.declLen.toNat ∧
    dataState.ps.declLen.toNat ≤ dataState.maxPayload.val ∧ Memory.wf dataState.ps.data = true ∧
    dataState.ps.dataCnt.toNat + 1 = dataState.ps.declLen.toNat ∧
    (fed (ascii "*DR=08")).ps.state = 3 ∧
    (fed (ascii "*DR=08")).ps.dataCnt.toNat + 1 < (fed (ascii "*DR=08")).ps.declLen.toNat := by decide
theorem witness_FooterDecides :
    (fed (ascii "*IR")).ps.state = 5 ∧ (fed (ascii "*IR")).ps.tailCnt = 0 ∧
    tailState.ps.state = 5 ∧ tailState.ps.tailCnt = 1 ∧ tailState.ps.tailOk = true ∧
    (fed (ascii "*IRX")).ps.tailCnt = 1 ∧ (fed (ascii "*IRX")).ps.tailOk = false ∧
    tailDataState.ps.state = 4 ∧ tailDataState.ps.tailCnt = 1 ∧ tailDataState.ps.tailOk = true ∧
    tailDataState.ps.declLen.toNat ≤ tailDataState.maxPayload.val := by decide
/-- The longest payload and the shortest. -/
theorem witness_WellFormedFramesDecode :
    State.reset.ps.state = 0 ∧ Memory.wf State.reset.ps.data = true ∧
    [1, 2, 3, 4, 5, 6, 7, (0x2A : Byte)].length ≤ State.reset.maxPayload.val ∧ HexDigit 0x30 0 ∧ HexDigit 0x38 8 ∧
    16 * 0 + 8 = [1, 2, 3, 4, 5, 6, 7, (0x2A : Byte)].length ∧ 16 * 0 + 0 = ([] : List Byte).length := by
  unfold HexDigit; decide
theorem witness_TooLongThenValidFrame :
    State.reset.ps.state = 0 ∧ Memory.wf State.reset.ps.data = true ∧ (0x2A : Byte) ∉ [1, 2, 3, 0x0D, 0x0A] ∧
    [1, 2, (3 : Byte)].length ≤ State.reset.maxPayload.val ∧ HexDigit 0x30 0 ∧ HexDigit 0x33 3 ∧
    16 * 0 + 3 = [1, 2, (3 : Byte)].length := by unfold HexDigit; decide
theorem witness_ChunkingDoesNotMatter : [[0x2A], [0x49, (0x52 : Byte)]].flatten = [[], [0x2A, 0x49], [0x52]].flatten := by
  decide
/-- A byte that ends a frame and a byte that does not. -/
theorem witness_OneEventPerFrame :
    tailState.ps.state ≠ 0 ∧ on (fun t => t.ps.state) (exec (.frFeed [0x0A]) tailState) = some 0 ∧
    on (fun t => t.sink) (exec (.frFeed [0x49]) (fed [0x2A])) = some [] := by decide
theorem witness_IllegalParserStateFaults :
    (psr { State.reset.ps with state := 6 }).ps.state = 6 ∧ (psr { State.reset.ps with state := 7 }).ps.state = 7 := by
  decide
/-- From inside DATA, with `G`. -/
theorem witness_FlushReturnsToWaitHead :
    dataState.Inv ∧ (0x47 : Byte) ≠ 0x2A ∧ (0x47 : Byte) ≠ 0x0D ∧ NotHex 0x47 ∧ dataState.maxPayload.val + 2 ≤ 10 ∧
    ¬ TokenTakesThree dataState 0x47 := by
  refine ⟨by decide, by decide, by decide, witness_NotHex.2.2.2.1, by decide, fun h => absurd h.1 (by decide)⟩
/-- A block with MAX_PAYLOAD = 0 that has met a star and then these token bytes. -/
def starState (token : List Byte) : State :=
  (st? (exec (.frFeed (0x2A :: token)) (State.resetAt 0 8 0 Unspecified.zero))).getD State.reset
/-- MAX_PAYLOAD = 0: no token byte, and `I` before `R`, take three copies; `I` before `G` takes two. -/
theorem witness_TokenTakesThree :
    (starState []).Inv ∧ TokenTakesThree (starState []) 0x47 ∧ (starState [0x49]).Inv ∧
    TokenTakesThree (starState [0x49]) 0x52 ∧ ¬ TokenTakesThree (starState [0x49]) 0x47 ∧
    (starState [0x49]).maxPayload.val + 2 ≤ 2 := by
  refine ⟨by decide, ⟨by decide, .inl (by decide)⟩, by decide, ⟨by decide, .inr (by decide)⟩, ?_, by decide⟩
  rintro ⟨_, h | h⟩
  · exact absurd h (by decide)
  · exact absurd h.2.2 (by decide)
/-- 95_test_vectors.md T26, the spec's own example of 70_reset_and_hazards.md R160. -/
theorem test_flush_vector :
    on (fun t => (t.sink, decide t.ps.Idle)) (exec (.frFeed (ascii "*DR=05ABGGGGGGGGGG")) State.reset) =
      some ([.error .footerNotCrlf], true) := by decide
/-- 40_framer_parser.md R87 against 70_reset_and_hazards.md R160 (log 15): after a star, two bytes `G` stay in COMMAND. -/
theorem test_flush_without_payload :
    on (fun t => (t.ps.state, t.ps.cmdCnt)) (exec (.frFeed [0x47, 0x47]) (starState [])) = some (1, 2) := by decide
/-- With MAX_PAYLOAD = 0, right after reset; the byte is `+`. -/
theorem witness_FlushAlsoWithoutPayload :
    Reachable (State.resetAt 0 1 1 Unspecified.zero) ∧ (0x2B : Byte) ≠ 0x2A ∧ (0x2B : Byte) ≠ 0x0D ∧ NotHex 0x2B :=
  ⟨witness_reachable, by decide, by decide, by intro v; unfold HexDigit; simp⟩
theorem witness_FeedReadsOnlyTheParser :
    (pk [1, 2] 1 2).ps = State.reset.ps ∧ (pk [1, 2] 1 2).maxPayload = State.reset.maxPayload ∧
    (st? (exec (.frFeed [0x2A]) State.reset)).isSome = true := by decide

/-! ### The encoder -/

/-- The premise of the encodings with a count, in SendDataRenders and RawPackAppends, at its bound. -/
theorem witness_countedRun : (List.replicate 255 (0x2A : Byte)).length ≤ 255 ∧ ([] : List Byte).length ≤ 255 :=
  ⟨Nat.le_of_eq List.length_replicate, Nat.zero_le _⟩
theorem witness_SendDataRenders :
    (List.replicate 8 (0x0D : Byte)).length ≤ State.reset.maxPayload.val ∧
    (List.replicate 9 (0x0D : Byte)).length > State.reset.maxPayload.val := by decide
theorem witness_SendParamRenders :
    Letter 0x41 ∧ Letter 0x5A ∧ ¬ (Letter 0x40 ∧ Letter 0x41) ∧ ¬ (Letter 0x41 ∧ Letter 0x5B) := by
  unfold Letter; decide
theorem witness_OneEventPerSend :
    on State.refusals (exec (.frSendData [1]) State.reset) = some State.reset.refusals ∧
    on State.refusals (exec (.frSendParam 0x41 0x5A 1) State.reset) = some State.reset.refusals := by decide
theorem witness_EncoderIndependentOfParser :
    (∃ d, Instr.frSendData [1] = .frSendData d) ∧ (∃ p0 p1 v, Instr.frSendParam 0x41 0x5A 1 = .frSendParam p0 p1 v) ∧
    (st? (exec (.frFeed [0x2A]) State.reset)).isSome = true := ⟨⟨_, rfl⟩, ⟨_, _, _, rfl⟩, by decide⟩

/-! ### The packet codec -/

theorem witness_PacketInitialised :
    Memory.wf (pk [1, 0, 3] 1 2).pkt.buf = true ∧ (deliver [0x20, 0xFF] State.reset).cmdPort = 0x20 :: 0xFF :: [] ∧
    (0xFF : Byte).toNat ≥ 2 := by decide
/-- The premises of FixedWidthPacksAppend and RawPackAppends: a field that exactly fills the buffer, one byte too many,
and both sticky errors. -/
theorem witness_Appends :
    Memory.wf (pk [1, 2, 3, 4, 5, 6] 0 0).pkt.buf = true ∧ (pk [1, 2, 3, 4, 5, 6] 0 0).pkt.err = 0 ∧
    (pk [1, 2, 3, 4, 5, 6] 0 0).pkt.len.toNat + 2 ≤ 8 ∧ (pk [1, 2, 3, 4, 5, 6, 7] 0 0).pkt.len.toNat + 2 > 8 ∧
    (pk [] 0 0).pkt.len.toNat + 8 ≤ 8 ∧ (pk [1] 0 0).pkt.len.toNat + 8 > 8 ∧
    (pk [] 0 1).pkt.err = 1 ∧ (pk [] 0 2).pkt.err = 2 := by decide
/-- The premises of FixedWidthUnpacksRead and RawUnpackReads: a read that ends at `pkt_len`, one past it, sticky. -/
theorem witness_Reads :
    (pk [1, 2, 3, 4, 5, 6, 7, 8] 0 0).pkt.err = 0 ∧ (pk [1, 2, 3, 4, 5, 6, 7, 8] 0 0).pkt.len.toNat ≤ 8 ∧
    (pk [1, 2, 3, 4, 5, 6, 7, 8] 0 0).pkt.cur.toNat + 8 ≤ (pk [1, 2, 3, 4, 5, 6, 7, 8] 0 0).pkt.len.toNat ∧
    (pk [1, 2, 3, 4, 5, 6, 7, 8] 1 0).pkt.cur.toNat + 8 > (pk [1, 2, 3, 4, 5, 6, 7, 8] 1 0).pkt.len.toNat ∧
    (pk [] 0 1).pkt.err = 1 ∧ (pk [] 0 2).pkt.err = 2 := by decide
theorem witness_StickyErrorGuards :
    (pk [1, 2, 3, 4, 5, 6, 7, 8] 0 1).pkt.err = 1 ∧ (pk [1, 2, 3, 4, 5, 6, 7, 8] 0 2).pkt.err = 2 ∧
    (pk [1, 2, 3, 4, 5, 6, 7, 8] 0 1).pkt.len.toNat ≤ 8 := by decide
theorem witness_OnlyInitClearsError :
    (pk [] 0 2).pkt.err ≠ 0 ∧ (∀ z, Instr.cdUnpack ≠ .pktInit z) ∧ exec .cdUnpack (pk [] 0 2) = .next (pk [] 0 2) :=
  ⟨by decide, by simp, rfl⟩
theorem witness_SuccessAndStatusRead : (pk [] 0 0).pkt.err ≠ 3 ∧ (pk [] 0 2).pkt.err ≠ 3 := by decide
theorem witness_LengthAndDataRead : (pk [1, 2, 3, 4, 5, 6, 7, 8] 0 0).pkt.len.toNat ≤ 8 := by decide
theorem witness_IdRead :
    (State.resetAt 8 9 0x1FF Unspecified.zero).pkt.id < 2 ^ (State.resetAt 8 9 0x1FF Unspecified.zero).idWidth ∧
    (State.resetAt 8 1 1 Unspecified.zero).pkt.id < 2 ^ (State.resetAt 8 1 1 Unspecified.zero).idWidth := by decide
/-- Eight bytes packed in three fields and read back in two. -/
theorem witness_PackedBytesReadBack :
    Memory.wf State.reset.pkt.buf = true ∧
    ([Field.u32 0xDEADBEEF, .run [], .u16 0x1234, .run [0x2A, 0x00]].flatMap Field.bytes).length ≤ 8 ∧
    ([ReadOp.run 0, .u16, .run 6].map ReadOp.width).sum ≤
      ([Field.u32 0xDEADBEEF, .run [], .u16 0x1234, .run [0x2A, 0x00]].flatMap Field.bytes).length := by decide
/-- A pack that succeeds, a pack that overflows, an unpack after it. -/
theorem witness_ChainStopsAtFirstFailure :
    (∀ j ∈ [Instr.pktPackU8 1] ++ [Instr.pktPackU64 2] ++ [Instr.pktUnpackU8], j.isPackOrUnpack = true) ∧
    (pk [] 0 0).pkt.err = 0 ∧ execAll [.pktPackU8 1] (pk [] 0 0) = .next (pk [1] 0 0) ∧ (pk [1] 0 0).pkt.err = 0 ∧
    exec (.pktPackU64 2) (pk [1] 0 0) = .next (pk [1] 0 1) ∧ (pk [1] 0 1).pkt.err ≠ 0 ∧
    execAll [.pktUnpackU8] (pk [1] 0 1) = .next (respond [0x00, 0x00] (pk [1] 0 1)) :=
  ⟨by decide, by decide, rfl, by decide, rfl, by decide, rfl⟩

/-! ### Controller data and the whole block -/

/-- Both mask-and-analog edges, both mask-only edges, both edges where nothing fits, and the sticky errors. -/
theorem witness_ControllerPacked :
    Memory.wf (pk [1, 2, 3] 0 0).pkt.buf = true ∧ (pk [] 0 0).pkt.len.toNat ≤ 3 ∧ (pk [1, 2, 3] 0 0).pkt.len.toNat ≤ 3 ∧
    4 ≤ (pk [1, 2, 3, 4] 0 0).pkt.len.toNat ∧ (pk [1, 2, 3, 4, 5, 6] 0 0).pkt.len.toNat ≤ 6 ∧
    7 ≤ (pk [1, 2, 3, 4, 5, 6, 7] 0 0).pkt.len.toNat ∧ (pk [] 0 1).pkt.err = 1 ∧ (pk [] 0 2).pkt.err = 2 := by decide
theorem witness_ControllerUnpacked :
    (3 : Nat) = (pk [1, 2, 3, 4, 5, 6, 7, 8] 3 0).pkt.cur.toNat ∧ (pk [1, 2, 3, 4, 5, 6, 7, 8] 3 0).pkt.len.toNat ≤ 8 ∧
    3 + 5 ≤ (pk [1, 2, 3, 4, 5, 6, 7, 8] 3 0).pkt.len.toNat ∧
    (4 : Nat) = (pk [1, 2, 3, 4, 5, 6, 7, 8] 4 0).pkt.cur.toNat ∧
    4 + 2 ≤ (pk [1, 2, 3, 4, 5, 6, 7, 8] 4 0).pkt.len.toNat ∧ (pk [1, 2, 3, 4, 5, 6, 7, 8] 4 0).pkt.len.toNat < 4 + 5 ∧
    0 + 2 ≤ (pk [1, 2] 0 0).pkt.len.toNat ∧ (pk [1, 2] 0 0).pkt.len.toNat < 0 + 5 ∧
    (pk [1] 0 0).pkt.len.toNat < 0 + 2 ∧ (pk [] 0 1).pkt.err = 1 ∧ (pk [] 0 2).pkt.err = 2 := by decide
/-- The premises of PayloadBitPositions, ControllerRoundTrip and ControllerSent. -/
theorem witness_controllerState :
    Memory.wf (cdv 0xFFFF 0xF5 0x0A 0x70 State.reset).pkt.buf = true ∧
    (cdv 0xFFFF 0xF5 0x0A 0x70 State.reset).pkt.err = 0 ∧ (cdv 0xFFFF 0xF5 0x0A 0x70 State.reset).pkt.len = 0 ∧
    5 ≤ (State.resetAt 5 8 0 Unspecified.zero).maxPayload.val ∧
    Memory.wf (State.resetAt 5 8 0 Unspecified.zero).pkt.buf = true := by decide
/-- Lengths on both sides of each bound. -/
theorem witness_PayloadLengthAgainstCapacity :
    Memory.wf State.reset.pkt.buf = true ∧ (List.replicate 9 (0x00 : Byte)).length > 8 ∧
    (List.replicate 4 (0x00 : Byte)).length < 5 ∧ (List.replicate 1 (0x00 : Byte)).length < 2 ∧
    2 ≤ (List.replicate 2 (0x00 : Byte)).length ∧ 5 ≤ (List.replicate 5 (0x00 : Byte)).length ∧
    (List.replicate 8 (0x00 : Byte)).length ≤ 8 := by decide
theorem witness_ControllerValueCrossesTheLink :
    Memory.wf (cdv 0x8001 0xA5 0 0x70 State.reset).pkt.buf = true ∧ Memory.wf State.reset.pkt.buf = true ∧
    Memory.wf State.reset.ps.data = true ∧ State.reset.ps.state = 0 ∧ 5 ≤ State.reset.maxPayload.val := by decide
/-- Two blocks that differ in an unpacked byte and in parser registers without meaning. -/
theorem witness_UnspecifiedRegistersUnobservable :
    State.reset.Inv ∧ (State.resetAt 8 8 0 { Unspecified.zero with buf := [(7, 1)], lenHi := 5, tailOk := true }).Inv ∧
    LooksAlike State.reset (State.resetAt 8 8 0 { Unspecified.zero with buf := [(7, 1)], lenHi := 5, tailOk := true }) ∧
    step State.reset = .next State.reset := by
  refine ⟨by decide, by decide, ?_, rfl⟩
  refine ⟨⟨rfl, rfl, rfl, rfl, fun a h => absurd h (Nat.not_lt_zero a)⟩, rfl, ⟨rfl, rfl, rfl, rfl, rfl⟩, ?_, ?_, ?_, ?_, rfl,
    rfl, rfl, rfl, rfl, rfl⟩ <;> intro h
  · exact absurd h (by decide)
  · exact absurd h (by decide)
  · exact absurd h (by decide)
  · exact absurd h (by decide)

end Sys2Proof.Tests
end

/-! The proofs of the family 00_scope.md: the configuration check (R7), the step as the decoded operation's meaning
(R18), the frames of the framer and the codec (R2), and a controller value on its way between two blocks (R139). -/

namespace Sys2Proof

/-! ## Decoding what the encoder wrote (30_encoding.md R69 to R71) -/

/-- PKT_INIT's operand byte gives back the zero option. -/
theorem decodeInit_zeroOption (z : Bool) (rest : List Byte) :
    decodeInit ((if z then 0x01 else 0x00) :: rest) = .op (.pktInit z) rest := by
  cases z <;> rfl

/-- FV_W gives back a field of W bytes from its little-endian bytes (00_scope.md R10). -/
theorem decodeFV_leBytes_toNat (w : Nat) (mk : BitVec (8 * w) → Instr) (v : BitVec (8 * w)) (rest : List Byte) :
    decodeFV w (fun n => mk (BitVec.ofNat (8 * w) n)) (leBytes w v.toNat ++ rest) = .op (mk v) rest := by
  have hv : v.toNat < 256 ^ w := by simpa [Nat.pow_mul] using v.isLt
  rw [decodeFV_append w _ v.toNat rest hv, BitVec.ofNat_toNat, BitVec.setWidth_eq]

/-- The decoder reads a well-formed operation from its bytes and leaves the bytes after it. -/
theorem decode_encode_append {i : Instr} (hi : i.wellFormed = true) (rest : List Byte) :
    decode (encode i ++ rest) = .op i rest := by
  cases i with
  | frFeed d => exact decodeFN_append .frFeed d rest (of_decide_eq_true hi)
  | frSendData d => exact decodeFN_append .frSendData d rest (of_decide_eq_true hi)
  | pktPackBytes d => exact decodeFN_append .pktPackBytes d rest (of_decide_eq_true hi)
  | pktInit z => exact decodeInit_zeroOption z rest
  | pktPackU8 v => exact decodeFV_leBytes_toNat 1 .pktPackU8 v rest
  | pktPackU16 v => exact decodeFV_leBytes_toNat 2 .pktPackU16 v rest
  | pktPackU32 v => exact decodeFV_leBytes_toNat 4 .pktPackU32 v rest
  | pktPackU64 v => exact decodeFV_leBytes_toNat 8 .pktPackU64 v rest
  | _ => rfl

/-! ## The operation classes (R70) -/

/-- No codec operation is a framer operation. -/
theorem Instr.isFramer_of_isCodec {i : Instr} (h : i.isCodec = true) : i.isFramer = false := by
  revert h
  cases i <;> simp [Instr.isCodec, Instr.isFramer]

end Sys2Proof

namespace Sys2Proof.Machine

open Sys2Proof.Claims

/-! ## Reset (00_scope.md R7) -/

theorem construct_of_legal {c : Config} (h : c.legal) (u : Unspecified) :
    State.construct c u = some (State.resetAt ⟨c.maxPayload, Nat.lt_succ_of_le h.1⟩ c.idWidth c.pktId u) :=
  dif_pos h

theorem construct_of_not_legal {c : Config} (h : ¬ c.legal) (u : Unspecified) : State.construct c u = none := dif_neg h

/-! ## The step (00_scope.md R18) -/

theorem step_of_decode_op {s : State} {i : Instr} {rest : List Byte} (h : decode s.cmdPort = .op i rest) :
    step s = exec i (withPort rest s) := by
  simp only [step, h]

/-! ## Frames of the units (00_scope.md R2) -/

/-- A framer operation leaves the codec, the controller data and the response port alone. -/
theorem exec_framer_frame {i : Instr} {s t : State} (hi : i.isFramer = true) (h : exec i s = .next t) :
    t.pkt = s.pkt ∧ t.cd = s.cd ∧ t.resp = s.resp := by
  cases exec_cases h with
  | feed d _ hf => exact ⟨(feed_frame hf).pkt, (feed_frame hf).cd, (feed_frame hf).resp⟩
  | send f _ ht => subst ht; exact ⟨rfl, rfl, rfl⟩
  | refuse r _ ht => subst ht; exact ⟨rfl, rfl, rfl⟩
  | pack bs _ hc => simp [Instr.isFramer_of_isCodec hc] at hi
  | unpack m _ hc => simp [Instr.isFramer_of_isCodec hc] at hi
  | query bs hq => simp [hq] at hi
  | init z e => subst e; cases hi
  | setButton j v m e => subst e; cases hi
  | setAnalog c v a e => subst e; cases hi
  | cdPack e => subst e; cases hi
  | cdUnpack e => subst e; cases hi

/-- An operation of another unit leaves the parser and the refusals alone. -/
theorem exec_nonFramer_frame {i : Instr} {s t : State} (hi : i.isFramer = false) (h : exec i s = .next t) :
    t.ps = s.ps ∧ t.refusals = s.refusals := by
  cases exec_cases h with
  | feed d e => subst e; cases hi
  | send f hf => simp [hf] at hi
  | refuse r hf => simp [hf] at hi
  | init z _ ht => subst ht; exact ⟨rfl, rfl⟩
  | pack bs _ _ _ hp => exact ⟨(guardedPack_frame hp).1.ps, (guardedPack_frame hp).1.refusals⟩
  | unpack m _ _ _ hu => exact ⟨(unpackRespond_frame hu).1.ps, (unpackRespond_frame hu).1.refusals⟩
  | query bs _ _ _ ht => subst ht; exact ⟨rfl, rfl⟩
  | setButton j v m _ ht => subst ht; exact ⟨rfl, rfl⟩
  | setAnalog c v a _ ht => subst ht; exact ⟨rfl, rfl⟩
  | cdPack _ hp => exact ⟨(execCdPack_frame hp).1.ps, (execCdPack_frame hp).1.refusals⟩
  | cdUnpack _ hu => exact ⟨(execCdUnpack_frame hu).ps, (execCdUnpack_frame hu).refusals⟩

/-- A codec operation leaves the ControllerData value alone. -/
theorem exec_codec_cd {i : Instr} {s t : State} (hi : i.isCodec = true) (h : exec i s = .next t) : t.cd = s.cd := by
  cases exec_cases h with
  | feed d e => subst e; cases hi
  | send f hf => simp [Instr.isFramer_of_isCodec hi] at hf
  | refuse r hf => simp [Instr.isFramer_of_isCodec hi] at hf
  | init z _ ht => subst ht; rfl
  | pack bs _ _ _ hp => exact (guardedPack_frame hp).1.cd
  | unpack m _ _ _ hu => exact (unpackRespond_frame hu).1.cd
  | query bs _ _ _ ht => subst ht; rfl
  | setButton j v m e => subst e; cases hi
  | setAnalog c v a e => subst e; cases hi
  | cdPack e => subst e; cases hi
  | cdUnpack e => subst e; cases hi

theorem exec_frSendData_ps {d : List Byte} {s t : State} (h : exec (.frSendData d) s = .next t) : t.ps = s.ps := by
  simp only [exec, execFrSendData, Host.Outcome.next.injEq] at h
  subst h
  split <;> rfl

theorem exec_frSendParam_ps {p0 p1 v : Byte} {s t : State} (h : exec (.frSendParam p0 p1 v) s = .next t) :
    t.ps = s.ps := by
  simp only [exec, execFrSendParam, Host.Outcome.next.injEq] at h
  subst h
  split <;> rfl

/-! ## Packing a controller value (43_controller_data.md R137) -/

/-- The mask little-endian and then the three analog bytes are the five payload bytes (20_memory.md R47). -/
theorem leBytes_mask_append_analog (cd : Controller) :
    leBytes 2 cd.mask.toNat ++ cd.analog.toList = payloadBytes cd := by
  simp [leBytes_two, payloadBytes, Bytes3.toList]

/-- With room for five bytes CD_PACK appends the payload. -/
theorem exec_cdPack_fits {s : State} (h0 : s.pkt.err = 0) (hl : s.pkt.len.toNat + 5 ≤ Config.capacity) :
    exec .cdPack s = .next { s with
      pkt := { s.pkt with buf := Memory.writeRun s.pkt.buf s.pkt.len.toNat (payloadBytes s.cd)
                          len := BitVec.ofNat 4 (s.pkt.len.toNat + 5) } } := by
  have hmask : (s.pkt.len.toNat + 2) % 16 = s.pkt.len.toNat + 2 := by simp [Config.capacity] at hl; omega
  simp only [exec, execCdPack, guardedPack_of_ok _ h0]
  rw [packCore_fits (by simp; omega), guardedPack_of_ok _ (by exact h0),
    packCore_fits (by simp [hmask, Bytes3.toList]; omega)]
  simp [ofExcept, hmask, ← leBytes_mask_append_analog, Memory.writeRun_append, Bytes3.toList, Nat.add_assoc]

/-! ## Unpacking a controller value (43_controller_data.md R138) -/

theorem unpackMask_fits {s : State} (h0 : s.pkt.err = 0) (hm : s.pkt.cur.toNat + 2 ≤ s.pkt.len.toNat)
    (hl : s.pkt.len.toNat ≤ Config.capacity) :
    unpackMask s = .ok { s with
      pkt := { s.pkt with cur := BitVec.ofNat 4 (s.pkt.cur.toNat + 2) }
      cd := { s.cd with mask := BitVec.ofNat 16 (fromLE (Memory.readRun s.pkt.buf s.pkt.cur.toNat 2)) } } := by
  simp only [unpackMask, guardedUnpack_fits h0 hm hl]

theorem unpackAnalog_fits {s : State} (h0 : s.pkt.err = 0) (hm : s.pkt.cur.toNat + 3 ≤ s.pkt.len.toNat)
    (hl : s.pkt.len.toNat ≤ Config.capacity) :
    unpackAnalog s = .ok { s with
      pkt := { s.pkt with cur := BitVec.ofNat 4 (s.pkt.cur.toNat + 3) }
      cd := { s.cd with analog := Bytes3.ofList (Memory.readRun s.pkt.buf s.pkt.cur.toNat 3) } } := by
  simp only [unpackAnalog, guardedUnpack_fits h0 hm hl]

/-- With five bytes to read CD_UNPACK reads the mask from the first two and the analog bytes from the rest. -/
theorem exec_cdUnpack_fits {s : State} (h0 : s.pkt.err = 0) (hm : s.pkt.cur.toNat + 5 ≤ s.pkt.len.toNat)
    (hl : s.pkt.len.toNat ≤ Config.capacity) :
    exec .cdUnpack s = .next { s with
      pkt := { s.pkt with cur := BitVec.ofNat 4 (s.pkt.cur.toNat + 5) }
      cd := { mask := BitVec.ofNat 16 (fromLE (Memory.readRun s.pkt.buf s.pkt.cur.toNat 2))
              analog := Bytes3.ofList (Memory.readRun s.pkt.buf (s.pkt.cur.toNat + 2) 3) } } := by
  have hcur : (s.pkt.cur.toNat + 2) % 16 = s.pkt.cur.toNat + 2 := by simp [Config.capacity] at hl; omega
  simp only [exec, execCdUnpack, unpackMask_fits h0 (by omega) hl]
  rw [unpackAnalog_fits (by exact h0) (by simp [hcur]; omega) (by exact hl)]
  simp [ofExcept, hcur, Nat.add_assoc]

/-- Where the payload of a controller value stands at the cursor, CD_UNPACK reads that value. -/
theorem exec_cdUnpack_payloadBytes {s : State} {cd : Controller} (h0 : s.pkt.err = 0)
    (hm : s.pkt.cur.toNat + 5 ≤ s.pkt.len.toNat) (hl : s.pkt.len.toNat ≤ Config.capacity)
    (hb : Memory.readRun s.pkt.buf s.pkt.cur.toNat 5 = payloadBytes cd) :
    exec .cdUnpack s = .next { s with
      pkt := { s.pkt with cur := BitVec.ofNat 4 (s.pkt.cur.toNat + 5) }, cd := cd } := by
  rw [Memory.readRun_add _ _ 2 3, ← leBytes_mask_append_analog] at hb
  obtain ⟨hmask, hanalog⟩ := List.append_inj hb (by simp)
  rw [exec_cdUnpack_fits h0 hm hl, hmask, hanalog, fromLE_leBytes 2 _ cd.mask.isLt]
  simp [Bytes3.ofList, Bytes3.toList]

/-! ## A payload through a fresh packet (30_encoding.md R78) -/

@[simp] theorem payloadBytes_length (cd : Controller) : (payloadBytes cd).length = 5 := rfl

/-- `packetBytes` is a run of the packet buffer. -/
theorem packetBytes_eq_readRun (s : State) (pos n : Nat) : packetBytes s pos n = Memory.readRun s.pkt.buf pos n :=
  (Memory.readRun_eq_map s.pkt.buf pos n).symm

/-- PKT_INIT 0 and CD_PACK leave the packet with exactly the payload of the controller value. -/
theorem execAll_init_cdPack {s : State} (hw : Memory.wf s.pkt.buf = true) :
    ∃ t, execAll [.pktInit false, .cdPack] s = .next t ∧ packetBytes t 0 5 = payloadBytes s.cd := by
  refine ⟨_, exec_cdPack_fits (s := initPacket false s) rfl (by simp [Config.capacity]), ?_⟩
  rw [packetBytes_eq_readRun]
  exact Memory.readRun_writeRun_self hw 0 (payloadBytes s.cd)

/-- The packet after PKT_INIT 0 and PKT_PACK_BYTES of a run that fits: the run from position 0 on, unread. -/
def withPackedBytes (bs : List Byte) (s : State) : State :=
  { s with
    pkt := { s.pkt with buf := Memory.writeRun s.pkt.buf 0 bs
                        len := BitVec.ofNat 4 bs.length
                        cur := 0
                        err := 0 } }

theorem exec_pktPackBytes_initPacket {bs : List Byte} (h : bs.length ≤ Config.capacity) (s : State) :
    exec (.pktPackBytes bs) (initPacket false s) = .next (withPackedBytes bs s) := by
  have hfits : (initPacket false s).pkt.len.toNat + bs.length ≤ Config.capacity := by simpa using h
  simp only [exec, execPktPackBytes, guardedPack_of_ok bs (initPacket_pkt_err false s), packCore_fits hfits]
  simp [ofExcept, withPackedBytes, initPacket, CodecErr.bits]

theorem execAll_cons_of_next {i : Instr} {s t : State} (is : List Instr) (h : exec i s = .next t) :
    execAll (i :: is) s = execAll is t := by
  rw [execAll_cons, h, andThen_next]

theorem exec_pktSuccess_of_ok {s : State} (h0 : s.pkt.err = 0) : exec .pktSuccess s = .next (respond [0x01] s) := by
  simp only [exec, execPktSuccess, readErr_eq (e := .ok) h0, CodecErr.success, boolByte, if_true]

/-- CD_RECEIVE of a controller value's payload takes the value in, answers success and leaves the parser alone. -/
theorem execAll_cdReceive_payloadBytes {s : State} (hw : Memory.wf s.pkt.buf = true) (cd : Controller) :
    ∃ t, execAll (cdReceive (payloadBytes cd)) s = .next t ∧
      t.cd = cd ∧ t.resp = s.resp ++ [0x01] ∧ t.ps = s.ps := by
  have hinit : exec (.pktInit false) s = .next (initPacket false s) := rfl
  have hpack := exec_pktPackBytes_initPacket (bs := payloadBytes cd) (by simp [Config.capacity]) s
  have hunpack := exec_cdUnpack_payloadBytes (s := withPackedBytes (payloadBytes cd) s) (cd := cd) rfl
    (by simp [withPackedBytes]) (by simp [withPackedBytes, Config.capacity])
    (Memory.readRun_writeRun_self hw 0 (payloadBytes cd))
  refine ⟨respond [0x01] { s with pkt := { (withPackedBytes (payloadBytes cd) s).pkt with cur := 5 }, cd := cd },
    ?_, rfl, rfl, rfl⟩
  rw [cdReceive, execAll_cons_of_next _ hinit, execAll_cons_of_next _ hpack, execAll_cons_of_next _ hunpack]
  exact execAll_cons_of_next [] (exec_pktSuccess_of_ok rfl)

/-! ## The payload buffer (20_memory.md R42) -/

/-- A byte written after a run extends the run. -/
theorem Memory.readRun_write_succ {m : Memory} (hw : Memory.wf m = true) (a n : Nat) (b : Byte) :
    Memory.readRun (Memory.write m (a + n) b) a (n + 1) = Memory.readRun m a n ++ [b] := by
  have hbefore : Memory.readRun (Memory.write m (a + n) b) a n = Memory.readRun m a n :=
    Memory.readRun_congr fun p _ hp => Memory.read_write_of_ne m b (by omega)
  rw [Memory.readRun_add, hbefore]
  simp only [Memory.readRun, Memory.read_write_self hw]

/-! ## Receiving a data frame (40_framer_parser.md R80, 30_encoding.md R62) -/

theorem feed_append_of_ok {a : List Byte} {s t : State} (b : List Byte) (h : feed a s = .ok t) :
    feed (a ++ b) s = feed b t := by
  rw [feed_append, h]

theorem feed_cons_of_ok {b : Byte} {s t : State} (bs : List Byte) (h : stepByte b s = .ok t) :
    feed (b :: bs) s = feed bs t := by
  simp only [feed, h]

/-- The parser has accepted a length of `n` bytes and holds the payload bytes `d`: it is in DATA while some are missing,
and then before the first footer byte. -/
structure HoldsPayload (n : Nat) (d : List Byte) (s : State) : Prop where
  declLen : s.ps.declLen.toNat = n
  dataCnt : s.ps.dataCnt.toNat = d.length
  bytes : Memory.readRun s.ps.data 0 d.length = d
  wf : Memory.wf s.ps.data = true
  inData : d.length < n → s.ps.state = ParserState.data.bits
  inTail : d.length = n → s.ps.state = ParserState.tailHasData.bits ∧ s.ps.tailCnt = 0

/-- In WAIT_HEAD a star opens a frame (R82). -/
theorem stepByte_star {s : State} (hs : s.ps.state = 0) :
    stepByte 0x2A s = .ok { s with ps := { s.ps with cmdCnt := 0, state := ParserState.command.bits } } := by
  have hp : parserState? s.ps.state = some .waitHead := parserState?_eq_some.mpr hs
  simp only [stepByte, hp, stepWaitHead, if_true]

/-- A star and the token `DR=` lead from WAIT_HEAD to the first length digit (R82, R85, R86). -/
theorem feed_head_tokenDR {s : State} (hs : s.ps.state = 0) :
    ∃ t, feed [0x2A, 0x44, 0x52, 0x3D] s = .ok t ∧ t.ps.state = ParserState.length.bits ∧ t.ps.lenCnt = 0 ∧
      t.ps.data = s.ps.data ∧ t.sink = s.sink := by
  have htoken := feed_cons_of_ok [0x44, 0x52, 0x3D] (stepByte_star hs)
  exact ⟨_, htoken, rfl, rfl, rfl, rfl⟩

theorem stepByte_of_length {s : State} (hs : s.ps.state = ParserState.length.bits) (b : Byte) :
    stepByte b s = .ok (stepLength b s) := by
  simp only [stepByte, hs, parserState?_bits]

theorem stepByte_of_data {s : State} (hs : s.ps.state = ParserState.data.bits) (b : Byte) :
    stepByte b s = stepData b s := by
  simp only [stepByte, hs, parserState?_bits]

theorem stepByte_of_tailHasData {s : State} (hs : s.ps.state = ParserState.tailHasData.bits) (b : Byte) :
    stepByte b s = stepTail true b s := by
  simp only [stepByte, hs, parserState?_bits]

/-- The first length digit is held (R89). -/
theorem stepLength_first {s : State} {h : Byte} {vh : BitVec 4} (hc : s.ps.lenCnt = 0) (hh : hexVal? h = some vh) :
    stepLength h s = { s with ps := { s.ps with lenHi := vh, lenCnt := 1 } } := by
  simp only [stepLength, hh, hc, if_true]

/-- The second length digit of a length up to MAX_PAYLOAD leaves the parser waiting for that payload (R91). -/
theorem stepLength_second {s : State} {l : Byte} {vl : BitVec 4} {n : Nat} (hc : s.ps.lenCnt = 1)
    (hw : Memory.wf s.ps.data = true) (hl : hexVal? l = some vl) (hn : 16 * s.ps.lenHi.toNat + vl.toNat = n)
    (hmax : n ≤ s.maxPayload.val) :
    HoldsPayload n [] (stepLength l s) ∧ (stepLength l s).sink = s.sink := by
  have hlt : n < 256 := by omega
  simp only [stepLength, hl, hc, hn, if_neg (show ¬ (1 : BitVec 1) = 0 by decide), if_neg (Nat.not_lt.mpr hmax)]
  by_cases h0 : n = 0
  · rw [if_pos h0]
    exact ⟨⟨by simp [hlt], rfl, rfl, hw, fun h => by simp [h0] at h, fun _ => ⟨rfl, rfl⟩⟩, rfl⟩
  · rw [if_neg h0]
    exact ⟨⟨by simp [hlt], rfl, rfl, hw, fun _ => rfl, fun h => absurd h.symm h0⟩, rfl⟩

/-- Two digits of a length up to MAX_PAYLOAD leave the parser waiting for that payload (R88, R89, R91). -/
theorem feed_lengthDigits {s : State} {h l : Byte} {vh vl : BitVec 4} {n : Nat}
    (hs : s.ps.state = ParserState.length.bits) (hc : s.ps.lenCnt = 0) (hw : Memory.wf s.ps.data = true)
    (hh : hexVal? h = some vh) (hl : hexVal? l = some vl) (hn : 16 * vh.toNat + vl.toNat = n)
    (hmax : n ≤ s.maxPayload.val) :
    ∃ t, feed [h, l] s = .ok t ∧ HoldsPayload n [] t ∧ t.sink = s.sink := by
  refine ⟨stepLength l { s with ps := { s.ps with lenHi := vh, lenCnt := 1 } }, ?_,
    stepLength_second rfl hw hl hn hmax⟩
  have hfirst := stepByte_of_length hs h
  rw [stepLength_first hc hh] at hfirst
  rw [feed_cons_of_ok [l] hfirst, feed_cons_of_ok [] (stepByte_of_length (by exact hs) l), feed]

/-- DATA takes one byte of a payload that is not complete (R92). -/
theorem stepByte_payload {s : State} {n : Nat} {d : List Byte} (b : Byte) (hd : HoldsPayload n d s)
    (hlt : d.length < n) (hmax : n ≤ s.maxPayload.val) :
    ∃ t, stepByte b s = .ok t ∧ HoldsPayload n (d ++ [b]) t ∧ t.sink = s.sink := by
  have hn : n < 256 := hd.declLen ▸ s.ps.declLen.isLt
  have hcnt : (s.ps.dataCnt + 1).toNat = d.length + 1 := by rw [BitVec.toNat_add, hd.dataCnt]; simp; omega
  have hlast : s.ps.dataCnt + 1 = s.ps.declLen ↔ d.length + 1 = n := by
    rw [← BitVec.toNat_inj, hcnt, hd.declLen]
  have hbytes : Memory.readRun (Memory.write s.ps.data s.ps.dataCnt.toNat b) 0 (d ++ [b]).length = d ++ [b] := by
    have hrun := Memory.readRun_write_succ hd.wf 0 d.length b
    rw [hd.bytes, Nat.zero_add] at hrun
    rw [hd.dataCnt, List.length_append, List.length_singleton, hrun]
  have hwf := Memory.write_wf hd.wf s.ps.dataCnt.toNat b
  rw [stepByte_of_data (hd.inData hlt)]
  simp only [stepData, if_pos (show s.ps.dataCnt.toNat < s.maxPayload.val by rw [hd.dataCnt]; omega), hlast]
  by_cases hend : d.length + 1 = n
  · rw [if_pos hend]
    exact ⟨_, rfl, ⟨hd.declLen, hcnt.trans (by simp), hbytes, hwf,
      fun h => by simp [hend] at h, fun _ => ⟨rfl, rfl⟩⟩, rfl⟩
  · rw [if_neg hend]
    exact ⟨_, rfl, ⟨hd.declLen, hcnt.trans (by simp), hbytes, hwf, fun _ => hd.inData hlt,
      fun h => absurd (by simpa using h) hend⟩, rfl⟩

/-- DATA takes the bytes of a payload one by one (R92). -/
theorem feed_payload {s : State} {n : Nat} {d : List Byte} (p : List Byte) (hd : HoldsPayload n d s)
    (hle : d.length + p.length ≤ n) (hmax : n ≤ s.maxPayload.val) :
    ∃ t, feed p s = .ok t ∧ HoldsPayload n (d ++ p) t ∧ t.sink = s.sink := by
  induction p generalizing s d with
  | nil => exact ⟨s, rfl, by simpa using hd, rfl⟩
  | cons b p ih =>
    rw [List.length_cons] at hle
    obtain ⟨t, ht, hdt, hst⟩ := stepByte_payload b hd (by omega) hmax
    have hmt : t.maxPayload = s.maxPayload := (stepByte_spec ht).1.maxPayload
    obtain ⟨u, hu, hdu, hsu⟩ := ih hdt (by simp; omega) (hmt ▸ hmax)
    exact ⟨u, (feed_cons_of_ok p ht).trans hu, by simpa using hdu, hsu.trans hst⟩

/-- The footer after a complete payload gives it out and leaves the parser idle (R93, R94). -/
theorem feed_footer {s : State} {d : List Byte} (hd : HoldsPayload d.length d s) (hmax : d.length ≤ s.maxPayload.val) :
    ∃ t, feed [0x0D, 0x0A] s = .ok t ∧ t.sink = s.sink ++ [.payload d] ∧ t.ps.Idle := by
  obtain ⟨hstate, hcnt⟩ := hd.inTail rfl
  refine ⟨resetParser (emit (.payload d) { s with ps := { s.ps with tailOk := true, tailCnt := 1 } }), ?_, rfl,
    resetParser_idle _⟩
  simp only [feed, stepByte_of_tailHasData hstate, stepTail, hcnt, if_true]
  rw [stepByte_of_tailHasData (by exact hstate)]
  simp [stepTail, readStore, hd.declLen, hmax, hd.bytes]

/-- A data frame of a payload up to MAX_PAYLOAD gives exactly that payload, whatever the case of its digits. -/
theorem feed_dataFrame {s : State} {h l : Byte} {vh vl : BitVec 4} (d : List Byte) (hs : s.ps.state = 0)
    (hw : Memory.wf s.ps.data = true) (hh : hexVal? h = some vh) (hl : hexVal? l = some vl)
    (hn : 16 * vh.toNat + vl.toNat = d.length) (hmax : d.length ≤ s.maxPayload.val) :
    ∃ t, feed ([0x2A, 0x44, 0x52, 0x3D, h, l] ++ d ++ [0x0D, 0x0A]) s = .ok t ∧
      t.sink = s.sink ++ [.payload d] ∧ t.ps.Idle := by
  obtain ⟨t₁, h₁, hs₁, hc₁, hd₁, hk₁⟩ := feed_head_tokenDR hs
  have hm₁ : t₁.maxPayload = s.maxPayload := (feed_frame h₁).maxPayload
  obtain ⟨t₂, h₂, hd₂, hk₂⟩ := feed_lengthDigits hs₁ hc₁ (hd₁ ▸ hw) hh hl hn (hm₁ ▸ hmax)
  have hm₂ : t₂.maxPayload = s.maxPayload := (feed_frame h₂).maxPayload.trans hm₁
  obtain ⟨t₃, h₃, hd₃, hk₃⟩ := feed_payload d hd₂ (by simp) (hm₂ ▸ hmax)
  have hm₃ : t₃.maxPayload = s.maxPayload := (feed_frame h₃).maxPayload.trans hm₂
  obtain ⟨t₄, h₄, hk₄, hidle⟩ := feed_footer hd₃ (hm₃ ▸ hmax)
  refine ⟨t₄, ?_, by rw [hk₄, hk₃, hk₂, hk₁], hidle⟩
  calc feed ([0x2A, 0x44, 0x52, 0x3D] ++ ([h, l] ++ (d ++ [0x0D, 0x0A]))) s
      = feed ([h, l] ++ (d ++ [0x0D, 0x0A])) t₁ := feed_append_of_ok _ h₁
    _ = feed (d ++ [0x0D, 0x0A]) t₂ := feed_append_of_ok _ h₂
    _ = feed [0x0D, 0x0A] t₃ := feed_append_of_ok _ h₃
    _ = .ok t₄ := h₄

end Sys2Proof.Machine

namespace Sys2Proof

open Sys2Proof.Machine Sys2Proof.Claims

/-- Settles O1: the reset check is `Config.legal`, and MAX_PAYLOAD is latched as given. -/
theorem illegalConfigurationRejected : Obligations.IllegalConfigurationRejected := by
  refine ⟨fun c u h => construct_of_not_legal ?_ u, fun s => s.maxPayload.isLt,
    fun c u hm hw hid => ⟨_, construct_of_legal ⟨hm, hw, hid⟩ u, rfl⟩⟩
  rintro ⟨hm, -, -⟩
  exact absurd hm (Nat.not_le.mpr h)

/-- Settles O14: the step is the decoded operation's meaning, and the decoder inverts the encoder. -/
theorem stepRunsTheDecodedOperation : Obligations.StepRunsTheDecodedOperation := by
  refine ⟨fun s i rest hi hp => step_of_decode_op ?_, fun s i rest hd => step_of_decode_op hd⟩
  rw [hp, decode_encode_append hi rest]

/-- Settles O20, by inversion of `exec` for each class of operations. -/
theorem framerCodecAndEncoderFrames : Obligations.FramerCodecAndEncoderFrames :=
  ⟨fun _ _ _ => exec_framer_frame, fun _ _ _ => exec_nonFramer_frame, fun _ _ _ => exec_codec_cd,
    fun _ _ _ => exec_frSendData_ps, fun _ _ _ _ _ => exec_frSendParam_ps⟩

/-- Settles O59: the packed bytes are the controller value's payload, the frame carries them unchanged, and CD_RECEIVE
reads the value back. -/
theorem controllerValueCrossesTheLink : Obligations.ControllerValueCrossesTheLink := by
  intro s r hs hr hdata hstate hmax
  obtain ⟨t, ht, hp⟩ := execAll_init_cdPack hs
  obtain ⟨u, hu, hsink, hidle⟩ := feed_dataFrame (h := 0x30) (l := 0x35) (vh := 0) (vl := 5) (payloadBytes s.cd)
    hstate hdata (by decide) (by decide) rfl hmax
  have hframe := feed_frame hu
  obtain ⟨v, hv, hcd, hresp, hps⟩ := execAll_cdReceive_payloadBytes (hframe.pkt ▸ hr) s.cd
  exact ⟨t, u, v, payloadBytes s.cd, ht, hp.symm, congrArg ofExcept hu, hsink, hv, hcd,
    hframe.resp ▸ hresp, hps ▸ hidle⟩

end Sys2Proof

/-! The proofs of the family 10_state.md: what every step keeps (R25, R32, R34, R36 to R38), reset (R41), and that the
registers without meaning are never observed (R26, R32). -/

namespace Sys2Proof.Machine

/-! ## The parser's transitions (40_framer_parser.md R80 to R96) -/

/-- The command token with the current byte (R80). -/
def Parser.token (p : Parser) (b : Byte) : List Byte := p.cmd.toList.take p.cmdCnt.toNat ++ [b]

/-- The length that two digits declare, the second one being `d` (R90, R91). -/
def Parser.declared (p : Parser) (d : BitVec 4) : Nat := 16 * p.lenHi.toNat + d.toNat

/-- The parser waits for a footer byte (R93). -/
def Parser.InFooter (p : Parser) : Prop :=
  p.state = ParserState.tailHasData.bits ∨ p.state = ParserState.tail.bits

/-- The parser registers after ResetParser (R81). -/
def Parser.idle (p : Parser) : Parser :=
  { p with state := ParserState.waitHead.bits, cmdCnt := 0, lenCnt := 0, dataCnt := 0, tailCnt := 0 }

/-- One byte on the parser registers of a block with MAX_PAYLOAD `n`: the registers after it and the events it emits, one
rule for each arm of `Step(b)` that completes (R82 to R96). `stepByte_eq_ok_iff` ties it to `stepByte`. -/
inductive ParserStep (n : Nat) (b : Byte) (p : Parser) : Parser → List Event → Prop
  /-- R83 -/
  | discard : p.state = ParserState.waitHead.bits → b ≠ Ascii.star → ParserStep n b p p []
  /-- R82 -/
  | head : p.state = ParserState.waitHead.bits → b = Ascii.star →
      ParserStep n b p { p with cmdCnt := 0, state := ParserState.command.bits } []
  /-- R84 -/
  | tokenIR : p.state = ParserState.command.bits → p.token b = Ascii.tokenIR →
      ParserStep n b p { p with tailCnt := 0, state := ParserState.tail.bits } []
  /-- R85 -/
  | tokenDR : p.state = ParserState.command.bits → p.token b = Ascii.tokenDR →
      ParserStep n b p { p with lenCnt := 0, state := ParserState.length.bits } []
  /-- R86 -/
  | tokenBad : p.state = ParserState.command.bits → p.token b ≠ Ascii.tokenDR → (p.token b).length = 3 →
      ParserStep n b p p.idle [.error .invalidCommand]
  /-- R87 -/
  | tokenGrows : p.state = ParserState.command.bits → p.token b ≠ Ascii.tokenIR → (p.token b).length ≠ 3 →
      p.cmdCnt.toNat < Config.cmdBytes →
      ParserStep n b p { p with cmd := p.cmd.set p.cmdCnt.toNat b, cmdCnt := p.cmdCnt + 1 } []
  /-- R88 -/
  | notHex : p.state = ParserState.length.bits → hexVal? b = none → ParserStep n b p p.idle [.error .lengthNotHex]
  /-- R89 -/
  | firstDigit (d : BitVec 4) : p.state = ParserState.length.bits → hexVal? b = some d → p.lenCnt = 0 →
      ParserStep n b p { p with lenHi := d, lenCnt := 1 } []
  /-- R90 -/
  | tooLong (d : BitVec 4) : p.state = ParserState.length.bits → hexVal? b = some d → p.lenCnt = 1 →
      n < p.declared d → ParserStep n b p p.idle [.error .lengthTooLong]
  /-- R91, no payload -/
  | lengthZero (d : BitVec 4) : p.state = ParserState.length.bits → hexVal? b = some d → p.lenCnt = 1 →
      p.declared d = 0 →
      ParserStep n b p
        { p with declLen := BitVec.ofNat 8 (p.declared d), dataCnt := 0, tailCnt := 0,
                 state := ParserState.tailHasData.bits } []
  /-- R91 -/
  | lengthFits (d : BitVec 4) : p.state = ParserState.length.bits → hexVal? b = some d → p.lenCnt = 1 →
      0 < p.declared d → p.declared d ≤ n →
      ParserStep n b p
        { p with declLen := BitVec.ofNat 8 (p.declared d), dataCnt := 0, state := ParserState.data.bits } []
  /-- R92, more bytes to come -/
  | dataByte : p.state = ParserState.data.bits → p.dataCnt.toNat < n → p.dataCnt + 1 ≠ p.declLen →
      ParserStep n b p { p with data := Memory.write p.data p.dataCnt.toNat b, dataCnt := p.dataCnt + 1 } []
  /-- R92, the last byte -/
  | lastByte : p.state = ParserState.data.bits → p.dataCnt.toNat < n → p.dataCnt + 1 = p.declLen →
      ParserStep n b p { p with data := Memory.write p.data p.dataCnt.toNat b, dataCnt := p.dataCnt + 1,
                                tailCnt := 0, state := ParserState.tailHasData.bits } []
  /-- R93 -/
  | footerFirst : p.InFooter → p.tailCnt = 0 →
      ParserStep n b p { p with tailOk := decide (b = Ascii.cr), tailCnt := 1 } []
  /-- R95 -/
  | footerBad : p.InFooter → p.tailCnt = 1 → ¬ (p.tailOk = true ∧ b = Ascii.lf) →
      ParserStep n b p p.idle [.error .footerNotCrlf]
  /-- R94 -/
  | payload : p.state = ParserState.tailHasData.bits → p.tailCnt = 1 → p.tailOk = true → b = Ascii.lf →
      p.declLen.toNat ≤ n → ParserStep n b p p.idle [.payload (Memory.readRun p.data 0 p.declLen.toNat)]
  /-- R96 -/
  | collision : p.state = ParserState.tail.bits → p.tailCnt = 1 → p.tailOk = true → b = Ascii.lf →
      ParserStep n b p p.idle [.error .collisionDetected]

/-- A byte takes a state to the one with the parser registers and the events of a transition. -/
def Transition (b : Byte) (s t : State) : Prop :=
  ∃ q evs, ParserStep s.maxPayload.val b s.ps q evs ∧ t = { s with ps := q, sink := s.sink ++ evs }

theorem ParserStep.toTransition {b : Byte} {s : State} {q : Parser} {evs : List Event}
    (h : ParserStep s.maxPayload.val b s.ps q evs) : Transition b s { s with ps := q, sink := s.sink ++ evs } :=
  ⟨q, evs, h, rfl⟩

theorem ParserStep.toTransition_silent {b : Byte} {s : State} {q : Parser}
    (h : ParserStep s.maxPayload.val b s.ps q []) : Transition b s { s with ps := q } :=
  ⟨q, [], h, by simp⟩

/-- A one-bit count is 1 exactly when it is not 0. -/
theorem count_ne_zero_iff (c : BitVec 1) : c ≠ 0 ↔ c = 1 := by
  revert c; decide

theorem stepWaitHead_transition {s : State} (hs : s.ps.state = ParserState.waitHead.bits) (b : Byte) :
    Transition b s (stepWaitHead b s) := by
  unfold stepWaitHead
  split
  case isTrue hb => exact (ParserStep.head hs hb).toTransition_silent
  case isFalse hb => exact (ParserStep.discard hs hb).toTransition_silent

theorem stepCommand_transition {s t : State} {b : Byte} (hs : s.ps.state = ParserState.command.bits)
    (h : stepCommand b s = .ok t) : Transition b s t := by
  simp only [stepCommand] at h
  split at h
  case isTrue hIR => cases h; exact (ParserStep.tokenIR hs hIR).toTransition_silent
  case isFalse hIR =>
  split at h
  case isTrue hDR => cases h; exact (ParserStep.tokenDR hs hDR).toTransition_silent
  case isFalse hDR =>
  split at h
  case isTrue hlen => cases h; exact (ParserStep.tokenBad hs hDR hlen).toTransition
  case isFalse hlen =>
  split at h
  case isTrue hcnt => cases h; exact (ParserStep.tokenGrows hs hIR hlen hcnt).toTransition_silent
  case isFalse hcnt => cases h

/-- The second length digit, by the length that the two digits declare (R90, R91). -/
theorem stepLength_of_lenCnt_one {s : State} {b : Byte} {d : BitVec 4} (hb : hexVal? b = some d) (h1 : s.ps.lenCnt = 1) :
    stepLength b s =
      if s.maxPayload.val < s.ps.declared d then frameError .lengthTooLong s
      else if s.ps.declared d = 0 then
        { s with ps := { s.ps with declLen := BitVec.ofNat 8 (s.ps.declared d), dataCnt := 0, tailCnt := 0,
                                   state := ParserState.tailHasData.bits } }
      else { s with ps := { s.ps with declLen := BitVec.ofNat 8 (s.ps.declared d), dataCnt := 0,
                                      state := ParserState.data.bits } } := by
  simp only [stepLength, hb, if_neg ((count_ne_zero_iff _).mpr h1)]
  rfl

theorem stepLength_transition {s : State} (hs : s.ps.state = ParserState.length.bits) (b : Byte) :
    Transition b s (stepLength b s) := by
  cases hb : hexVal? b with
  | none =>
    simp only [stepLength, hb]
    exact (ParserStep.notHex hs hb).toTransition
  | some d =>
    by_cases h0 : s.ps.lenCnt = 0
    · simp only [stepLength, hb, if_pos h0]
      exact (ParserStep.firstDigit d hs hb h0).toTransition_silent
    · have h1 := (count_ne_zero_iff _).mp h0
      rw [stepLength_of_lenCnt_one hb h1]
      split
      case isTrue hlong => exact (ParserStep.tooLong d hs hb h1 hlong).toTransition
      case isFalse hfits =>
      split
      case isTrue hz => exact (ParserStep.lengthZero d hs hb h1 hz).toTransition_silent
      case isFalse hz =>
        exact (ParserStep.lengthFits d hs hb h1 (Nat.pos_of_ne_zero hz) (Nat.not_lt.mp hfits)).toTransition_silent

theorem stepData_transition {s t : State} {b : Byte} (hs : s.ps.state = ParserState.data.bits)
    (h : stepData b s = .ok t) : Transition b s t := by
  simp only [stepData] at h
  split at h
  case isFalse hn => cases h
  case isTrue hn =>
  cases h
  split
  case isTrue hlast => exact (ParserStep.lastByte hs hn hlast).toTransition_silent
  case isFalse hmore => exact (ParserStep.dataByte hs hn hmore).toTransition_silent

theorem stepTail_transition {s t : State} {b : Byte} {hasData : Bool}
    (hs : s.ps.state = if hasData then ParserState.tailHasData.bits else ParserState.tail.bits)
    (h : stepTail hasData b s = .ok t) : Transition b s t := by
  have hfooter : s.ps.InFooter := by cases hasData <;> simp [Parser.InFooter, hs]
  simp only [stepTail] at h
  split at h
  case isTrue h0 => cases h; exact (ParserStep.footerFirst hfooter h0).toTransition_silent
  case isFalse h0 =>
  have h1 := (count_ne_zero_iff _).mp h0
  split at h
  case isFalse hbad => cases h; exact (ParserStep.footerBad hfooter h1 hbad).toTransition
  case isTrue hgood =>
  cases hasData with
  | false => cases h; exact (ParserStep.collision hs h1 hgood.1 hgood.2).toTransition
  | true =>
    by_cases hn : s.ps.declLen.toNat ≤ s.maxPayload.val
    · simp only [if_true, readStore_of_le _ (show 0 + s.ps.declLen.toNat ≤ s.maxPayload.val by omega)] at h
      cases h; exact (ParserStep.payload hs h1 hgood.1 hgood.2 hn).toTransition
    · simp [readStore, hn] at h

theorem stepByte_transition {s t : State} {b : Byte} (h : stepByte b s = .ok t) : Transition b s t := by
  simp only [stepByte] at h
  split at h <;> rename_i hs
  · cases h; exact stepWaitHead_transition (parserState?_eq_some.mp hs) b
  · exact stepCommand_transition (parserState?_eq_some.mp hs) h
  · cases h; exact stepLength_transition (parserState?_eq_some.mp hs) b
  · exact stepData_transition (parserState?_eq_some.mp hs) h
  · exact stepTail_transition (hasData := true) (parserState?_eq_some.mp hs) h
  · exact stepTail_transition (hasData := false) (parserState?_eq_some.mp hs) h
  · cases h

/-! ### The converse: a transition is a byte step that completes -/

theorem stepByte_of_waitHead {s : State} (hs : s.ps.state = ParserState.waitHead.bits) (b : Byte) :
    stepByte b s = .ok (stepWaitHead b s) := by
  simp only [stepByte, hs, parserState?_bits]

theorem stepByte_of_command {s : State} (hs : s.ps.state = ParserState.command.bits) (b : Byte) :
    stepByte b s = stepCommand b s := by
  simp only [stepByte, hs, parserState?_bits]

theorem stepByte_of_tail {s : State} (hs : s.ps.state = ParserState.tail.bits) (b : Byte) :
    stepByte b s = stepTail false b s := by
  simp only [stepByte, hs, parserState?_bits]

theorem stepByte_of_inFooter {s : State} (hs : s.ps.InFooter) (b : Byte) :
    ∃ hasData, stepByte b s = stepTail hasData b s :=
  hs.elim (fun hs => ⟨true, stepByte_of_tailHasData hs b⟩) (fun hs => ⟨false, stepByte_of_tail hs b⟩)

theorem commandToken_eq (b : Byte) (s : State) : commandToken b s = s.ps.token b := rfl

theorem frameError_eq (c : FrameError) (s : State) :
    frameError c s = { s with ps := s.ps.idle, sink := s.sink ++ [.error c] } := rfl

theorem ParserStep.stepByte_eq {s : State} {b : Byte} {q : Parser} {evs : List Event}
    (h : ParserStep s.maxPayload.val b s.ps q evs) :
    stepByte b s = .ok { s with ps := q, sink := s.sink ++ evs } := by
  cases h with
  | discard hs hb => simp only [stepByte_of_waitHead hs, stepWaitHead, if_neg hb, List.append_nil]
  | head hs hb => simp only [stepByte_of_waitHead hs, stepWaitHead, if_pos hb, List.append_nil]
  | tokenIR hs htok => simp only [stepByte_of_command hs, stepCommand, commandToken_eq, if_pos htok, List.append_nil]
  | tokenDR hs htok =>
    have hIR : s.ps.token b ≠ Ascii.tokenIR := by simp [htok]
    simp only [stepByte_of_command hs, stepCommand, commandToken_eq, if_neg hIR, if_pos htok, List.append_nil]
  | tokenBad hs hDR hlen =>
    have hIR : s.ps.token b ≠ Ascii.tokenIR := fun h => by simp [h] at hlen
    simp only [stepByte_of_command hs, stepCommand, commandToken_eq, if_neg hIR, if_neg hDR, if_pos hlen, frameError_eq]
  | tokenGrows hs hIR hlen hcnt =>
    have hDR : s.ps.token b ≠ Ascii.tokenDR := fun h => by simp [h] at hlen
    simp only [stepByte_of_command hs, stepCommand, commandToken_eq, if_neg hIR, if_neg hDR, if_neg hlen, if_pos hcnt,
      List.append_nil]
  | notHex hs hb => simp only [stepByte_of_length hs, stepLength, hb, frameError_eq]
  | firstDigit d hs hb h0 => simp only [stepByte_of_length hs, stepLength, hb, if_pos h0, List.append_nil]
  | tooLong d hs hb h1 hlong =>
    simp only [stepByte_of_length hs, stepLength_of_lenCnt_one hb h1, if_pos hlong, frameError_eq]
  | lengthZero d hs hb h1 hz =>
    simp only [stepByte_of_length hs, stepLength_of_lenCnt_one hb h1, if_pos hz, List.append_nil,
      if_neg (show ¬ s.maxPayload.val < s.ps.declared d by omega)]
  | lengthFits d hs hb h1 hpos hfits =>
    simp only [stepByte_of_length hs, stepLength_of_lenCnt_one hb h1, if_neg (Nat.not_lt.mpr hfits),
      if_neg (Nat.ne_of_gt hpos), List.append_nil]
  | dataByte hs hn hmore => simp only [stepByte_of_data hs, stepData, if_pos hn, if_neg hmore, List.append_nil]
  | lastByte hs hn hlast => simp only [stepByte_of_data hs, stepData, if_pos hn, if_pos hlast, List.append_nil]
  | footerFirst hs h0 =>
    obtain ⟨hasData, he⟩ := stepByte_of_inFooter hs b
    simp only [he, stepTail, if_pos h0, List.append_nil]
  | footerBad hs h1 hbad =>
    obtain ⟨hasData, he⟩ := stepByte_of_inFooter hs b
    simp only [he, stepTail, if_neg ((count_ne_zero_iff _).mpr h1), if_neg hbad, frameError_eq]
  | payload hs h1 hok hb hn =>
    simp only [stepByte_of_tailHasData hs, stepTail, if_neg ((count_ne_zero_iff _).mpr h1), if_pos (And.intro hok hb), if_true,
      readStore_of_le _ (show 0 + s.ps.declLen.toNat ≤ s.maxPayload.val by omega)]
    rfl
  | collision hs h1 hok hb =>
    simp only [stepByte_of_tail hs, stepTail, if_neg ((count_ne_zero_iff _).mpr h1), if_pos (And.intro hok hb), frameError_eq]
    rfl

/-- A byte step completes exactly along the transitions. -/
theorem stepByte_eq_ok_iff {s t : State} {b : Byte} : stepByte b s = .ok t ↔ Transition b s t :=
  ⟨stepByte_transition, fun ⟨_, _, h, ht⟩ => ht ▸ h.stepByte_eq⟩

end Sys2Proof.Machine

namespace Sys2Proof.Machine

/-! ## The parser's invariant, state by state (10_state.md R32) -/

/-- The payload buffer is canonical and holds no byte beyond MAX_PAYLOAD (R30; log 7). -/
def Parser.StoreInv (n : Nat) (p : Parser) : Prop := Memory.wf p.data = true ∧ Memory.within n p.data = true

theorem Parser.storeInv_of_inv {n : Nat} {p : Parser} (h : p.Inv n) : p.StoreInv n := by
  obtain ⟨-, -, -, -, -, hdata⟩ := h
  exact hdata

theorem Parser.StoreInv.write {n : Nat} {p : Parser} (h : p.StoreInv n) {a : Nat} (ha : a < n) (b : Byte) :
    Memory.wf (Memory.write p.data a b) = true ∧ Memory.within n (Memory.write p.data a b) = true :=
  ⟨Memory.write_wf h.1 a b, Memory.write_within h.2 ha b⟩

theorem Parser.inv_iff_of_waitHead {n : Nat} {p : Parser} (hs : p.state = ParserState.waitHead.bits) :
    p.Inv n ↔ p.CountsZero ∧ p.StoreInv n := by
  simp [Parser.Inv, Parser.StoreInv, hs, ParserState.bits]

theorem Parser.inv_iff_of_command {n : Nat} {p : Parser} (hs : p.state = ParserState.command.bits) :
    p.Inv n ↔ p.cmdCnt.toNat ≤ 2 ∧ p.StoreInv n := by
  simp [Parser.Inv, Parser.StoreInv, hs, ParserState.bits]

theorem Parser.inv_iff_of_length {n : Nat} {p : Parser} (hs : p.state = ParserState.length.bits) :
    p.Inv n ↔ p.StoreInv n := by
  simp [Parser.Inv, Parser.StoreInv, hs, ParserState.bits]

theorem Parser.inv_iff_of_data {n : Nat} {p : Parser} (hs : p.state = ParserState.data.bits) :
    p.Inv n ↔ (p.declLen.toNat ≤ n ∧ p.dataCnt.toNat < p.declLen.toNat) ∧ p.StoreInv n := by
  simp [Parser.Inv, Parser.StoreInv, hs, ParserState.bits]

theorem Parser.inv_iff_of_tailHasData {n : Nat} {p : Parser} (hs : p.state = ParserState.tailHasData.bits) :
    p.Inv n ↔ (p.declLen.toNat ≤ n ∧ p.dataCnt = p.declLen) ∧ p.StoreInv n := by
  simp [Parser.Inv, Parser.StoreInv, hs, ParserState.bits]

theorem Parser.inv_iff_of_tail {n : Nat} {p : Parser} (hs : p.state = ParserState.tail.bits) :
    p.Inv n ↔ p.StoreInv n := by
  simp [Parser.Inv, Parser.StoreInv, hs, ParserState.bits]

theorem Parser.idle_inv {n : Nat} {p : Parser} (h : p.StoreInv n) : p.idle.Inv n :=
  (Parser.inv_iff_of_waitHead rfl).mpr ⟨⟨rfl, rfl, rfl, rfl⟩, h⟩

/-- The token of the current byte is one longer than the bytes held. -/
theorem Parser.token_length (p : Parser) (b : Byte) : (p.token b).length = p.cmdCnt.toNat + 1 := by
  have := p.cmdCnt.isLt
  simp [Parser.token, Bytes3.toList]
  omega

theorem Parser.toNat_cmdCnt_succ {p : Parser} (h : p.cmdCnt.toNat ≤ 2) : (p.cmdCnt + 1).toNat = p.cmdCnt.toNat + 1 := by
  rw [BitVec.toNat_add]; simp; omega

theorem Parser.toNat_dataCnt_succ {p : Parser} (h : p.dataCnt.toNat < p.declLen.toNat) :
    (p.dataCnt + 1).toNat = p.dataCnt.toNat + 1 := by
  have := p.declLen.isLt
  rw [BitVec.toNat_add]; simp; omega

/-- A transition keeps the parser's invariant. -/
theorem ParserStep.inv {n : Nat} {b : Byte} {p q : Parser} {evs : List Event} (hn : n < 255)
    (h : ParserStep n b p q evs) (hp : p.Inv n) : q.Inv n := by
  have hstore := Parser.storeInv_of_inv hp
  cases h with
  | discard => exact hp
  | head => exact (Parser.inv_iff_of_command rfl).mpr ⟨Nat.zero_le 2, hstore⟩
  | tokenIR => exact (Parser.inv_iff_of_tail rfl).mpr hstore
  | tokenDR => exact (Parser.inv_iff_of_length rfl).mpr hstore
  | tokenGrows hs _ hlen =>
    obtain ⟨hcnt, -⟩ := (Parser.inv_iff_of_command hs).mp hp
    rw [Parser.token_length] at hlen
    exact (Parser.inv_iff_of_command (by exact hs)).mpr ⟨by rw [Parser.toNat_cmdCnt_succ hcnt]; omega, hstore⟩
  | firstDigit d hs => exact (Parser.inv_iff_of_length (by exact hs)).mpr hstore
  | lengthZero d hs hb h1 hz => exact (Parser.inv_iff_of_tailHasData rfl).mpr ⟨by simp [hz], hstore⟩
  | lengthFits d hs hb h1 hpos hfits =>
    have hdecl : p.declared d % 256 = p.declared d := Nat.mod_eq_of_lt (by omega)
    exact (Parser.inv_iff_of_data rfl).mpr ⟨by simp [hdecl, hpos, hfits], hstore⟩
  | dataByte hs hlt hmore =>
    obtain ⟨⟨hdecl, hcnt⟩, -⟩ := (Parser.inv_iff_of_data hs).mp hp
    have hne : (p.dataCnt + 1).toNat ≠ p.declLen.toNat := fun h => hmore (BitVec.eq_of_toNat_eq h)
    rw [Parser.toNat_dataCnt_succ hcnt] at hne
    exact (Parser.inv_iff_of_data (by exact hs)).mpr
      ⟨⟨hdecl, by rw [Parser.toNat_dataCnt_succ hcnt]; show _ < p.declLen.toNat; omega⟩, hstore.write hlt b⟩
  | lastByte hs hlt hlast =>
    obtain ⟨⟨hdecl, -⟩, -⟩ := (Parser.inv_iff_of_data hs).mp hp
    exact (Parser.inv_iff_of_tailHasData rfl).mpr ⟨⟨hdecl, hlast⟩, hstore.write hlt b⟩
  | footerFirst hs =>
    rcases hs with hs | hs
    · exact (Parser.inv_iff_of_tailHasData (by exact hs)).mpr ((Parser.inv_iff_of_tailHasData hs).mp hp)
    · exact (Parser.inv_iff_of_tail (by exact hs)).mpr hstore
  | tokenBad | notHex | tooLong | footerBad | payload | collision => exact Parser.idle_inv hstore

/-! ## What every operation and every step keeps (10_state.md R25, R32, R34, R36 to R38) -/

/-- From `s` to `t` the configuration stays, the ports and the refusals only grow, and the invariant is kept. -/
structure Keeps (s t : State) : Prop where
  maxPayload : t.maxPayload = s.maxPayload
  id : t.pkt.id = s.pkt.id
  idWidth : t.idWidth = s.idWidth
  sink : s.sink <+: t.sink
  resp : s.resp <+: t.resp
  refusals : s.refusals <+: t.refusals
  pktInv : s.pkt.Inv → t.pkt.Inv
  psInv : s.ps.Inv s.maxPayload.val → t.ps.Inv t.maxPayload.val

theorem Keeps.inv {s t : State} (h : Keeps s t) (hs : s.Inv) : t.Inv := by
  obtain ⟨hpkt, hps, hwidth, hid⟩ := hs
  exact ⟨h.pktInv hpkt, h.psInv hps, h.idWidth ▸ hwidth, by rw [h.id, h.idWidth]; exact hid⟩

theorem Keeps.refl (s : State) : Keeps s s :=
  ⟨rfl, rfl, rfl, List.prefix_rfl, List.prefix_rfl, List.prefix_rfl, fun h => h, fun h => h⟩

theorem Keeps.trans {s t u : State} (h : Keeps s t) (k : Keeps t u) : Keeps s u :=
  ⟨k.maxPayload.trans h.maxPayload, k.id.trans h.id, k.idWidth.trans h.idWidth, h.sink.trans k.sink,
   h.resp.trans k.resp, h.refusals.trans k.refusals, k.pktInv ∘ h.pktInv, k.psInv ∘ h.psInv⟩

theorem emit_keeps (e : Event) (s : State) : Keeps s (emit e s) :=
  { Keeps.refl s with sink := List.prefix_append _ _ }

theorem respond_keeps (bs : List Byte) (s : State) : Keeps s (respond bs s) :=
  { Keeps.refl s with resp := List.prefix_append _ _ }

theorem refuse_keeps (r : RefuseReason) (s : State) : Keeps s (refuse r s) :=
  { Keeps.refl s with refusals := List.prefix_append _ _ }

theorem withPort_keeps (bs : List Byte) (s : State) : Keeps s (withPort bs s) := { Keeps.refl s with }

theorem deliver_keeps (bs : List Byte) (s : State) : Keeps s (deliver bs s) := { Keeps.refl s with }

theorem initPacket_keeps (z : Bool) (s : State) : Keeps s (initPacket z s) := by
  refine { Keeps.refl s with pktInv := ?_ }
  rintro ⟨-, -, -, hwf, hin⟩
  cases z with
  | false => exact ⟨le_refl _, Nat.zero_le _, (by decide : (0 : BitVec 2) ≠ 3), hwf, hin⟩
  | true =>
    exact ⟨le_refl _, Nat.zero_le _, (by decide : (0 : BitVec 2) ≠ 3), Memory.writeRun_wf hwf 0 _,
      Memory.writeRun_within hin 0 _ (by simp)⟩

theorem CodecFrame.keeps {s t : State} (h : CodecFrame s t) (hr : s.resp <+: t.resp) : Keeps s t :=
  ⟨h.maxPayload, h.id, h.idWidth, h.sink ▸ List.prefix_rfl, hr, h.refusals ▸ List.prefix_rfl, h.inv,
   fun hp => by rw [h.ps, h.maxPayload]; exact hp⟩

theorem CdFrame.keeps {s t : State} (h : CdFrame s t) : Keeps s t :=
  ⟨h.maxPayload, h.id, h.idWidth, h.sink ▸ List.prefix_rfl, h.resp ▸ List.prefix_rfl, h.refusals ▸ List.prefix_rfl,
   h.inv, fun hp => by rw [h.ps, h.maxPayload]; exact hp⟩

theorem stepByte_keeps {b : Byte} {s t : State} (h : stepByte b s = .ok t) : Keeps s t := by
  obtain ⟨q, evs, hq, rfl⟩ := stepByte_transition h
  exact { Keeps.refl s with sink := List.prefix_append _ _, psInv := hq.inv s.maxPayload.isLt }

theorem feed_keeps {d : List Byte} {s t : State} (h : feed d s = .ok t) : Keeps s t := by
  induction d generalizing s with
  | nil => cases h; exact Keeps.refl _
  | cons b bs ih =>
    simp only [feed] at h
    split at h
    · cases h
    · rename_i u hu
      exact (stepByte_keeps hu).trans (ih h)

theorem exec_keeps {i : Instr} {s t : State} (h : exec i s = .next t) : Keeps s t := by
  cases exec_cases h with
  | feed d _ hf => exact feed_keeps hf
  | send f _ ht => exact ht ▸ emit_keeps _ s
  | refuse r _ ht => exact ht ▸ refuse_keeps r s
  | init z _ ht => exact ht ▸ initPacket_keeps z s
  | pack bs _ _ _ hp =>
    obtain ⟨hframe, hresp⟩ := guardedPack_frame hp
    exact hframe.keeps (hresp ▸ List.prefix_rfl)
  | unpack m _ _ _ hu =>
    obtain ⟨hframe, bs, hresp, -⟩ := unpackRespond_frame hu
    exact hframe.keeps ⟨bs, hresp.symm⟩
  | query bs _ _ _ ht => exact ht ▸ respond_keeps bs s
  | setButton j v m _ ht => subst ht; exact { Keeps.refl s with }
  | setAnalog c v a _ ht => subst ht; exact { Keeps.refl s with }
  | cdPack _ hp => exact (execCdPack_frame hp).1.keeps
  | cdUnpack _ hu => exact (execCdUnpack_frame hu).keeps

theorem step_keeps {s t : State} (h : step s = .next t) : Keeps s t := by
  rcases step_cases h with ⟨i, rest, -, hexec⟩ | ⟨r, rest, -, rfl⟩ | ⟨-, rfl⟩
  · exact (withPort_keeps rest s).trans (exec_keeps hexec)
  · exact (withPort_keeps rest s).trans (refuse_keeps r _)
  · exact Keeps.refl _

/-! ## What an operation does not write -/

/-- An operation of another unit leaves the sink alone (R36). -/
theorem exec_nonFramer_sink {i : Instr} {s t : State} (hi : i.isFramer = false) (h : exec i s = .next t) :
    t.sink = s.sink := by
  cases exec_cases h with
  | feed d e => subst e; cases hi
  | send f hf => simp [hf] at hi
  | refuse r hf => simp [hf] at hi
  | init z _ ht => subst ht; rfl
  | pack bs _ _ _ hp => exact (guardedPack_frame hp).1.sink
  | unpack m _ _ _ hu => exact (unpackRespond_frame hu).1.sink
  | query bs _ _ _ ht => subst ht; rfl
  | setButton j v m _ ht => subst ht; rfl
  | setAnalog c v a _ ht => subst ht; rfl
  | cdPack _ hp => exact (execCdPack_frame hp).1.sink
  | cdUnpack _ hu => exact (execCdUnpack_frame hu).sink

/-- An operation without a response leaves the response port alone (R37, 30_encoding.md R72). -/
theorem exec_nonQuery_resp {i : Instr} {s t : State} (hi : i.responseLength? s.idWidth s.pkt.len.toNat = none)
    (h : exec i s = .next t) : t.resp = s.resp := by
  cases exec_cases h with
  | feed d _ hf => exact (feed_frame hf).resp
  | send f _ ht => subst ht; rfl
  | refuse r _ ht => subst ht; rfl
  | init z _ ht => subst ht; rfl
  | pack bs _ _ _ hp => exact (guardedPack_frame hp).2
  | unpack m _ _ hm => simp [hi] at hm
  | query bs _ _ hq => simp [hi] at hq
  | setButton j v m _ ht => subst ht; rfl
  | setAnalog c v a _ ht => subst ht; rfl
  | cdPack _ hp => exact (execCdPack_frame hp).1.resp
  | cdUnpack _ hu => exact (execCdUnpack_frame hu).resp

/-- Under a set error no operation but PKT_INIT writes the packet (R24, 42_packet_codec.md R110). -/
theorem exec_sticky_pkt {i : Instr} {s t : State} (hi : ∀ z, i ≠ .pktInit z) (he : s.pkt.err ≠ 0)
    (h : exec i s = .next t) : t.pkt = s.pkt := by
  cases exec_cases h with
  | feed d _ hf => exact (feed_frame hf).pkt
  | send f _ ht => subst ht; rfl
  | refuse r _ ht => subst ht; rfl
  | init z e => exact absurd e (hi z)
  | pack bs _ _ _ hp => exact (guardedPack_frame hp).1.sticky he
  | unpack m _ _ _ hu => exact (unpackRespond_frame hu).1.sticky he
  | query bs _ _ _ ht => subst ht; rfl
  | setButton j v m _ ht => subst ht; rfl
  | setAnalog c v a _ ht => subst ht; rfl
  | cdPack _ hp => exact (execCdPack_frame hp).1.sticky he
  | cdUnpack _ hu => exact (execCdUnpack_frame hu).sticky he

/-! ## Refusals (10_state.md R38) -/

/-- The mark is set exactly when a refusal is recorded. -/
theorem refused_eq_true_iff (s : State) : s.refused = true ↔ s.refusals ≠ [] := by
  simp [State.refused]

theorem Keeps.refused {s t : State} (h : Keeps s t) (hs : s.refused = true) : t.refused = true :=
  (refused_eq_true_iff t).mpr (h.refusals.ne_nil ((refused_eq_true_iff s).mp hs))

theorem step_of_decode_rejected {s : State} {r : RefuseReason} {rest : List Byte}
    (h : decode s.cmdPort = .rejected r rest) : step s = .next (refuse r (withPort rest s)) := by
  simp only [step, h]

theorem exec_frSendData_tooLong {d : List Byte} {s : State} (h : d.length > s.maxPayload.val) :
    exec (.frSendData d) s = .next (refuse .sendTooLong s) := by
  simp only [exec, execFrSendData, if_pos h]

theorem isUpper_eq_true_iff (b : Byte) : isUpper b = true ↔ Claims.Letter b := by
  simp [isUpper, Claims.Letter]

theorem exec_frSendParam_badCode {p0 p1 : Byte} (v : Byte) {s : State} (h : ¬ (Claims.Letter p0 ∧ Claims.Letter p1)) :
    exec (.frSendParam p0 p1 v) s = .next (refuse .badParamCode s) := by
  simp only [← isUpper_eq_true_iff, ← Bool.and_eq_true] at h
  simp only [exec, execFrSendParam, if_neg h]

/-! ## Reset (10_state.md R41) -/

theorem resetAt_inv {maxPayload : Fin 255} {idWidth pktId : Nat} {u : Unspecified} (hu : u.Fits maxPayload.val)
    (hw : 1 ≤ idWidth) (hid : pktId < 2 ^ idWidth) : (State.resetAt maxPayload idWidth pktId u).Inv := by
  obtain ⟨hbuf, hbufIn, hdata, hdataIn⟩ := hu
  exact ⟨⟨le_refl _, Nat.zero_le _, (by decide : (0 : BitVec 2) ≠ 3), hbuf, hbufIn⟩,
    (Parser.inv_iff_of_waitHead rfl).mpr ⟨⟨rfl, rfl, rfl, rfl⟩, hdata, hdataIn⟩, hw, hid⟩

theorem construct_inv {c : Config} {u : Unspecified} {s : State} (hu : u.Fits c.maxPayload)
    (h : State.construct c u = some s) : s.Inv := by
  obtain ⟨⟨hmax, hw, hid⟩, rfl⟩ := construct_eq h
  exact resetAt_inv hu hw hid

end Sys2Proof.Machine

namespace Sys2Proof

open Sys2Proof.Machine Sys2Proof.Claims

/-- Settles O2: a constructed state is the reset state of a legal configuration. -/
theorem resetLeavesTheListedValues : Obligations.ResetLeavesTheListedValues := by
  intro c u s h
  obtain ⟨-, rfl⟩ := construct_eq h
  exact ⟨rfl, rfl, rfl, rfl, rfl, rfl, rfl, rfl, rfl, rfl, rfl, rfl, rfl, rfl, rfl⟩

/-- Settles O5: the reset values meet each part of the invariant, and the buffers fit by assumption. -/
theorem constructedStatesMeetInvariant : Obligations.ConstructedStatesMeetInvariant :=
  ⟨fun _ _ _ hu h => construct_inv hu h, resetAt_inv (by decide) (by decide) (by decide)⟩

/-- Settles O6: every operation keeps the packet's invariant, every byte the parser's, and nothing writes the id. -/
theorem stepKeepsInvariant : Obligations.StepKeepsInvariant := fun _ _ hs h => (step_keeps h).inv hs

/-- Settles O7, by induction on the run. -/
theorem reachableStatesMeetInvariant : Obligations.ReachableStatesMeetInvariant := by
  intro s h
  induction h with
  | reset c u s hu hc => exact construct_inv hu hc
  | deliver bs s _ ih => exact (deliver_keeps bs s).inv ih
  | step s t _ hst ih => exact (step_keeps hst).inv ih

/-- Settles O4: reset latches the configuration, and no operation writes it. -/
theorem configurationIsReadOnly : Obligations.ConfigurationIsReadOnly := by
  refine ⟨fun c u s h => ?_, fun i s t h => ?_, fun s t h => ?_⟩
  · obtain ⟨-, rfl⟩ := construct_eq h
    exact ⟨rfl, rfl⟩
  · exact ⟨(exec_keeps h).maxPayload, (exec_keeps h).id, (exec_keeps h).idWidth⟩
  · exact ⟨(step_keeps h).maxPayload, (step_keeps h).id, (step_keeps h).idWidth⟩

/-- Settles O16: the refusals only grow, and each kind of refusal is recorded. -/
theorem refusedMarkNeverCleared : Obligations.RefusedMarkNeverCleared := by
  refine ⟨fun c u s h => ?_, fun s t h => (step_keeps h).refusals, fun s t h => (step_keeps h).refused,
    fun s r rest h => ⟨_, step_of_decode_rejected h, refuse_refused _ _⟩,
    fun d s h => ⟨_, exec_frSendData_tooLong h, refuse_refused _ _⟩,
    fun p0 p1 v s h => ⟨_, exec_frSendParam_badCode v h, refuse_refused _ _⟩⟩
  obtain ⟨-, rfl⟩ := construct_eq h
  rfl

/-- Settles O17: an operation without a response leaves the port alone, and the others append to it. -/
theorem onlyQueriesRespond : Obligations.OnlyQueriesRespond := by
  refine ⟨fun c u s h => ?_, fun s t h => (step_keeps h).resp, fun i s t hi h => exec_nonQuery_resp hi h⟩
  obtain ⟨-, rfl⟩ := construct_eq h
  rfl

/-- Settles O19: a framer operation appends its events, and no other operation writes the sink. -/
theorem sinkIsAppendOnly : Obligations.SinkIsAppendOnly :=
  ⟨fun _ _ h => (step_keeps h).sink, fun _ _ _ hi h => exec_nonFramer_sink hi h⟩

/-- Settles O45: under a set error nothing but PKT_INIT writes the packet at all. -/
theorem onlyInitClearsError : Obligations.OnlyInitClearsError := by
  intro i s t h he hi
  rw [exec_sticky_pkt hi he h]

end Sys2Proof

namespace Sys2Proof.Machine

open Sys2Proof.Claims

/-! ## Stores that agree below a position (10_state.md R26, R32) -/

/-- Two stores hold the same bytes below position `k`. -/
def Memory.AgreeBelow (k : Nat) (m m' : Memory) : Prop := ∀ a, a < k → Memory.read m a = Memory.read m' a

theorem Memory.AgreeBelow.write {k : Nat} {m m' : Memory} (hw : Memory.wf m = true) (hw' : Memory.wf m' = true)
    (h : Memory.AgreeBelow k m m') (b : Byte) :
    Memory.AgreeBelow (k + 1) (Memory.write m k b) (Memory.write m' k b) := by
  intro a ha
  by_cases hk : a = k
  · rw [hk, Memory.read_write_self hw, Memory.read_write_self hw']
  · rw [Memory.read_write_of_ne m b hk, Memory.read_write_of_ne m' b hk, h a (by omega)]

theorem Memory.AgreeBelow.writeRun {k : Nat} {m m' : Memory} (hw : Memory.wf m = true) (hw' : Memory.wf m' = true)
    (h : Memory.AgreeBelow k m m') (bs : List Byte) :
    Memory.AgreeBelow (k + bs.length) (Memory.writeRun m k bs) (Memory.writeRun m' k bs) := by
  induction bs generalizing k m m' with
  | nil => exact h
  | cons b bs ih =>
    rw [List.length_cons, Nat.add_comm bs.length, ← Nat.add_assoc]
    exact ih (Memory.write_wf hw k b) (Memory.write_wf hw' k b) (h.write hw hw' b)

theorem Memory.AgreeBelow.readRun {k : Nat} {m m' : Memory} (h : Memory.AgreeBelow k m m') {a n : Nat}
    (hk : a + n ≤ k) : Memory.readRun m a n = Memory.readRun m' a n :=
  Memory.readRun_congr fun p _ hp => h p (by omega)

/-! ## Parsers that look alike -/

theorem count_zero_ne_one : (0 : BitVec 1) ≠ 1 := by decide

/-- Two parsers agree in their state and in every count (10_state.md R41). -/
structure Parser.SameCounts (p q : Parser) : Prop where
  state : p.state = q.state
  cmdCnt : p.cmdCnt = q.cmdCnt
  lenCnt : p.lenCnt = q.lenCnt
  dataCnt : p.dataCnt = q.dataCnt
  tailCnt : p.tailCnt = q.tailCnt

/-- Two parsers agree in the registers to which the state of the first gives a meaning (10_state.md R32). -/
structure Parser.SameMeaning (p q : Parser) : Prop where
  cmd : p.state = ParserState.command.bits → p.cmd.toList.take p.cmdCnt.toNat = q.cmd.toList.take q.cmdCnt.toNat
  lenHi : p.state = ParserState.length.bits → p.lenCnt = 1 → p.lenHi = q.lenHi
  payload : p.state = ParserState.data.bits ∨ p.state = ParserState.tailHasData.bits →
    p.declLen = q.declLen ∧ Memory.AgreeBelow p.dataCnt.toNat p.data q.data
  tailOk : p.InFooter → p.tailCnt = 1 → p.tailOk = q.tailOk

section ByState

variable {p q : Parser}

theorem Parser.sameMeaning_of_waitHead (hs : p.state = ParserState.waitHead.bits) : p.SameMeaning q := by
  constructor <;> simp [hs, Parser.InFooter, ParserState.bits]

theorem Parser.sameMeaning_iff_of_command (hs : p.state = ParserState.command.bits) :
    p.SameMeaning q ↔ ∀ b, p.token b = q.token b := by
  refine ⟨fun h b => congrArg (· ++ [b]) (h.cmd hs), fun h => ⟨fun _ => ?_, ?_, ?_, ?_⟩⟩
  · exact List.append_inj_left' (h 0) rfl
  all_goals simp [hs, Parser.InFooter, ParserState.bits]

theorem Parser.sameMeaning_iff_of_length (hs : p.state = ParserState.length.bits) :
    p.SameMeaning q ↔ (p.lenCnt = 1 → p.lenHi = q.lenHi) := by
  refine ⟨fun h => h.lenHi hs, fun h => ⟨?_, fun _ => h, ?_, ?_⟩⟩
  all_goals simp [hs, Parser.InFooter, ParserState.bits]

theorem Parser.sameMeaning_iff_of_data (hs : p.state = ParserState.data.bits) :
    p.SameMeaning q ↔ p.declLen = q.declLen ∧ Memory.AgreeBelow p.dataCnt.toNat p.data q.data := by
  refine ⟨fun h => h.payload (.inl hs), fun h => ⟨?_, ?_, fun _ => h, ?_⟩⟩
  all_goals simp [hs, Parser.InFooter, ParserState.bits]

theorem Parser.sameMeaning_iff_of_tailHasData (hs : p.state = ParserState.tailHasData.bits) :
    p.SameMeaning q ↔ (p.declLen = q.declLen ∧ Memory.AgreeBelow p.dataCnt.toNat p.data q.data) ∧
      (p.tailCnt = 1 → p.tailOk = q.tailOk) := by
  refine ⟨fun h => ⟨h.payload (.inr hs), h.tailOk (.inl hs)⟩, fun h => ⟨?_, ?_, fun _ => h.1, fun _ => h.2⟩⟩
  all_goals simp [hs, ParserState.bits]

theorem Parser.sameMeaning_iff_of_tail (hs : p.state = ParserState.tail.bits) :
    p.SameMeaning q ↔ (p.tailCnt = 1 → p.tailOk = q.tailOk) := by
  refine ⟨fun h => h.tailOk (.inr hs), fun h => ⟨?_, ?_, ?_, fun _ => h⟩⟩
  all_goals simp [hs, ParserState.bits]

end ByState

/-- Two parsers look alike: they agree in everything a rule reads. -/
structure Parser.Alike (p q : Parser) : Prop where
  counts : p.SameCounts q
  meaning : p.SameMeaning q

theorem Parser.SameCounts.inFooter {p q : Parser} (h : p.SameCounts q) (hs : p.InFooter) : q.InFooter := by
  rwa [Parser.InFooter, ← h.state]

theorem Parser.idle_alike (p q : Parser) : p.idle.Alike q.idle :=
  ⟨⟨rfl, rfl, rfl, rfl, rfl⟩, Parser.sameMeaning_of_waitHead rfl⟩

/-- The token byte stored is the last of the bytes held. -/
theorem Parser.take_set_cmd {p : Parser} {b : Byte} (h : p.cmdCnt.toNat ≤ 2) :
    (p.cmd.set p.cmdCnt.toNat b).toList.take (p.cmdCnt.toNat + 1) = p.token b := by
  simp only [Parser.token]
  generalize p.cmdCnt.toNat = k at h
  interval_cases k <;> rfl

theorem Parser.Alike.declared {p q : Parser} (h : p.Alike q) (hs : p.state = ParserState.length.bits)
    (h1 : p.lenCnt = 1) (d : BitVec 4) : q.declared d = p.declared d := by
  rw [Parser.declared, ← h.meaning.lenHi hs h1, ← Parser.declared]

/-- Parsers that look alike take the same transition, with the same events, and look alike after it. -/
theorem ParserStep.alike {n : Nat} {b : Byte} {p q p' : Parser} {evs : List Event} (h : ParserStep n b p q evs)
    (hp : p.Inv n) (hp' : p'.Inv n) (ha : p.Alike p') : ∃ q', ParserStep n b p' q' evs ∧ q.Alike q' := by
  obtain ⟨hc, hm⟩ := ha
  cases h with
  | discard hs hb => exact ⟨_, .discard (hc.state ▸ hs) hb, hc, hm⟩
  | head hs hb =>
    exact ⟨_, .head (hc.state ▸ hs) hb, { hc with state := rfl, cmdCnt := rfl },
      (Parser.sameMeaning_iff_of_command rfl).mpr fun b => by simp [Parser.token]⟩
  | tokenIR hs htok =>
    have he := (Parser.sameMeaning_iff_of_command hs).mp hm b
    exact ⟨_, .tokenIR (hc.state ▸ hs) (he ▸ htok), { hc with state := rfl, tailCnt := rfl },
      (Parser.sameMeaning_iff_of_tail rfl).mpr fun h => absurd h count_zero_ne_one⟩
  | tokenDR hs htok =>
    have he := (Parser.sameMeaning_iff_of_command hs).mp hm b
    exact ⟨_, .tokenDR (hc.state ▸ hs) (he ▸ htok), { hc with state := rfl, lenCnt := rfl },
      (Parser.sameMeaning_iff_of_length rfl).mpr fun h => absurd h count_zero_ne_one⟩
  | tokenBad hs hDR hlen =>
    have he := (Parser.sameMeaning_iff_of_command hs).mp hm b
    exact ⟨_, .tokenBad (hc.state ▸ hs) (he ▸ hDR) (he ▸ hlen), Parser.idle_alike p p'⟩
  | tokenGrows hs hIR hlen hcnt =>
    have he := (Parser.sameMeaning_iff_of_command hs).mp hm b
    obtain ⟨h2, -⟩ := (Parser.inv_iff_of_command hs).mp hp
    have h2' : p'.cmdCnt.toNat ≤ 2 := hc.cmdCnt ▸ h2
    refine ⟨_, .tokenGrows (hc.state ▸ hs) (he ▸ hIR) (he ▸ hlen) (hc.cmdCnt ▸ hcnt),
      { hc with cmdCnt := by simp only [hc.cmdCnt] }, (Parser.sameMeaning_iff_of_command (by exact hs)).mpr fun b' => ?_⟩
    simp only [Parser.token, Parser.toNat_cmdCnt_succ h2, Parser.toNat_cmdCnt_succ h2', Parser.take_set_cmd h2,
      Parser.take_set_cmd h2']
    exact congrArg (· ++ [b']) he
  | notHex hs hb => exact ⟨_, .notHex (hc.state ▸ hs) hb, Parser.idle_alike p p'⟩
  | firstDigit d hs hb h0 =>
    exact ⟨_, .firstDigit d (hc.state ▸ hs) hb (hc.lenCnt ▸ h0), { hc with lenCnt := rfl },
      (Parser.sameMeaning_iff_of_length (by exact hs)).mpr fun _ => rfl⟩
  | tooLong d hs hb h1 hlong =>
    have hd := Parser.Alike.declared ⟨hc, hm⟩ hs h1 d
    exact ⟨_, .tooLong d (hc.state ▸ hs) hb (hc.lenCnt ▸ h1) (hd ▸ hlong), Parser.idle_alike p p'⟩
  | lengthZero d hs hb h1 hz =>
    have hd := Parser.Alike.declared ⟨hc, hm⟩ hs h1 d
    exact ⟨_, .lengthZero d (hc.state ▸ hs) hb (hc.lenCnt ▸ h1) (hd ▸ hz),
      { hc with state := rfl, dataCnt := rfl, tailCnt := rfl },
      (Parser.sameMeaning_iff_of_tailHasData rfl).mpr
        ⟨⟨by rw [hd], fun a ha => absurd ha (Nat.not_lt_zero a)⟩, fun h => absurd h count_zero_ne_one⟩⟩
  | lengthFits d hs hb h1 hpos hfits =>
    have hd := Parser.Alike.declared ⟨hc, hm⟩ hs h1 d
    exact ⟨_, .lengthFits d (hc.state ▸ hs) hb (hc.lenCnt ▸ h1) (hd ▸ hpos) (hd ▸ hfits),
      { hc with state := rfl, dataCnt := rfl },
      (Parser.sameMeaning_iff_of_data rfl).mpr ⟨by rw [hd], fun a ha => absurd ha (Nat.not_lt_zero a)⟩⟩
  | dataByte hs hlt hmore =>
    obtain ⟨hdecl, hbytes⟩ := (Parser.sameMeaning_iff_of_data hs).mp hm
    obtain ⟨⟨-, hcnt⟩, hwf, -⟩ := (Parser.inv_iff_of_data hs).mp hp
    have hwrite := hbytes.write hwf (Parser.storeInv_of_inv hp').1 b
    rw [← Parser.toNat_dataCnt_succ hcnt] at hwrite
    exact ⟨_, .dataByte (hc.state ▸ hs) (hc.dataCnt ▸ hlt) (hc.dataCnt ▸ hdecl ▸ hmore),
      { hc with dataCnt := by rw [hc.dataCnt] },
      (Parser.sameMeaning_iff_of_data (by exact hs)).mpr ⟨hdecl, hc.dataCnt ▸ hwrite⟩⟩
  | lastByte hs hlt hlast =>
    obtain ⟨hdecl, hbytes⟩ := (Parser.sameMeaning_iff_of_data hs).mp hm
    obtain ⟨⟨-, hcnt⟩, hwf, -⟩ := (Parser.inv_iff_of_data hs).mp hp
    have hwrite := hbytes.write hwf (Parser.storeInv_of_inv hp').1 b
    rw [← Parser.toNat_dataCnt_succ hcnt] at hwrite
    exact ⟨_, .lastByte (hc.state ▸ hs) (hc.dataCnt ▸ hlt) (hc.dataCnt ▸ hdecl ▸ hlast),
      { hc with state := rfl, dataCnt := by rw [hc.dataCnt], tailCnt := rfl },
      (Parser.sameMeaning_iff_of_tailHasData rfl).mpr ⟨⟨hdecl, hc.dataCnt ▸ hwrite⟩, fun h => absurd h count_zero_ne_one⟩⟩
  | footerFirst hs h0 =>
    refine ⟨_, .footerFirst (hc.inFooter hs) (hc.tailCnt ▸ h0), { hc with tailCnt := rfl }, ?_⟩
    exact { cmd := hm.cmd, lenHi := hm.lenHi, payload := hm.payload, tailOk := fun _ _ => rfl }
  | footerBad hs h1 hbad =>
    exact ⟨_, .footerBad (hc.inFooter hs) (hc.tailCnt ▸ h1) (hm.tailOk hs h1 ▸ hbad), Parser.idle_alike p p'⟩
  | payload hs h1 hok hb hn =>
    obtain ⟨⟨hdecl, hbytes⟩, htail⟩ := (Parser.sameMeaning_iff_of_tailHasData hs).mp hm
    obtain ⟨⟨-, hcnt⟩, -⟩ := (Parser.inv_iff_of_tailHasData hs).mp hp
    rw [hcnt] at hbytes
    rw [hbytes.readRun (Nat.zero_add _).le, hdecl]
    exact ⟨_, .payload (hc.state ▸ hs) (hc.tailCnt ▸ h1) (htail h1 ▸ hok) hb (hdecl ▸ hn), Parser.idle_alike p p'⟩
  | collision hs h1 hok hb =>
    exact ⟨_, .collision (hc.state ▸ hs) (hc.tailCnt ▸ h1) (hm.tailOk (.inr hs) h1 ▸ hok) hb, Parser.idle_alike p p'⟩

/-! ## Blocks that look alike -/

/-- Two packets agree in everything but the bytes at and above `pkt_len` (10_state.md R26). -/
structure Packet.Alike (p q : Packet) : Prop where
  len : p.len = q.len
  cur : p.cur = q.cur
  err : p.err = q.err
  id : p.id = q.id
  bytes : Memory.AgreeBelow p.len.toNat p.buf q.buf

/-- `LooksAlike`, unit by unit: see `looksAlike_iff`. -/
structure State.Alike (s t : State) : Prop where
  pkt : s.pkt.Alike t.pkt
  cd : s.cd = t.cd
  ps : s.ps.Alike t.ps
  maxPayload : s.maxPayload = t.maxPayload
  idWidth : s.idWidth = t.idWidth
  cmdPort : s.cmdPort = t.cmdPort
  sink : s.sink = t.sink
  resp : s.resp = t.resp
  refusals : s.refusals = t.refusals

theorem looksAlike_iff {s t : State} : LooksAlike s t ↔ s.Alike t := by
  constructor
  · rintro ⟨⟨hlen, hcur, herr, hid, hbytes⟩, hcd, ⟨hstate, hcmdCnt, hlenCnt, hdataCnt, htailCnt⟩, hcmd, hlenHi, hpayload,
      htailOk, hmax, hwidth, hport, hsink, hresp, hrefusals⟩
    exact ⟨⟨hlen, hcur, herr, hid, hbytes⟩, hcd,
      ⟨⟨hstate, hcmdCnt, hlenCnt, hdataCnt, htailCnt⟩, ⟨hcmd, hlenHi, hpayload, htailOk⟩⟩,
      hmax, hwidth, hport, hsink, hresp, hrefusals⟩
  · rintro ⟨⟨hlen, hcur, herr, hid, hbytes⟩, hcd,
      ⟨⟨hstate, hcmdCnt, hlenCnt, hdataCnt, htailCnt⟩, ⟨hcmd, hlenHi, hpayload, htailOk⟩⟩,
      hmax, hwidth, hport, hsink, hresp, hrefusals⟩
    exact ⟨⟨hlen, hcur, herr, hid, hbytes⟩, hcd, ⟨hstate, hcmdCnt, hlenCnt, hdataCnt, htailCnt⟩, hcmd, hlenHi, hpayload,
      htailOk, hmax, hwidth, hport, hsink, hresp, hrefusals⟩

/-- Two blocks that meet the invariant and look alike. -/
structure Twins (s t : State) : Prop where
  inv : s.Inv
  inv' : t.Inv
  alike : s.Alike t

theorem Twins.of_keeps {s s' t t' : State} (h : Twins s s') (hk : Keeps s t) (hk' : Keeps s' t') (ha : t.Alike t') :
    Twins t t' := ⟨hk.inv h.inv, hk'.inv h.inv', ha⟩

section Updates

variable {s s' : State} (h : Twins s s')

include h

theorem Twins.emit (e : Event) : Twins (emit e s) (emit e s') :=
  h.of_keeps (emit_keeps e s) (emit_keeps e s') { h.alike with sink := congrArg (· ++ [e]) h.alike.sink }

theorem Twins.respond (bs : List Byte) : Twins (respond bs s) (respond bs s') :=
  h.of_keeps (respond_keeps bs s) (respond_keeps bs s') { h.alike with resp := congrArg (· ++ bs) h.alike.resp }

theorem Twins.refuse (r : RefuseReason) : Twins (refuse r s) (refuse r s') :=
  h.of_keeps (refuse_keeps r s) (refuse_keeps r s') { h.alike with refusals := congrArg (· ++ [r]) h.alike.refusals }

theorem Twins.withPort (bs : List Byte) : Twins (withPort bs s) (withPort bs s') :=
  h.of_keeps (withPort_keeps bs s) (withPort_keeps bs s') { h.alike with cmdPort := rfl }

theorem Twins.withCd (c : Controller) : Twins { s with cd := c } { s' with cd := c } :=
  h.of_keeps { Keeps.refl s with } { Keeps.refl s' with } { h.alike with cd := rfl }

/-- PKT_INIT leaves no byte below `pkt_len` to compare. -/
theorem Twins.initPacket (z : Bool) : Twins (initPacket z s) (initPacket z s') :=
  h.of_keeps (initPacket_keeps z s) (initPacket_keeps z s')
    { h.alike with pkt := ⟨rfl, rfl, rfl, h.alike.pkt.id, fun a ha => absurd ha (Nat.not_lt_zero a)⟩ }

end Updates

/-! ## The codec's steps on twins -/

/-- A set error state that is legal has a name other than NONE. -/
theorem exists_sticky {s : State} (h : s.pkt.err = 1 ∨ s.pkt.err = 2) : ∃ e : CodecErr, e ≠ .ok ∧ s.pkt.err = e.bits :=
  h.elim (fun h => ⟨.bufferOverflow, by decide, h⟩) (fun h => ⟨.invalidLength, by decide, h⟩)

theorem guardedPack_alike {bs : List Byte} {s s' t : State} (h : Twins s s') (ht : guardedPack bs s = .ok t) :
    ∃ t', guardedPack bs s' = .ok t' ∧ t.Alike t' := by
  obtain ⟨⟨⟨-, -, -, hwf, -⟩, -⟩, ⟨⟨-, -, -, hwf', -⟩, -⟩, ha⟩ := h
  have hp := ha.pkt
  rcases guardedPack_cases ht with ⟨h0, hl, rfl⟩ | ⟨h0, hl, rfl⟩ | ⟨hsticky, rfl⟩
  · have hbytes := hp.bytes.writeRun hwf hwf' bs
    have hlen : (BitVec.ofNat 4 (s.pkt.len.toNat + bs.length)).toNat = s.pkt.len.toNat + bs.length :=
      Nat.mod_eq_of_lt (lt_of_le_of_lt hl (by decide))
    rw [← hlen] at hbytes
    have ht' := guardedPack_of_ok bs (hp.err ▸ h0 : s'.pkt.err = 0)
    rw [packCore_fits (hp.len ▸ hl), ← hp.len] at ht'
    exact ⟨_, ht', { ha with pkt := { hp with len := rfl, bytes := hbytes } }⟩
  · have ht' := guardedPack_of_ok bs (hp.err ▸ h0 : s'.pkt.err = 0)
    rw [packCore_overflow (hp.len ▸ hl)] at ht'
    exact ⟨_, ht', { ha with pkt := { hp with err := rfl } }⟩
  · obtain ⟨e, he, herr⟩ := exists_sticky hsticky
    exact ⟨s', guardedPack_of_sticky bs he (hp.err ▸ herr), ha⟩

theorem guardedPack_twins {bs : List Byte} {s s' t : State} (h : Twins s s') (ht : guardedPack bs s = .ok t) :
    ∃ t', guardedPack bs s' = .ok t' ∧ Twins t t' := by
  obtain ⟨t', ht', ha⟩ := guardedPack_alike h ht
  have ⟨hframe, hresp⟩ := guardedPack_frame ht
  have ⟨hframe', hresp'⟩ := guardedPack_frame ht'
  exact ⟨t', ht', h.of_keeps (hframe.keeps (hresp ▸ List.prefix_rfl)) (hframe'.keeps (hresp' ▸ List.prefix_rfl)) ha⟩

theorem guardedUnpack_alike {m : Nat} {s s' t : State} {r : Option (List Byte)} (h : Twins s s')
    (ht : guardedUnpack m s = .ok (r, t)) : ∃ t', guardedUnpack m s' = .ok (r, t') ∧ t.Alike t' := by
  obtain ⟨-, ⟨⟨-, hl', -⟩, -⟩, ha⟩ := h
  have hp := ha.pkt
  rcases guardedUnpack_cases ht with ⟨h0, hl, -, rfl, rfl⟩ | ⟨h0, hl, rfl, rfl⟩ | ⟨hsticky, rfl, rfl⟩
  · have ht' := guardedUnpack_fits (hp.err ▸ h0) (hp.cur ▸ hp.len ▸ hl) hl'
    rw [← hp.cur, ← hp.bytes.readRun hl] at ht'
    exact ⟨_, ht', { ha with pkt := { hp with cur := rfl } }⟩
  · exact ⟨_, guardedUnpack_short (hp.err ▸ h0) (hp.cur ▸ hp.len ▸ hl), { ha with pkt := { hp with err := rfl } }⟩
  · obtain ⟨e, he, herr⟩ := exists_sticky hsticky
    exact ⟨s', guardedUnpack_of_sticky m he (hp.err ▸ herr), ha⟩

/-- An unpack step of twins reads the same bytes: they lie below `pkt_len`. -/
theorem guardedUnpack_twins {m : Nat} {s s' t : State} {r : Option (List Byte)} (h : Twins s s')
    (ht : guardedUnpack m s = .ok (r, t)) : ∃ t', guardedUnpack m s' = .ok (r, t') ∧ Twins t t' := by
  obtain ⟨t', ht', ha⟩ := guardedUnpack_alike h ht
  have ⟨hframe, hresp, _⟩ := guardedUnpack_frame ht
  have ⟨hframe', hresp', _⟩ := guardedUnpack_frame ht'
  exact ⟨t', ht', h.of_keeps (hframe.keeps (hresp ▸ List.prefix_rfl)) (hframe'.keeps (hresp' ▸ List.prefix_rfl)) ha⟩

/-- An unpack step whose bytes go into the ControllerData value: the form of both steps of CD_UNPACK (R138). -/
def unpackInto (m : Nat) (put : List Byte → Controller → Controller) (s : State) : Except Fault State :=
  match guardedUnpack m s with
  | .error f => .error f
  | .ok (some bs, t) => .ok { t with cd := put bs t.cd }
  | .ok (none, t) => .ok t

theorem unpackMask_eq (s : State) :
    unpackMask s = unpackInto 2 (fun bs cd => { cd with mask := BitVec.ofNat 16 (fromLE bs) }) s := rfl

theorem unpackAnalog_eq (s : State) :
    unpackAnalog s = unpackInto 3 (fun bs cd => { cd with analog := Bytes3.ofList bs }) s := rfl

/-! ## Operations on twins -/

/-- If the first operation completes, so does the second, and the outcomes are twins. -/
def Follows (x x' : Except Fault State) : Prop := ∀ t, x = .ok t → ∃ t', x' = .ok t' ∧ Twins t t'

/-- If the first outcome is a next state, so is the second, and the two are twins. -/
def ResultFollows (r r' : Result) : Prop := ∀ t, r = .next t → ∃ t', r' = .next t' ∧ Twins t t'

theorem ResultFollows.next {t t' : State} (h : Twins t t') : ResultFollows (.next t) (.next t') := by
  intro u hu
  cases hu
  exact ⟨t', rfl, h⟩

theorem Follows.ofExcept {x x' : Except Fault State} (h : Follows x x') : ResultFollows (ofExcept x) (ofExcept x') := by
  intro t ht
  obtain ⟨t', hx', htw⟩ := h t (ofExcept_next ht)
  exact ⟨t', by rw [hx', Machine.ofExcept], htw⟩

section OnTwins

variable {s s' : State} (h : Twins s s')

include h

theorem Twins.guardedPack (bs : List Byte) : Follows (guardedPack bs s) (guardedPack bs s') :=
  fun _ ht => guardedPack_twins h ht

theorem Twins.unpackRespond (m : Nat) : Follows (unpackRespond m s) (unpackRespond m s') := by
  intro t ht
  obtain ⟨r, u, hu, rfl⟩ := unpackRespond_cases ht
  obtain ⟨u', hu', htw⟩ := guardedUnpack_twins h hu
  exact ⟨_, by simp only [Machine.unpackRespond, hu'], htw.respond _⟩

/-- Both halves of CD_UNPACK read the same bytes and put them in the same field. -/
theorem Twins.unpackInto (m : Nat) (put : List Byte → Controller → Controller) :
    Follows (unpackInto m put s) (unpackInto m put s') := by
  intro t ht
  simp only [Machine.unpackInto] at ht
  split at ht
  · cases ht
  all_goals
    rename_i u hu
    cases ht
    obtain ⟨u', hu', htw⟩ := guardedUnpack_twins h hu
    simp only [Machine.unpackInto, hu', ← htw.alike.cd]
    refine ⟨_, rfl, ?_⟩
  · exact htw.withCd _
  · exact htw

theorem Twins.execCdPack : ResultFollows (execCdPack s) (execCdPack s') := by
  intro t ht
  simp only [Machine.execCdPack] at ht
  split at ht
  · cases ht
  · rename_i u hu
    obtain ⟨u', hu', htw⟩ := h.guardedPack _ u hu
    simp only [Machine.execCdPack, ← h.alike.cd, hu']
    exact (htw.guardedPack _).ofExcept t ht

theorem Twins.execCdUnpack : ResultFollows (execCdUnpack s) (execCdUnpack s') := by
  intro t ht
  simp only [Machine.execCdUnpack] at ht
  split at ht
  · cases ht
  · rename_i u hu
    rw [unpackMask_eq] at hu
    obtain ⟨u', hu', htw⟩ := h.unpackInto _ _ u hu
    simp only [Machine.execCdUnpack, unpackMask_eq, hu']
    rw [unpackAnalog_eq] at ht ⊢
    exact (htw.unpackInto _ _).ofExcept t ht

theorem Twins.stepByte (b : Byte) : Follows (stepByte b s) (stepByte b s') := by
  intro t ht
  obtain ⟨q, evs, hq, rfl⟩ := stepByte_transition ht
  have ha := h.alike
  obtain ⟨-, hps, -⟩ := h.inv
  obtain ⟨-, hps', -⟩ := h.inv'
  rw [← ha.maxPayload] at hps'
  obtain ⟨q', hq', haq⟩ := hq.alike hps hps' ha.ps
  rw [ha.maxPayload] at hq'
  have ht' := hq'.stepByte_eq
  exact ⟨_, ht', h.of_keeps (stepByte_keeps ht) (stepByte_keeps ht')
    { ha with ps := haq, sink := congrArg (· ++ evs) ha.sink }⟩

omit h in
theorem Twins.feed (d : List Byte) (h : Twins s s') : Follows (feed d s) (feed d s') := by
  induction d generalizing s s' with
  | nil => intro t ht; cases ht; exact ⟨s', rfl, h⟩
  | cons b bs ih =>
    intro t ht
    simp only [Machine.feed] at ht
    split at ht
    · cases ht
    · rename_i u hu
      obtain ⟨u', hu', htw⟩ := h.stepByte b u hu
      rw [feed_cons_of_ok bs hu']
      exact ih htw t ht

/-- A query responds the same where it computes the same bytes. -/
theorem Twins.query {bs bs' : List Byte} (hb : bs = bs') :
    ResultFollows (.next (Machine.respond bs s)) (.next (Machine.respond bs' s')) :=
  hb ▸ .next (h.respond bs)

/-- Twins have the same legal error state. -/
theorem Twins.exists_err : ∃ e : CodecErr, s.pkt.err = e.bits ∧ s'.pkt.err = e.bits := by
  obtain ⟨⟨⟨-, -, h3, -⟩, -⟩, -, ha⟩ := h
  obtain ⟨e, he⟩ := Machine.exists_err h3
  exact ⟨e, he, ha.pkt.err ▸ he⟩

theorem Twins.execPktSuccess : ResultFollows (execPktSuccess s) (execPktSuccess s') := by
  obtain ⟨e, he, he'⟩ := h.exists_err
  simp only [Machine.execPktSuccess, readErr_eq he, readErr_eq he']
  exact h.query rfl

theorem Twins.execPktStatus : ResultFollows (execPktStatus s) (execPktStatus s') := by
  obtain ⟨e, he, he'⟩ := h.exists_err
  simp only [Machine.execPktStatus, readErr_eq he, readErr_eq he']
  exact h.query rfl

theorem Twins.execPktData : ResultFollows (execPktData s) (execPktData s') := by
  have hp := h.alike.pkt
  obtain ⟨⟨-, hl, -⟩, -⟩ := h.inv
  obtain ⟨⟨-, hl', -⟩, -⟩ := h.inv'
  simp only [Machine.execPktData, readStore_of_le _ ((Nat.zero_add _).le.trans hl),
    readStore_of_le _ ((Nat.zero_add _).le.trans hl')]
  exact h.query (by rw [hp.bytes.readRun (Nat.zero_add _).le, hp.len])

theorem Twins.execFrSendData (d : List Byte) : ResultFollows (execFrSendData d s) (execFrSendData d s') := by
  simp only [Machine.execFrSendData, ← h.alike.maxPayload]
  split
  · exact .next (h.refuse _)
  · exact .next (h.emit _)

theorem Twins.execFrSendParam (p0 p1 v : Byte) :
    ResultFollows (execFrSendParam p0 p1 v s) (execFrSendParam p0 p1 v s') := by
  simp only [Machine.execFrSendParam]
  split
  · exact .next (h.emit _)
  · exact .next (h.refuse _)

theorem Twins.execCdSetButton (i v : Byte) : ResultFollows (execCdSetButton i v s) (execCdSetButton i v s') := by
  simp only [Machine.execCdSetButton, ← h.alike.cd]
  split
  · exact .next (h.withCd _)
  · exact .next h

theorem Twins.execCdSetAnalog (c v : Byte) : ResultFollows (execCdSetAnalog c v s) (execCdSetAnalog c v s') := by
  simp only [Machine.execCdSetAnalog, ← h.alike.cd]
  split
  · exact .next (h.withCd _)
  · exact .next h

/-- Every operation of twins gives twins. -/
theorem Twins.exec (i : Instr) : ResultFollows (exec i s) (exec i s') := by
  cases i with
  | frFeed d => exact (Twins.feed d h).ofExcept
  | frSendData d => exact h.execFrSendData d
  | frSendParam p0 p1 v => exact h.execFrSendParam p0 p1 v
  | pktInit z => exact .next (h.initPacket z)
  | pktPackU8 v => exact (h.guardedPack _).ofExcept
  | pktPackU16 v => exact (h.guardedPack _).ofExcept
  | pktPackU32 v => exact (h.guardedPack _).ofExcept
  | pktPackU64 v => exact (h.guardedPack _).ofExcept
  | pktPackBytes d => exact (h.guardedPack _).ofExcept
  | pktUnpackU8 => exact (h.unpackRespond 1).ofExcept
  | pktUnpackU16 => exact (h.unpackRespond 2).ofExcept
  | pktUnpackU32 => exact (h.unpackRespond 4).ofExcept
  | pktUnpackU64 => exact (h.unpackRespond 8).ofExcept
  | pktUnpackBytes n => exact (h.unpackRespond n.toNat).ofExcept
  | pktSuccess => exact h.execPktSuccess
  | pktStatus => exact h.execPktStatus
  | pktLength => exact h.query (by rw [h.alike.pkt.len])
  | pktData => exact h.execPktData
  | pktId => exact h.query (by rw [h.alike.idWidth, h.alike.pkt.id])
  | cdSetButton i v => exact h.execCdSetButton i v
  | cdTestButton i => exact h.query (by rw [h.alike.cd])
  | cdSetAnalog c v => exact h.execCdSetAnalog c v
  | cdGetAnalog c => exact h.query (by rw [h.alike.cd])
  | cdPack => exact h.execCdPack
  | cdUnpack => exact h.execCdUnpack

/-- Twins decode the same command port, so they take the same step. -/
theorem Twins.step : ResultFollows (step s) (step s') := by
  simp only [Machine.step, ← h.alike.cmdPort]
  split
  · exact (h.withPort _).exec _
  · exact .next ((h.withPort _).refuse _)
  · exact .next h

end OnTwins

end Sys2Proof.Machine

namespace Sys2Proof

open Sys2Proof.Machine Sys2Proof.Claims

/-- Settles O60: blocks that look alike and meet the invariant are twins, and every operation keeps twins twins. -/
theorem unspecifiedRegistersUnobservable : Obligations.UnspecifiedRegistersUnobservable := by
  intro s s' t hs hs' ha ht
  obtain ⟨t', ht', htw⟩ := Twins.step ⟨hs, hs', looksAlike_iff.mp ha⟩ t ht
  exact ⟨t', ht', looksAlike_iff.mpr htw.alike⟩

end Sys2Proof

/-! The proofs of the family 30_encoding.md: the decoder and the encoder (R69 to R76), the responses (R72), the inbound
data frame (R62, R63), the controller payload (R66) and CD_SEND (R78). -/

namespace Sys2Proof

/-! ## The opcode bytes (30_encoding.md R70, R74) -/

/-- The ranges of the bytes that are no opcode (R74). -/
theorem illegalOpcode_iff (b : Byte) : (∀ row ∈ opTable, row.opcode ≠ b) ↔
    (b.toNat ≤ 0x0F ∨ (0x13 ≤ b.toNat ∧ b.toNat ≤ 0x1F) ∨ 0x36 ≤ b.toNat) := by
  simp only [opTable, List.cons_append, List.nil_append, List.forall_mem_cons, List.not_mem_nil, false_implies,
    implies_true, and_true, ne_eq]
  bv_omega

/-- The bits 7:1 of PKT_INIT's operand are 0 exactly below 2 (R71). -/
theorem extractLsb_seven_one_eq_zero_iff (a : Byte) : a.extractLsb 7 1 = 0 ↔ a.toNat < 2 := by
  rw [← BitVec.toNat_inj]
  simp [BitVec.extractLsb, Nat.shiftRight_eq_div_pow]
  omega

/-! ## What the decoder answers, and the bytes it takes (R69 to R76) -/

/-- The bytes `bs` are a well-formed operation's encoding. -/
def Instr.HasBytes (i : Instr) (bs : List Byte) : Prop := i.wellFormed = true ∧ encode i = bs

/-- The decoder's answer accounts for the bytes of the stream: the operation's encoding or the refused bytes, and then
the rest that the answer names. `decode_accounts` ties it to `decode`. -/
inductive Decoded.Accounts (stream : List Byte) : Decoded → Prop
  /-- an operation (R69) -/
  | op (i : Instr) (rest : List Byte) : i.wellFormed = true → stream = encode i ++ rest → Accounts stream (.op i rest)
  /-- an illegal opcode byte alone (R74) -/
  | illegalOpcode (b : Byte) (rest : List Byte) : (∀ row ∈ opTable, row.opcode ≠ b) → stream = b :: rest →
      Accounts stream (.rejected .illegalOpcode rest)
  /-- PKT_INIT with a reserved bit set (R74; log 4) -/
  | reservedBits (a : Byte) (rest : List Byte) : 2 ≤ a.toNat → stream = 0x20 :: a :: rest →
      Accounts stream (.rejected .reservedBits rest)
  /-- no complete operation (R73) -/
  | incomplete : Accounts stream .incomplete

theorem Instr.HasBytes.accounts {i : Instr} {bs : List Byte} (h : i.HasBytes bs) {rest stream : List Byte}
    (hs : stream = bs ++ rest) : Decoded.Accounts stream (.op i rest) := .op i rest h.1 (h.2 ▸ hs)

section Formats

variable {op : Byte} {n : Nat} (hop : op.toNat = n)

include hop

theorem decodeF0_accounts {i : Instr} (hi : i.HasBytes [BitVec.ofNat 8 n]) (bs : List Byte) :
    Decoded.Accounts (op :: bs) (.op i bs) := by
  subst hop
  exact hi.accounts (by simp)

theorem decodeF1_accounts {mk : Byte → Instr} (hmk : ∀ a, (mk a).HasBytes [BitVec.ofNat 8 n, a]) (bs : List Byte) :
    Decoded.Accounts (op :: bs) (decodeF1 mk bs) := by
  subst hop
  match bs with
  | [] => exact .incomplete
  | a :: rest => exact (hmk a).accounts (by simp)

theorem decodeF2_accounts {mk : Byte → Byte → Instr} (hmk : ∀ a b, (mk a b).HasBytes [BitVec.ofNat 8 n, a, b])
    (bs : List Byte) : Decoded.Accounts (op :: bs) (decodeF2 mk bs) := by
  subst hop
  match bs with
  | [] | [_] => exact .incomplete
  | a :: b :: rest => exact (hmk a b).accounts (by simp)

theorem decodeFP_accounts {mk : Byte → Byte → Byte → Instr}
    (hmk : ∀ p0 p1 v, (mk p0 p1 v).HasBytes [BitVec.ofNat 8 n, p0, p1, v]) (bs : List Byte) :
    Decoded.Accounts (op :: bs) (decodeFP mk bs) := by
  subst hop
  match bs with
  | [] | [_] | [_, _] => exact .incomplete
  | p0 :: p1 :: v :: rest => exact (hmk p0 p1 v).accounts (by simp)

theorem decodeFV_accounts (w : Nat) {mk : BitVec (8 * w) → Instr}
    (hmk : ∀ v, (mk v).HasBytes (BitVec.ofNat 8 n :: leBytes w v.toNat)) (bs : List Byte) :
    Decoded.Accounts (op :: bs) (decodeFV w (fun v => mk (BitVec.ofNat (8 * w) v)) bs) := by
  subst hop
  generalize hd : decodeFV w _ bs = d
  cases d with
  | incomplete => exact .incomplete
  | rejected r rest => simp only [decodeFV] at hd; split at hd <;> cases hd
  | op i rest =>
    obtain ⟨field, rfl, rfl, rfl⟩ := decodeFV_op hd
    have hlt : fromLE field < 2 ^ (8 * field.length) := by simpa [Nat.pow_mul] using fromLE_lt field
    have hv : leBytes field.length (BitVec.ofNat (8 * field.length) (fromLE field)).toNat = field := by
      rw [BitVec.toNat_ofNat, Nat.mod_eq_of_lt hlt, leBytes_fromLE]
    have hbytes := hmk (BitVec.ofNat (8 * field.length) (fromLE field))
    rw [hv] at hbytes
    exact hbytes.accounts (by simp)

theorem decodeFN_accounts {mk : List Byte → Instr}
    (hmk : ∀ d, d.length ≤ Config.maxCount → (mk d).HasBytes (BitVec.ofNat 8 n :: BitVec.ofNat 8 d.length :: d))
    (bs : List Byte) : Decoded.Accounts (op :: bs) (decodeFN mk bs) := by
  subst hop
  generalize hd : decodeFN mk bs = d
  cases d with
  | incomplete => exact .incomplete
  | rejected r rest =>
    cases bs with
    | nil => cases hd
    | cons a bs => simp only [decodeFN] at hd; split at hd <;> cases hd
  | op i rest =>
    obtain ⟨d, hlen, rfl, rfl⟩ := decodeFN_op hd
    exact (hmk d hlen).accounts (by simp)

end Formats

theorem decodeInit_accounts {op : Byte} (hop : op.toNat = 0x20) (bs : List Byte) :
    Decoded.Accounts (op :: bs) (decodeInit bs) := by
  obtain rfl : op = 0x20 := BitVec.eq_of_toNat_eq hop
  match bs with
  | [] => exact .incomplete
  | a :: rest =>
    simp only [decodeInit, extractLsb_seven_one_eq_zero_iff]
    split
    case isFalse ha => exact .reservedBits a rest (Nat.not_lt.mp ha) rfl
    case isTrue ha =>
      obtain rfl | rfl : a = 0 ∨ a = 1 := by bv_omega
      · exact .op _ rest rfl rfl
      · exact .op _ rest rfl rfl


/-- The decoder's answer accounts for the bytes of every stream, by the format of its opcode byte. -/
theorem decode_accounts (stream : List Byte) : Decoded.Accounts stream (decode stream) := by
  cases stream with
  | nil => exact .incomplete
  | cons op bs =>
    simp only [decode]
    split
    next hop => exact decodeFN_accounts hop (mk := .frFeed) (fun _ hd => ⟨decide_eq_true hd, rfl⟩) bs
    next hop => exact decodeFN_accounts hop (mk := .frSendData) (fun _ hd => ⟨decide_eq_true hd, rfl⟩) bs
    next hop => exact decodeFP_accounts hop (fun _ _ _ => ⟨rfl, rfl⟩) bs
    next hop => exact decodeInit_accounts hop bs
    next hop => exact decodeFV_accounts hop 1 (mk := .pktPackU8) (fun _ => ⟨rfl, rfl⟩) bs
    next hop => exact decodeFV_accounts hop 2 (mk := .pktPackU16) (fun _ => ⟨rfl, rfl⟩) bs
    next hop => exact decodeFV_accounts hop 4 (mk := .pktPackU32) (fun _ => ⟨rfl, rfl⟩) bs
    next hop => exact decodeFV_accounts hop 8 (mk := .pktPackU64) (fun _ => ⟨rfl, rfl⟩) bs
    next hop => exact decodeFN_accounts hop (mk := .pktPackBytes) (fun _ hd => ⟨decide_eq_true hd, rfl⟩) bs
    next hop => exact decodeF0_accounts hop ⟨rfl, rfl⟩ bs
    next hop => exact decodeF0_accounts hop ⟨rfl, rfl⟩ bs
    next hop => exact decodeF0_accounts hop ⟨rfl, rfl⟩ bs
    next hop => exact decodeF0_accounts hop ⟨rfl, rfl⟩ bs
    next hop => exact decodeF0_accounts hop ⟨rfl, rfl⟩ bs
    next hop => exact decodeF0_accounts hop ⟨rfl, rfl⟩ bs
    next hop => exact decodeF0_accounts hop ⟨rfl, rfl⟩ bs
    next hop => exact decodeF1_accounts hop (fun _ => ⟨rfl, rfl⟩) bs
    next hop => exact decodeF0_accounts hop ⟨rfl, rfl⟩ bs
    next hop => exact decodeF0_accounts hop ⟨rfl, rfl⟩ bs
    next hop => exact decodeF2_accounts hop (fun _ _ => ⟨rfl, rfl⟩) bs
    next hop => exact decodeF1_accounts hop (fun _ => ⟨rfl, rfl⟩) bs
    next hop => exact decodeF2_accounts hop (fun _ _ => ⟨rfl, rfl⟩) bs
    next hop => exact decodeF1_accounts hop (fun _ => ⟨rfl, rfl⟩) bs
    next hop => exact decodeF0_accounts hop ⟨rfl, rfl⟩ bs
    next hop => exact decodeF0_accounts hop ⟨rfl, rfl⟩ bs
    next =>
      simp only [imp_false] at *
      exact .illegalOpcode op bs ((illegalOpcode_iff op).mpr (by omega)) rfl

/-- What the decoder reads is well-formed and is the bytes it took. -/
theorem decode_eq_op {bs rest : List Byte} {i : Instr} (h : decode bs = .op i rest) :
    i.wellFormed = true ∧ bs = encode i ++ rest := by
  cases h ▸ decode_accounts bs with
  | op _ _ hi hs => exact ⟨hi, hs⟩

/-- A byte that is no opcode is refused alone (R74). -/
theorem decode_of_illegalOpcode {b : Byte} (hb : ∀ row ∈ opTable, row.opcode ≠ b) (rest : List Byte) :
    decode (b :: rest) = .rejected .illegalOpcode rest := by
  rw [illegalOpcode_iff] at hb
  simp only [decode]
  split
  case h_26 => rfl
  all_goals omega

/-- PKT_INIT with a reserved bit set is refused (R74; log 4). -/
theorem decode_of_reservedBits {a : Byte} (ha : 2 ≤ a.toNat) (rest : List Byte) :
    decode (0x20 :: a :: rest) = .rejected .reservedBits rest := by
  have hne : ¬ a.extractLsb 7 1 = 0 := by rw [extractLsb_seven_one_eq_zero_iff]; omega
  exact if_neg hne

/-- A refusal is decided by the bytes it takes, whatever follows them. -/
theorem decode_append_of_rejected {bs rest : List Byte} {r : RefuseReason} (h : decode bs = .rejected r rest)
    (more : List Byte) : decode (bs ++ more) = .rejected r (rest ++ more) := by
  cases h ▸ decode_accounts bs with
  | illegalOpcode b _ hb hs => exact hs ▸ decode_of_illegalOpcode hb (rest ++ more)
  | reservedBits a _ ha hs => exact hs ▸ decode_of_reservedBits ha (rest ++ more)

/-- An operation is decided by the bytes it takes, whatever follows them. -/
theorem decode_append_of_op {bs rest : List Byte} {i : Instr} (h : decode bs = .op i rest) (more : List Byte) :
    decode (bs ++ more) = .op i (rest ++ more) := by
  obtain ⟨hi, rfl⟩ := decode_eq_op h
  rw [List.append_assoc, decode_encode_append hi]

/-- Part of an operation's bytes is incomplete: another answer would stand when the missing bytes have
arrived, and would leave them over (R73). -/
theorem decode_take_encode {i : Instr} (hi : i.wellFormed = true) {k : Nat} (hk : k < (encode i).length) :
    decode ((encode i).take k) = .incomplete := by
  have hwhole : decode ((encode i).take k ++ (encode i).drop k) = .op i [] := by
    simpa using decode_encode_append hi []
  cases hd : decode ((encode i).take k) with
  | incomplete => rfl
  | rejected r rest => rw [decode_append_of_rejected hd] at hwhole; cases hwhole
  | op j rest =>
    rw [decode_append_of_op hd] at hwhole
    obtain ⟨-, hdrop⟩ : j = i ∧ rest = [] ∧ (encode i).length ≤ k := by simpa using hwhole
    omega

/-- The length read from the first bytes of an operation is the length of its encoding (R73). -/
theorem opLength_encode_append {i : Instr} (hi : i.wellFormed = true) (rest : List Byte) :
    opLength (encode i ++ rest) = some (encode i).length := by
  cases i with
  | frFeed d => exact (Laws.OpLength.frFeed d hi).2 rest
  | frSendData d => exact (Laws.OpLength.frSendData d hi).2 rest
  | pktPackBytes d => exact (Laws.OpLength.pktPackBytes d hi).2 rest
  | _ => rfl

theorem encode_length_pos (i : Instr) : 0 < (encode i).length := Nat.succ_pos _

/-- With fuel for every byte the split accounts for the whole stream (R76). -/
theorem splitFuel_splits {fuel : Nat} {bs : List Byte} (h : bs.length ≤ fuel) :
    Claims.Splits (splitFuel fuel bs).1 bs (splitFuel fuel bs).2 := by
  induction fuel generalizing bs with
  | zero =>
    obtain rfl : bs = [] := List.length_eq_zero_iff.mp (Nat.le_zero.mp h)
    exact ⟨rfl, rfl⟩
  | succ fuel ih =>
    have hacc := decode_accounts bs
    simp only [splitFuel]
    generalize hd : decode bs = d at hacc
    cases hacc with
    | incomplete => exact ⟨rfl, hd⟩
    | op i rest hi hs =>
      have hpos := encode_length_pos i
      rw [hs, List.length_append] at h
      exact ⟨hi, rest, hs, ih (by omega)⟩
    | illegalOpcode b rest hb hs =>
      rw [hs, List.length_cons] at h
      exact ⟨b, rest, hs, hb, ih (by omega)⟩
    | reservedBits a rest ha hs =>
      rw [hs, List.length_cons, List.length_cons] at h
      exact ⟨a, rest, hs, ha, ih (by omega)⟩

/-! ## Responses (R72) -/

/-- No framer operation responds. -/
theorem Instr.responseLength?_of_isFramer {i : Instr} (h : i.isFramer = true) (idWidth pktLen : Nat) :
    i.responseLength? idWidth pktLen = none := by
  revert h
  cases i <;> simp [Instr.isFramer, Instr.responseLength?]

end Sys2Proof

namespace Sys2Proof.Machine

open Sys2Proof.Claims

theorem step_of_decode_incomplete {s : State} (h : decode s.cmdPort = .incomplete) : step s = .next s := by
  simp only [step, h]

/-- A query that completes appends a response of the length in the table. -/
theorem exec_query_resp {i : Instr} {s t : State} {n : Nat}
    (hi : i.responseLength? s.idWidth s.pkt.len.toNat = some n) (h : exec i s = .next t) :
    ∃ bs, t.resp = s.resp ++ bs ∧ bs.length = n := by
  cases exec_cases h with
  | feed d e => subst e; cases hi
  | send f hf => simp [Instr.responseLength?_of_isFramer hf] at hi
  | refuse r hf => simp [Instr.responseLength?_of_isFramer hf] at hi
  | init z e => subst e; cases hi
  | pack bs _ _ hq => simp [hq] at hi
  | unpack m _ _ hq hu =>
    obtain ⟨-, bs, hresp, hlen⟩ := unpackRespond_frame hu
    exact ⟨bs, hresp, hlen.trans (Option.some.inj (hq.symm.trans hi))⟩
  | query bs _ _ hq ht => exact ⟨bs, ht ▸ rfl, Option.some.inj (hq.symm.trans hi)⟩
  | setButton j v m e => subst e; cases hi
  | setAnalog c v a e => subst e; cases hi
  | cdPack e => subst e; cases hi
  | cdUnpack e => subst e; cases hi

/-! ## Inbound frames (R62, R63) -/

/-- A byte of a run of digits has the value of its place in the run (00_scope.md R13). -/
theorem hexVal?_of_mem_run {r : DigitRun} (hr : r ∈ digitRuns) {b : Byte} (hlo : r.first.toNat ≤ b.toNat)
    (hhi : b.toNat < r.first.toNat + r.count) :
    hexVal? b = some (r.value + BitVec.ofNat 4 (b.toNat - r.first.toNat)) := by
  have hb : b = r.first + BitVec.ofNat 8 (b.toNat - r.first.toNat) := by
    apply BitVec.eq_of_toNat_eq
    rw [BitVec.toNat_add, BitVec.toNat_ofNat]
    omega
  rw [hb, hexVal?_run hr (by omega), ← hb]

/-- The statements' hexadecimal digits are the parser's (00_scope.md R13). -/
theorem hexVal?_of_hexDigit {b : Byte} {v : Nat} (h : HexDigit b v) : ∃ d, hexVal? b = some d ∧ d.toNat = v := by
  rcases h with ⟨hlo, hhi, rfl⟩ | ⟨hlo, hhi, rfl⟩ | ⟨hlo, hhi, rfl⟩
  · exact ⟨_, hexVal?_of_mem_run (r := ⟨0x30, 0, 10⟩) (by decide) hlo (by simp; omega), by simp; omega⟩
  · exact ⟨_, hexVal?_of_mem_run (r := ⟨0x41, 10, 6⟩) (by decide) hlo (by simp; omega), by simp; omega⟩
  · exact ⟨_, hexVal?_of_mem_run (r := ⟨0x61, 10, 6⟩) (by decide) hlo (by simp; omega), by simp; omega⟩

theorem exec_frFeed (d : List Byte) (s : State) : exec (.frFeed d) s = ofExcept (feed d s) := rfl

/-- The pieces of a byte string, fed one after another, do what the whole string does (R78, R79). -/
theorem execAll_feedPieces {fuel : Nat} {bs : List Byte} (h : bs.length ≤ fuel) (s : State) :
    execAll (feedPieces fuel bs) s = ofExcept (feed bs s) := by
  induction fuel generalizing bs s with
  | zero =>
    obtain rfl : bs = [] := List.length_eq_zero_iff.mp (Nat.le_zero.mp h)
    rfl
  | succ fuel ih =>
    cases bs with
    | nil => rfl
    | cons b bs =>
      have hpieces : feedPieces (fuel + 1) (b :: bs) =
          .frFeed ((b :: bs).take Config.maxCount) :: feedPieces fuel ((b :: bs).drop Config.maxCount) := rfl
      have hsplit := feed_append ((b :: bs).take Config.maxCount) ((b :: bs).drop Config.maxCount) s
      rw [List.take_append_drop] at hsplit
      rw [hpieces, execAll_cons, exec_frFeed, hsplit]
      cases feed ((b :: bs).take Config.maxCount) s with
      | error f => rfl
      | ok t => exact ih (by simp at h ⊢; omega) t

theorem execAll_frFeedBytes (bs : List Byte) (s : State) : execAll (frFeedBytes bs) s = ofExcept (feed bs s) :=
  execAll_feedPieces le_rfl s

theorem ParserFrame.onlyParserAndSink {s t : State} (h : ParserFrame s t) : OnlyParserAndSink s t := by
  cases t
  simp only [OnlyParserAndSink, State.mk.injEq, true_and]
  exact ⟨h.pkt, h.cd, h.maxPayload, h.idWidth, h.cmdPort, h.resp, h.refusals⟩

/-- A collision frame gives COLLISION_DETECTED and leaves the parser idle (R63, 40_framer_parser.md R84, R96). -/
theorem feed_collisionFrame {s : State} (hs : s.ps.state = 0) :
    ∃ t, feed [0x2A, 0x49, 0x52, 0x0D, 0x0A] s = .ok t ∧
      t.sink = s.sink ++ [.error .collisionDetected] ∧ t.ps.Idle := by
  have htoken := feed_cons_of_ok [0x49, 0x52, 0x0D, 0x0A] (stepByte_star hs)
  exact ⟨_, htoken, rfl, resetParser_idle _⟩

/-! ## The controller payload (R66) -/

/-- PKT_INIT 0 and CD_PACK leave the packet with the payload alone, unread. -/
theorem execAll_init_cdPack_eq (s : State) :
    execAll [.pktInit false, .cdPack] s = .next (withPackedBytes (payloadBytes s.cd) s) :=
  exec_cdPack_fits (s := initPacket false s) rfl (by simp [Config.capacity])

/-- Bit `i` of the mask stands in byte `i / 8` of the payload at bit `i % 8`. -/
theorem getLsbD_payloadBytes_mask (cd : Controller) {i : Nat} (hi : i < 16) :
    ((payloadBytes cd).getD (i / 8) 0).getLsbD (i % 8) = cd.mask.getLsbD i := by
  have hbyte : i % 8 < 8 := Nat.mod_lt i (by decide)
  obtain h | h : i / 8 = 0 ∨ i / 8 = 1 := by omega
  · have hpos : 0 + i % 8 = i := by omega
    simp [h, payloadBytes, hbyte, hpos]
  · have hpos : 8 + i % 8 = i := by omega
    simp [h, payloadBytes, hbyte, hpos]

/-- Bit `k` of nibble `m` of a byte, the low nibble being nibble 0. -/
theorem getLsbD_nibble (b : Byte) (m : Nat) {k : Nat} (hk : k < 4) :
    b.getLsbD (4 * m + k) = (b.toNat / 2 ^ (4 * m) % 16).testBit k := by
  rw [show 16 = 2 ^ 4 from rfl, Nat.testBit_mod_two_pow, Nat.testBit_div_two_pow, Nat.add_comm]
  simp [hk, BitVec.getLsbD]

/-- Channel `c` stands in byte `2 + c / 2` of the payload as its nibble `c % 2` (10_state.md R29). -/
theorem nibble_eq_payloadBytes (cd : Controller) (c : Nat) :
    nibble cd.analog c = ((payloadBytes cd).getD (2 + c / 2) 0).toNat / 2 ^ (4 * (c % 2)) % 16 := by
  have hbyte : [cd.analog.b0, cd.analog.b1, cd.analog.b2].getD (c / 2) 0 = (payloadBytes cd).getD (2 + c / 2) 0 := by
    rw [Nat.add_comm]
    rfl
  rw [nibble, hbyte]
  rcases Nat.mod_two_eq_zero_or_one c with h | h <;> simp [h]

/-- What CD_PACK leaves in an empty packet. -/
theorem exec_cdPack_empty {s : State} (hw : Memory.wf s.pkt.buf = true) (h0 : s.pkt.err = 0) (hl : s.pkt.len = 0) :
    ∃ t, exec .cdPack s = .next t ∧ t.pkt.len = 5 ∧
      ∀ j, j < 5 → Memory.read t.pkt.buf j = (payloadBytes s.cd).getD j 0 := by
  refine ⟨_, exec_cdPack_fits h0 (by simp [hl, Config.capacity]), by simp [hl], fun j hj => ?_⟩
  have hlen : j < (payloadBytes s.cd).length := hj
  rw [List.getD_eq_getElem _ _ hlen]
  simpa [hl] using Memory.read_writeRun_inside hw 0 (payloadBytes s.cd) hlen

/-! ## Sending the packet (R78, R64) -/

/-- The packet holds exactly the bytes `bs` (10_state.md R22, R23). -/
structure HoldsPacket (bs : List Byte) (s : State) : Prop where
  len : s.pkt.len.toNat = bs.length
  bytes : Memory.readRun s.pkt.buf 0 bs.length = bs
  fits : bs.length ≤ Config.capacity

theorem withPackedBytes_holdsPacket {bs : List Byte} {s : State} (hw : Memory.wf s.pkt.buf = true)
    (h : bs.length ≤ Config.capacity) : HoldsPacket bs (withPackedBytes bs s) :=
  ⟨Nat.mod_eq_of_lt (lt_of_le_of_lt h (by decide)), Memory.readRun_writeRun_self hw 0 bs, h⟩

@[simp] theorem responseSince_respond (bs : List Byte) (s : State) : responseSince s (respond bs s) = bs := by
  simp [responseSince]

theorem exec_pktData_of_holdsPacket {bs : List Byte} {s : State} (h : HoldsPacket bs s) :
    exec .pktData s = .next (respond (s.pkt.len.setWidth 8 :: bs) s) := by
  have hread : readStore Config.capacity s.pkt.buf 0 s.pkt.len.toNat = .ok bs := by
    rw [h.len, readStore_of_le _ (by simpa using h.fits), h.bytes]
  simp only [exec, execPktData, hread]

theorem exec_frSendData_fits {d : List Byte} {s : State} (h : d.length ≤ s.maxPayload.val) :
    exec (.frSendData d) s = .next (emit (.sendBytes (sendDataFrame d)) s) := by
  simp only [exec, execFrSendData, if_neg (Nat.not_lt.mpr h)]

/-- The send-payload frame of a controller payload (R64). -/
theorem sendDataFrame_payloadBytes (cd : Controller) : sendDataFrame (payloadBytes cd) =
    [0x40, 0x44, 0x54, 0x30, 0x35] ++ payloadBytes cd ++ [0x0D, 0x0A] := by
  have hdigits : hex2 (BitVec.ofNat 8 (payloadBytes cd).length) = [0x30, 0x35] := by rw [payloadBytes_length]; decide
  rw [sendDataFrame, hdigits]
  rfl

/-- PKT_SEND sends the packet's bytes in a send-payload frame. -/
theorem pktSend_of_holdsPacket {bs : List Byte} {s : State} (h : HoldsPacket bs s)
    (hmax : bs.length ≤ s.maxPayload.val) :
    pktSend s = .next (emit (.sendBytes (sendDataFrame bs)) (respond (s.pkt.len.setWidth 8 :: bs) s)) := by
  have htake : bs.take (s.pkt.len.setWidth 8).toNat = bs := by
    rw [BitVec.toNat_setWidth_of_le (by decide), h.len, List.take_length]
  rw [pktSend, exec_pktData_of_holdsPacket h, andThen_next]
  simp only [responseSince_respond, htake]
  exact exec_frSendData_fits (by simpa using hmax)

/-- CD_SEND packs the payload of the controller value, finds success, and sends that packet. -/
theorem cdSend_eq {s : State} (hw : Memory.wf s.pkt.buf = true) (hmax : 5 ≤ s.maxPayload.val) :
    cdSend s = .next (emit (.sendBytes (sendDataFrame (payloadBytes s.cd)))
      (respond (0x05 :: payloadBytes s.cd) (respond [0x01] (withPackedBytes (payloadBytes s.cd) s)))) := by
  have hpacked := withPackedBytes_holdsPacket hw (bs := payloadBytes s.cd) (by simp [Config.capacity])
  have hheld : HoldsPacket (payloadBytes s.cd) (respond [0x01] (withPackedBytes (payloadBytes s.cd) s)) :=
    ⟨hpacked.len, hpacked.bytes, hpacked.fits⟩
  rw [cdSend, execAll_init_cdPack_eq, andThen_next, exec_pktSuccess_of_ok rfl, andThen_next, responseSince_respond,
    if_pos rfl, pktSend_of_holdsPacket hheld (by exact hmax)]
  rfl

end Sys2Proof.Machine

namespace Sys2Proof

open Sys2Proof.Machine Sys2Proof.Claims

/-- Settles O9, format by format. -/
theorem decodeInvertsEncode : Obligations.DecodeInvertsEncode := fun _ rest hi => decode_encode_append hi rest

/-- Settles O10: the decoder's answer accounts for the bytes it takes. -/
theorem decodedOperationIsItsBytes : Obligations.DecodedOperationIsItsBytes := fun _ _ _ => decode_eq_op

/-- Settles O11: one fuel a byte is enough, since each part takes a byte or more. -/
theorem streamSplitsIntoOperations : Obligations.StreamSplitsIntoOperations := fun _ => splitFuel_splits le_rfl

/-- Settles O15: part of an operation's bytes decodes as incomplete, and the step then waits. -/
theorem incompleteOperationWaits : Obligations.IncompleteOperationWaits := by
  refine ⟨fun i rest hi => opLength_encode_append hi rest, fun s i k hi hk hp => step_of_decode_incomplete ?_⟩
  rw [hp, decode_take_encode hi hk]

/-- Settles O18, by inversion of `exec`. -/
theorem responsesHaveTheirLength : Obligations.ResponsesHaveTheirLength := fun _ _ _ _ hi h => exec_query_resp hi h

/-- Settles O27: the pieces of FR_FEED_BYTES feed the whole frame, whose digits declare the payload's length. -/
theorem wellFormedFramesDecode : Obligations.WellFormedFramesDecode := by
  refine ⟨fun s p h l vh vl hs hw hmax hh hl hn => ?_, fun s hs => ?_⟩
  · obtain ⟨dh, hdh, rfl⟩ := hexVal?_of_hexDigit hh
    obtain ⟨dl, hdl, rfl⟩ := hexVal?_of_hexDigit hl
    obtain ⟨t, ht, hsink, hidle⟩ := feed_dataFrame p hs hw hdh hdl hn hmax
    exact ⟨t, (execAll_frFeedBytes _ s).trans (congrArg Machine.ofExcept ht), (feed_frame ht).onlyParserAndSink,
      hsink, hidle⟩
  · obtain ⟨t, ht, hsink, hidle⟩ := feed_collisionFrame hs
    exact ⟨t, congrArg Machine.ofExcept ht, (feed_frame ht).onlyParserAndSink, hsink, hidle⟩

/-- Settles O55: the packet's bytes are the payload, whose bytes are the mask's two and then the analog ones. -/
theorem payloadBitPositions : Obligations.PayloadBitPositions := by
  intro s hw h0 hl
  obtain ⟨t, ht, hlen, hbytes⟩ := exec_cdPack_empty hw h0 hl
  refine ⟨t, ht, hlen, fun i hi => ?_, fun c k hc hk => ?_⟩
  · rw [hbytes _ (by omega), getLsbD_payloadBytes_mask s.cd hi]
  · rw [hbytes _ (by omega), getLsbD_nibble _ _ hk, nibble_eq_payloadBytes]

/-- Settles O58: CD_SEND's one event is the payload's frame, and it touches neither the parser nor the value. -/
theorem controllerSent : Obligations.ControllerSent := by
  intro s hw hmax
  refine ⟨_, cdSend_eq hw hmax, rfl, rfl, rfl, ?_, ?_⟩
  · rw [emit_sink, sentBytes_append, sendDataFrame_payloadBytes]
    simp [sentBytes, withPackedBytes]
  · rw [emit_sink, inboundEvents_append]
    simp [inboundEvents, withPackedBytes]

/-- Settles O12: the decoder, evaluated on each byte string. -/
theorem writtenOutWordsDecode : Obligations.WrittenOutWordsDecode :=
  ⟨rfl, rfl, rfl, rfl, rfl, rfl, rfl, rfl⟩

/-- Settles O13: the step takes the decoder's refusal. -/
theorem illegalEncodingsRefused : Obligations.IllegalEncodingsRefused := by
  refine ⟨illegalOpcode_iff, fun s b rest hp hb => ?_, fun s a rest hp ha => ⟨rest, ?_⟩⟩
  · exact step_of_decode_rejected (by rw [hp, decode_of_illegalOpcode ((illegalOpcode_iff b).mpr hb)])
  · exact step_of_decode_rejected (by rw [hp, decode_of_reservedBits ha])

end Sys2Proof

/-! The proofs of the family 40_framer_parser.md: what a byte does in each parser state (R82 to R97), how bytes are fed
(R79, R99), the events (R100), and what the parser reads and writes (R104). -/

namespace Sys2Proof.Machine

open Sys2Proof.Claims

/-! ## Feeding bytes (40_framer_parser.md R79, R99) -/

/-- FR_FEED of one byte is the byte step. -/
theorem exec_frFeed_singleton (b : Byte) (s : State) : exec (.frFeed [b]) s = ofExcept (stepByte b s) := by
  rw [exec_frFeed, feed]
  cases stepByte b s <;> rfl

/-- A transition is what FR_FEED of its byte does. -/
theorem ParserStep.exec_eq {b : Byte} {s : State} {q : Parser} {evs : List Event}
    (h : ParserStep s.maxPayload.val b s.ps q evs) :
    exec (.frFeed [b]) s = .next { s with ps := q, sink := s.sink ++ evs } := by
  rw [exec_frFeed_singleton, h.stepByte_eq]
  rfl

theorem ParserStep.exec_eq_of_silent {b : Byte} {s : State} {q : Parser}
    (h : ParserStep s.maxPayload.val b s.ps q []) : exec (.frFeed [b]) s = .next { s with ps := q } := by
  rw [h.exec_eq, List.append_nil]

theorem ParserStep.emitsErrorAndResets {b : Byte} {s : State} {c : FrameError}
    (h : ParserStep s.maxPayload.val b s.ps s.ps.idle [.error c]) :
    EmitsErrorAndResets c s (exec (.frFeed [b]) s) :=
  h.exec_eq

/-- A sequence of feeds does what one feed of the joined bytes would do. -/
theorem execAll_map_frFeed (cs : List (List Byte)) (s : State) :
    execAll (cs.map Instr.frFeed) s = ofExcept (feed cs.flatten s) := by
  induction cs generalizing s with
  | nil => rfl
  | cons c cs ih =>
    rw [List.map_cons, execAll_cons, exec_frFeed, List.flatten_cons, feed_append]
    cases feed c s with
    | error f => rfl
    | ok t => exact ih t

/-- In WAIT_HEAD bytes without a star are discarded (R83). -/
theorem feed_discards {s : State} {d : List Byte} (hs : s.ps.state = ParserState.waitHead.bits) (hd : Ascii.star ∉ d) :
    feed d s = .ok s := by
  induction d with
  | nil => rfl
  | cons b d ih =>
    obtain ⟨hb, hd⟩ := not_or.mp (List.mem_cons.not.mp hd)
    have hstep : stepByte b s = .ok s := by rw [stepByte_of_waitHead hs, stepWaitHead, if_neg (Ne.symm hb)]
    rw [feed_cons_of_ok d hstep, ih hd]

/-- A byte that meets an encoding without a parser state is a model fault (R97). -/
theorem feed_cons_of_no_state {s : State} (h : parserState? s.ps.state = none) (b : Byte) (d : List Byte) :
    feed (b :: d) s = .error .modelFaultState := by
  simp only [feed, stepByte, h]

/-! ## Hexadecimal digits (00_scope.md R13) -/

/-- A byte less than the run's count after its first digit stands in the run. -/
theorem DigitRun.bounds_of_offset_lt {r : DigitRun} (hr : r ∈ digitRuns) {b : Byte} (h : r.offset b < r.count) :
    r.first.toNat ≤ b.toNat ∧ b.toNat < r.first.toNat + r.count := by
  have hfits : ∀ r ∈ digitRuns, r.first.toNat + r.count ≤ 256 := by decide
  have hr := hfits r hr
  have hb := b.isLt
  rw [DigitRun.offset, BitVec.toNat_sub] at h
  omega

/-- Every run's bytes are digits of the statements. -/
theorem exists_hexDigit_of_offset_lt {r : DigitRun} (hr : r ∈ digitRuns) {b : Byte} (h : r.offset b < r.count) :
    ∃ v, HexDigit b v := by
  obtain ⟨hlo, hhi⟩ := DigitRun.bounds_of_offset_lt hr h
  simp only [digitRuns, List.mem_cons, List.not_mem_nil, or_false] at hr
  rcases hr with rfl | rfl | rfl
  · exact ⟨_, .inl ⟨hlo, Nat.le_of_lt_succ hhi, rfl⟩⟩
  · exact ⟨_, .inr (.inl ⟨hlo, Nat.le_of_lt_succ hhi, rfl⟩)⟩
  · exact ⟨_, .inr (.inr ⟨hlo, Nat.le_of_lt_succ hhi, rfl⟩)⟩

/-- A byte that is no digit in the statements has no `hexVal`. -/
theorem hexVal?_of_notHex {b : Byte} (h : NotHex b) : hexVal? b = none := by
  rw [hexVal?_eq_none]
  intro r hr
  by_contra hlt
  obtain ⟨v, hv⟩ := exists_hexDigit_of_offset_lt hr (Nat.not_le.mp hlt)
  exact h v hv

/-! ## The token bytes (40_framer_parser.md R87) -/

/-- Once the current byte is stored, `ps_cmd` begins with the token, and its other bytes are unchanged. -/
theorem Parser.toList_set_cmd {p : Parser} (b : Byte) (h : p.cmdCnt.toNat ≤ 2) :
    (p.cmd.set p.cmdCnt.toNat b).toList = p.token b ++ p.cmd.toList.drop (p.token b).length := by
  rw [Parser.token_length, Parser.token]
  generalize p.cmdCnt.toNat = k at h
  interval_cases k <;> rfl

/-! ## The end of a frame (40_framer_parser.md R90, R100) -/

/-- A transition from another state back to WAIT_HEAD emits. -/
theorem ParserStep.emits_of_returns {n : Nat} {b : Byte} {p q : Parser} {evs : List Event} (h : ParserStep n b p q evs)
    (hp : p.state ≠ 0) (hq : q.state = 0) : evs ≠ [] := by
  cases h with
  | discard => exact absurd hq hp
  | head | tokenIR | tokenDR | lengthZero | lengthFits | lastByte => cases hq
  | tokenGrows | firstDigit | dataByte | footerFirst => exact absurd hq hp
  | tokenBad | notHex | tooLong | footerBad | payload | collision => exact List.cons_ne_nil _ _

/-- The length FF is too long for every MAX_PAYLOAD (00_scope.md R7): the frame ends with LENGTH_TOO_LONG. -/
theorem feed_lengthFF {s : State} (hs : s.ps.state = ParserState.length.bits) (hc : s.ps.lenCnt = 0) :
    feed [0x46, 0x46] s =
      .ok { s with ps := { s.ps with lenHi := 15, lenCnt := 1 }.idle, sink := s.sink ++ [.error .lengthTooLong] } := by
  have hfirst : ParserStep s.maxPayload.val 0x46 s.ps { s.ps with lenHi := 15, lenCnt := 1 } [] :=
    .firstDigit 15 hs (by decide) hc
  have hsecond : ParserStep s.maxPayload.val 0x46 { s.ps with lenHi := 15, lenCnt := 1 } _ _ :=
    .tooLong 15 hs (by decide) rfl s.maxPayload.isLt
  rw [feed_cons_of_ok _ hfirst.stepByte_eq, List.append_nil,
    feed_cons_of_ok _ (ParserStep.stepByte_eq (s := { s with ps := _ }) hsecond)]
  rfl

/-- A frame head with the length FF gives LENGTH_TOO_LONG and leaves the parser in WAIT_HEAD (R90). -/
theorem feed_head_lengthFF {s : State} (hs : s.ps.state = 0) :
    ∃ t, feed [0x2A, 0x44, 0x52, 0x3D, 0x46, 0x46] s = .ok t ∧ t.ps.state = 0 ∧ t.ps.data = s.ps.data ∧
      t.sink = s.sink ++ [.error .lengthTooLong] := by
  obtain ⟨t, ht, hstate, hcnt, hdata, hsink⟩ := feed_head_tokenDR hs
  exact ⟨_, (feed_append_of_ok _ ht).trans (feed_lengthFF hstate hcnt), rfl, hdata, by rw [hsink]⟩

/-- After a frame of length FF, and whatever bytes without a star follow it, the next data frame gives its payload
(R83, R90, R102). -/
theorem feed_tooLongFrame_dataFrame {s : State} {junk d : List Byte} {h l : Byte} {vh vl : BitVec 4}
    (hs : s.ps.state = 0) (hw : Memory.wf s.ps.data = true) (hjunk : Ascii.star ∉ junk) (hh : hexVal? h = some vh)
    (hl : hexVal? l = some vl) (hn : 16 * vh.toNat + vl.toNat = d.length) (hmax : d.length ≤ s.maxPayload.val) :
    ∃ t, feed ([0x2A, 0x44, 0x52, 0x3D, 0x46, 0x46] ++ junk ++
        ([0x2A, 0x44, 0x52, 0x3D, h, l] ++ d ++ [0x0D, 0x0A])) s = .ok t ∧
      t.sink = s.sink ++ [.error .lengthTooLong, .payload d] ∧ t.ps.Idle := by
  obtain ⟨t, ht, hstate, hdata, hsink⟩ := feed_head_lengthFF hs
  have hmt : t.maxPayload = s.maxPayload := (feed_frame ht).maxPayload
  obtain ⟨u, hu, hsink', hidle⟩ := feed_dataFrame d hstate (hdata ▸ hw) hh hl hn (hmt ▸ hmax)
  have hhead := (feed_append_of_ok junk ht).trans (feed_discards hstate hjunk)
  exact ⟨u, (feed_append_of_ok _ hhead).trans hu, by rw [hsink', hsink, List.append_assoc]; rfl, hidle⟩

/-! ## What the parser reads (40_framer_parser.md R104) -/

/-- Two blocks with the same parser registers and MAX_PAYLOAD feed the same bytes to the same registers and events. -/
theorem feed_congr {d : List Byte} {s s' t : State} (hps : s'.ps = s.ps) (hmax : s'.maxPayload = s.maxPayload)
    (h : feed d s = .ok t) :
    ∃ t' evs, feed d s' = .ok t' ∧ t'.ps = t.ps ∧ t.sink = s.sink ++ evs ∧ t'.sink = s'.sink ++ evs := by
  induction d generalizing s s' with
  | nil => cases h; exact ⟨s', [], rfl, hps, by simp⟩
  | cons b d ih =>
    simp only [feed] at h
    split at h
    · cases h
    · rename_i u hu
      obtain ⟨q, evs, hq, rfl⟩ := stepByte_transition hu
      obtain ⟨t', rest, ht', hps', hsink, hsink'⟩ :=
        ih (s := { s with ps := q, sink := s.sink ++ evs }) (s' := { s' with ps := q, sink := s'.sink ++ evs }) rfl hmax h
      rw [← hps, ← hmax] at hq
      rw [List.append_assoc] at hsink hsink'
      exact ⟨t', evs ++ rest, (feed_cons_of_ok d hq.stepByte_eq).trans ht', hps', hsink, hsink'⟩

end Sys2Proof.Machine

namespace Sys2Proof

open Sys2Proof.Machine Sys2Proof.Claims

/-- Settles O22: the star's transition, and bytes without a star by induction. -/
theorem waitHeadAwaitsStar : Obligations.WaitHeadAwaitsStar := fun _ hs =>
  ⟨(ParserStep.head hs rfl).exec_eq_of_silent, fun _ hd => congrArg Machine.ofExcept (feed_discards hs hd)⟩

/-- Settles O23: each clause is one transition of COMMAND. -/
theorem commandTokenDecides : Obligations.CommandTokenDecides := by
  rintro s b tok hs hcnt rfl
  rw [← Parser.token]
  refine ⟨fun hIR => (ParserStep.tokenIR hs hIR).exec_eq_of_silent,
    fun hDR => (ParserStep.tokenDR hs hDR).exec_eq_of_silent,
    fun hlen hDR => (ParserStep.tokenBad hs hDR hlen).emitsErrorAndResets, fun hlen hIR => ?_⟩
  have hgrows := ParserStep.tokenGrows (n := s.maxPayload.val) hs hIR (by omega) (Nat.lt_succ_of_le hcnt)
  exact ⟨_, hgrows.exec_eq_of_silent, rfl, Parser.toList_set_cmd b hcnt⟩

/-- Settles O24: each clause is one transition of LENGTH. -/
theorem lengthDigitsDecide : Obligations.LengthDigitsDecide := by
  refine fun s b hs => ⟨fun hb => (ParserStep.notHex hs (hexVal?_of_notHex hb)).emitsErrorAndResets,
    fun v hv h0 => ?_, ?_⟩
  · obtain ⟨d, hd, rfl⟩ := hexVal?_of_hexDigit hv
    rw [BitVec.ofNat_toNat, BitVec.setWidth_eq]
    exact (ParserStep.firstDigit d hs hd h0).exec_eq_of_silent
  · rintro v n hv h1 rfl
    obtain ⟨d, hd, rfl⟩ := hexVal?_of_hexDigit hv
    refine ⟨fun hlong => (ParserStep.tooLong d hs hd h1 hlong).emitsErrorAndResets,
      fun hfits hpos => (ParserStep.lengthFits d hs hd h1 hpos hfits).exec_eq_of_silent, fun hz => ?_⟩
    have hzero := (ParserStep.lengthZero (n := s.maxPayload.val) d hs hd h1 hz).exec_eq_of_silent
    rwa [Parser.declared, hz] at hzero

/-- Settles O25: the byte is the last one of the payload or not. -/
theorem dataByteStored : Obligations.DataByteStored := by
  intro s b hs hcnt hmax hw
  have hsucc := Parser.toNat_dataCnt_succ hcnt
  have hself := Memory.read_write_self hw s.ps.dataCnt.toNat b
  have hne := fun a (h : a ≠ s.ps.dataCnt.toNat) => Memory.read_write_of_ne s.ps.data b h
  by_cases hlast : s.ps.dataCnt + 1 = s.ps.declLen
  · have hend : s.ps.dataCnt.toNat + 1 = s.ps.declLen.toNat := hlast ▸ hsucc.symm
    exact ⟨_, (ParserStep.lastByte hs (by omega) hlast).exec_eq_of_silent, rfl, hself, hne,
      fun _ => ⟨rfl, rfl⟩, fun h => absurd hend h.ne⟩
  · have hmore : s.ps.dataCnt.toNat + 1 ≠ s.ps.declLen.toNat := fun h =>
      hlast (BitVec.eq_of_toNat_eq (hsucc.trans h))
    exact ⟨_, (ParserStep.dataByte hs (by omega) hlast).exec_eq_of_silent, rfl, hself, hne,
      fun h => absurd h hmore, fun _ => ⟨hs, rfl⟩⟩

/-- Settles O26: each clause is one transition of the footer. -/
theorem footerDecides : Obligations.FooterDecides := by
  refine fun s b hs => ⟨fun h0 => (ParserStep.footerFirst hs h0).exec_eq_of_silent,
    fun h1 hbad => (ParserStep.footerBad hs h1 ?_).emitsErrorAndResets,
    fun h1 hok hb hs => (ParserStep.collision hs h1 hok hb).emitsErrorAndResets, fun h1 hok hb hs hmax => ?_⟩
  · rintro ⟨hok, hb⟩
    exact hbad.elim (fun h => by simp [h] at hok) (fun h => h hb)
  · have hpayload := (ParserStep.payload hs h1 hok hb hmax).exec_eq
    simp only [Memory.readRun_eq_map, Nat.zero_add] at hpayload
    exact hpayload

/-- Settles O28: the length FF ends its frame in WAIT_HEAD, which discards the junk and takes the next frame. -/
theorem tooLongThenValidFrame : Obligations.TooLongThenValidFrame := by
  intro s junk p h l vh vl hs hw hjunk hmax hh hl hn
  obtain ⟨dh, hdh, rfl⟩ := hexVal?_of_hexDigit hh
  obtain ⟨dl, hdl, rfl⟩ := hexVal?_of_hexDigit hl
  obtain ⟨t, ht, hsink, hidle⟩ := feed_tooLongFrame_dataFrame hs hw hjunk hdh hdl hn hmax
  exact ⟨t, (execAll_frFeedBytes _ s).trans (congrArg Machine.ofExcept ht), (feed_frame ht).onlyParserAndSink,
    hsink, hidle⟩

/-- Settles O29: the outcome of a sequence of feeds is a function of the joined bytes. -/
theorem chunkingDoesNotMatter : Obligations.ChunkingDoesNotMatter := by
  intro cs cs' s h
  rw [execAll_map_frFeed, execAll_map_frFeed, h]

/-- Settles O30: a byte step emits at most one event, and one that returns to WAIT_HEAD emits. -/
theorem oneEventPerFrame : Obligations.OneEventPerFrame := by
  intro s t b h
  have hstep := ofExcept_next ((exec_frFeed_singleton b s).symm.trans h)
  refine ⟨(stepByte_spec hstep).2, fun hs ht => ?_⟩
  obtain ⟨q, evs, hq, rfl⟩ := stepByte_transition hstep
  simpa using hq.emits_of_returns hs ht

/-- Settles O31: the invariant bounds `ps_state`, and a byte that meets another encoding faults. -/
theorem illegalParserStateFaults : Obligations.IllegalParserStateFaults := by
  refine ⟨fun s hs => ?_, fun s b d hs => ?_⟩
  · obtain ⟨-, ⟨hstate, -⟩, -⟩ := reachableStatesMeetInvariant s hs
    constructor <;> intro h <;> simp [h] at hstate
  · have hnone : parserState? s.ps.state = none := by rcases hs with h | h <;> rw [h] <;> rfl
    exact congrArg Machine.ofExcept (feed_cons_of_no_state hnone b d)

/-- Settles O34: the frame of FR_FEED, and its transitions from the same registers. -/
theorem feedReadsOnlyTheParser : Obligations.FeedReadsOnlyTheParser := by
  intro d s s' t hps hmax h
  have hfeed : feed d s = .ok t := ofExcept_next h
  obtain ⟨t', evs, ht', hps', hsink, hsink'⟩ := feed_congr hps hmax hfeed
  exact ⟨(feed_frame hfeed).onlyParserAndSink, t', evs, congrArg Machine.ofExcept ht', (feed_frame ht').onlyParserAndSink,
    hps', hsink, hsink'⟩

end Sys2Proof

/-! The proofs of the family 41_framer_encoder.md: the outbound frames (R105, R106), one event a send (R107, R109), and
the encoder's independence of the parser (R108). -/

namespace Sys2Proof.Machine

open Sys2Proof.Claims

/-! ## Hex digits (00_scope.md R13, 20_memory.md R48) -/

theorem hexUp_eq_upperDigits (d : BitVec 4) : hexUp d = upperDigits.getD d.toNat 0x00 := by revert d; decide

/-- The model's two digits of a byte are the statements' two digits of any number with that low byte. -/
theorem hex2_ofNat (n : Nat) : hex2 (BitVec.ofNat 8 n) = twoDigits n := by
  have hhi : (hiNibble (BitVec.ofNat 8 n)).toNat = n / 16 % 16 := by
    simp [hiNibble, Nat.shiftRight_eq_div_pow]
    omega
  have hlo : (loNibble (BitVec.ofNat 8 n)).toNat = n % 16 := by
    simp [loNibble]
  rw [hex2, hexUp_eq_upperDigits, hexUp_eq_upperDigits, hhi, hlo, twoDigits]

theorem hex2_eq_twoDigits (v : Byte) : hex2 v = twoDigits v.toNat := by
  rw [← hex2_ofNat, BitVec.ofNat_toNat, BitVec.setWidth_eq]

/-! ## Outbound frames (30_encoding.md R64, R65) -/

theorem sendDataFrame_eq (d : List Byte) :
    sendDataFrame d = [0x40, 0x44, 0x54] ++ twoDigits d.length ++ d ++ [0x0D, 0x0A] := by
  rw [sendDataFrame, hex2_ofNat]
  rfl

theorem sendParamFrame_eq (p0 p1 v : Byte) :
    sendParamFrame p0 p1 v = [0x40, p0, p1] ++ twoDigits v.toNat ++ [0x0D, 0x0A] := by
  rw [sendParamFrame, hex2_eq_twoDigits]

@[simp] theorem sendDataFrame_length (d : List Byte) : (sendDataFrame d).length = d.length + 7 := by
  simp [sendDataFrame, hex2]

@[simp] theorem sendParamFrame_length (p0 p1 v : Byte) : (sendParamFrame p0 p1 v).length = 7 := rfl

/-! ## What a send does (R105, R106) -/

theorem exec_frSendParam_letters {p0 p1 : Byte} (v : Byte) {s : State} (h0 : Letter p0) (h1 : Letter p1) :
    exec (.frSendParam p0 p1 v) s = .next (emit (.sendBytes (sendParamFrame p0 p1 v)) s) := by
  rw [← isUpper_eq_true_iff] at h0 h1
  simp [exec, execFrSendParam, h0, h1]

/-- An emitted frame is all that changes: the modem sees its bytes, and the inbound events stay as they were. -/
theorem exists_next_emit_sendBytes {r : Result} {f : List Byte} {s : State} (h : r = .next (emit (.sendBytes f) s)) :
    ∃ t, r = .next t ∧ t = { s with sink := t.sink } ∧ sentBytes t.sink = sentBytes s.sink ++ f ∧
      inboundEvents t.sink = inboundEvents s.sink :=
  ⟨_, h, rfl, by simp [sentBytes_append, sentBytes], by simp [inboundEvents_append, inboundEvents]⟩

/-- What an encoder operation appends to the sink and to the refusals does not depend on the parser registers, and no
inbound event is among it (R108). -/
theorem exec_send_appends {i : Instr} (hi : (∃ d, i = .frSendData d) ∨ ∃ p0 p1 v, i = .frSendParam p0 p1 v)
    (s : State) : ∃ evs refs, inboundEvents evs = [] ∧ ∀ p, exec i { s with ps := p } =
      .next { s with ps := p, sink := s.sink ++ evs, refusals := s.refusals ++ refs } := by
  obtain ⟨d, rfl⟩ | ⟨p0, p1, v, rfl⟩ := hi
  · rcases le_or_gt d.length s.maxPayload.val with hfits | hlong
    · exact ⟨[.sendBytes (sendDataFrame d)], [], rfl, fun p =>
        (exec_frSendData_fits (s := { s with ps := p }) hfits).trans (by simp [emit])⟩
    · exact ⟨[], [.sendTooLong], rfl, fun p =>
        (exec_frSendData_tooLong (s := { s with ps := p }) hlong).trans (by simp [refuse])⟩
  · by_cases hcode : Letter p0 ∧ Letter p1
    · exact ⟨[.sendBytes (sendParamFrame p0 p1 v)], [], rfl, fun _ =>
        (exec_frSendParam_letters v hcode.1 hcode.2).trans (by simp [emit])⟩
    · exact ⟨[], [.badParamCode], rfl, fun _ => (exec_frSendParam_badCode v hcode).trans (by simp [refuse])⟩

end Sys2Proof.Machine

namespace Sys2Proof

open Sys2Proof.Machine Sys2Proof.Claims

/-- Settles O35: the frame's own equation, for a payload that fits and for one that does not. -/
theorem sendDataRenders : Obligations.SendDataRenders := by
  refine ⟨fun d hd rest => decode_encode_append (i := .frSendData d) (decide_eq_true hd) rest,
    fun d s => ⟨fun hfits => ?_, exec_frSendData_tooLong⟩⟩
  rw [← sendDataFrame_eq]
  exact exists_next_emit_sendBytes (exec_frSendData_fits hfits)

/-- Settles O36: the frame's own equation, for two letters and for any other code. -/
theorem sendParamRenders : Obligations.SendParamRenders := by
  refine ⟨fun p0 p1 v rest => decode_encode_append (i := .frSendParam p0 p1 v) rfl rest,
    fun p0 p1 v s => ⟨fun h0 h1 => ?_, exec_frSendParam_badCode v⟩⟩
  rw [← sendParamFrame_eq]
  exact exists_next_emit_sendBytes (exec_frSendParam_letters v h0 h1)

/-- Settles O37: with the refusals unchanged the operation was the one that emits its frame. -/
theorem oneEventPerSend : Obligations.OneEventPerSend := by
  refine ⟨fun d s t h hrefs => ?_, fun p0 p1 v s t h hrefs => ?_⟩
  · rcases le_or_gt d.length s.maxPayload.val with hfits | hlong
    · cases (exec_frSendData_fits hfits).symm.trans h
      exact ⟨_, rfl, sendDataFrame_length d⟩
    · cases (exec_frSendData_tooLong hlong).symm.trans h
      simp at hrefs
  · by_cases hcode : Letter p0 ∧ Letter p1
    · cases (exec_frSendParam_letters v hcode.1 hcode.2).symm.trans h
      exact ⟨_, rfl, sendParamFrame_length p0 p1 v⟩
    · cases (exec_frSendParam_badCode v hcode).symm.trans h
      simp at hrefs

/-- Settles O38: the send appends the same whatever the parser registers hold, and the feed after it starts from the
same parser registers and the same MAX_PAYLOAD. -/
theorem encoderIndependentOfParser : Obligations.EncoderIndependentOfParser := by
  intro i s hi
  obtain ⟨evs, refs, hevs, hexec⟩ := exec_send_appends hi s
  refine ⟨_, hexec s.ps, rfl, hexec, fun d u hu => ?_⟩
  have hfeed : feed d s = .ok u := ofExcept_next hu
  obtain ⟨u', fed, hu', hps, hsink, hsink'⟩ := feed_congr (s := s)
    (s' := { s with sink := s.sink ++ evs, refusals := s.refusals ++ refs }) rfl rfl hfeed
  exact ⟨u', congrArg Machine.ofExcept hu', hps, by simp [hsink, hsink', inboundEvents_append, hevs]⟩

end Sys2Proof

/-! The proofs of the family 42_packet_codec.md: PKT_INIT (R114), the packs and the unpacks in every case (R110 to R113,
R115 to R124), the read-out (R125 to R129), and chains of them (R130, R131). -/

namespace Sys2Proof

open Sys2Proof.Claims

/-! ## Encodings (30_encoding.md R69, R70) -/

/-- An operation is encoded by its opcode byte and its operand bytes, however these are written. -/
theorem encodes_opcode_cons {i : Instr} (hi : i.wellFormed = true) {bs : List Byte} (hbs : i.operandBytes = bs) :
    Encodes (i.row.opcode :: bs) i := by
  subst hbs
  exact decode_encode_append hi

/-- Byte `k` of `LE_W(v)` is digit `k` of `v` to the base 256 (00_scope.md R10). -/
theorem toNat_getElem_leBytes (w v : Nat) {k : Nat} (h : k < (leBytes w v).length) :
    (leBytes w v)[k].toNat = v / 256 ^ k % 256 := by
  induction w generalizing v k with
  | zero => exact absurd h (Nat.not_lt_zero k)
  | succ w ih =>
    cases k with
    | zero => simp [leBytes]
    | succ k => simp [leBytes, ih, Nat.div_div_eq_div_mul, Nat.pow_succ']

/-! ## The packs and the unpacks (R115 to R124) -/

/-- A pack packs a field, and an unpack is one of the five reads. -/
theorem Instr.exists_of_isPackOrUnpack {i : Instr} (hi : i.isPackOrUnpack = true) :
    (∃ f : Field, i = f.pack) ∨ ∃ r : ReadOp, i = r.unpack := by
  cases i with
  | pktPackU8 v => exact .inl ⟨.u8 v, rfl⟩
  | pktPackU16 v => exact .inl ⟨.u16 v, rfl⟩
  | pktPackU32 v => exact .inl ⟨.u32 v, rfl⟩
  | pktPackU64 v => exact .inl ⟨.u64 v, rfl⟩
  | pktPackBytes d => exact .inl ⟨.run d, rfl⟩
  | pktUnpackU8 => exact .inr ⟨.u8, rfl⟩
  | pktUnpackU16 => exact .inr ⟨.u16, rfl⟩
  | pktUnpackU32 => exact .inr ⟨.u32, rfl⟩
  | pktUnpackU64 => exact .inr ⟨.u64, rfl⟩
  | pktUnpackBytes n => exact .inr ⟨.run n, rfl⟩
  | _ => cases hi

end Sys2Proof

namespace Sys2Proof.Machine

open Sys2Proof.Claims

/-- A pack is a guarded pack step over the bytes of its field (R115 to R119). -/
theorem exec_pack (f : Field) (s : State) : exec f.pack s = ofExcept (guardedPack f.bytes s) := by
  cases f with
  | u8 v => exact congrArg (fun bs => ofExcept (guardedPack bs s)) (leBytes_one v)
  | u16 v => exact congrArg (fun bs => ofExcept (guardedPack bs s)) (leBytes_two v)
  | u32 v => exact congrArg (fun bs => ofExcept (guardedPack bs s)) (leBytes_four v)
  | u64 v => exact congrArg (fun bs => ofExcept (guardedPack bs s)) (leBytes_eight v)
  | run d => rfl

/-- An unpack reads as many bytes as its width and responds (R120 to R124). -/
theorem exec_unpack (r : ReadOp) (s : State) : exec r.unpack s = ofExcept (unpackRespond r.width s) := by
  cases r <;> rfl

theorem exec_pack_of_ok {s : State} (f : Field) (h0 : s.pkt.err = 0) :
    exec f.pack s = .next (packCore f.bytes s) := by
  rw [exec_pack, guardedPack_of_ok _ h0, ofExcept]

theorem exec_pack_of_sticky {s : State} (f : Field) (h : s.pkt.err = 1 ∨ s.pkt.err = 2) :
    exec f.pack s = .next s := by
  obtain ⟨e, he, herr⟩ := exists_sticky h
  rw [exec_pack, guardedPack_of_sticky _ he herr, ofExcept]

/-- A pack appends the bytes of its field: it fits, it overflows, or a sticky error stops it (R110, R111). -/
theorem exec_pack_appends {s : State} (hw : Memory.wf s.pkt.buf = true) (f : Field) :
    Appends f.bytes s (exec f.pack s) := by
  refine ⟨fun h0 hfits => ?_, fun h0 hover => ?_, exec_pack_of_sticky f⟩
  · rw [exec_pack_of_ok f h0, packCore_fits hfits, ← h0]
    exact ⟨_, rfl, rfl, fun k hk => Memory.read_writeRun_inside hw _ _ hk,
      fun a ha => Memory.read_writeRun_outside _ _ _ ha⟩
  · rw [exec_pack_of_ok f h0, packCore_overflow hover]
    rfl

/-- The state with the read cursor moved on by `n` bytes (R25). -/
def advanceCursor (n : Nat) (s : State) : State :=
  { s with pkt := { s.pkt with cur := BitVec.ofNat 4 (s.pkt.cur.toNat + n) } }

theorem exec_unpack_fits {s : State} {r : ReadOp} (h0 : s.pkt.err = 0) (hl : s.pkt.len.toNat ≤ Config.capacity)
    (hm : s.pkt.cur.toNat + r.width ≤ s.pkt.len.toNat) :
    exec r.unpack s =
      .next (respond (0x01 :: Memory.readRun s.pkt.buf s.pkt.cur.toNat r.width) (advanceCursor r.width s)) := by
  simp only [exec_unpack, unpackRespond, guardedUnpack_fits h0 hm hl]
  rfl

theorem exec_unpack_short {s : State} {r : ReadOp} (h0 : s.pkt.err = 0)
    (hm : s.pkt.cur.toNat + r.width > s.pkt.len.toNat) :
    exec r.unpack s = .next (respond (0x00 :: List.replicate r.width 0x00) (setErr .invalidLength s)) := by
  simp only [exec_unpack, unpackRespond, guardedUnpack_short h0 hm]
  rfl

theorem exec_unpack_of_sticky {s : State} (r : ReadOp) (h : s.pkt.err = 1 ∨ s.pkt.err = 2) :
    exec r.unpack s = .next { s with resp := s.resp ++ [0x00] ++ List.replicate r.width 0x00 } := by
  obtain ⟨e, he, herr⟩ := exists_sticky h
  simp only [exec_unpack, unpackRespond, guardedUnpack_of_sticky _ he herr, List.append_assoc]
  rfl

/-- An unpack reads at the cursor: the bytes are there, they are not, or a sticky error stops it (R110, R112, R113). -/
theorem exec_unpack_reads (r : ReadOp) (s : State) : Reads r.width s (exec r.unpack s) := by
  refine ⟨fun h0 hl hm => ?_, fun h0 hm => ?_, exec_unpack_of_sticky r⟩
  · rw [exec_unpack_fits h0 hl hm, packetBytes_eq_readRun, List.append_assoc]
    rfl
  · rw [exec_unpack_short h0 hm, List.append_assoc]
    rfl

/-! ## PKT_INIT (R114) -/

theorem initPacket_buf_wf {s : State} (hw : Memory.wf s.pkt.buf = true) (z : Bool) :
    Memory.wf (initPacket z s).pkt.buf = true := by
  cases z with
  | false => exact hw
  | true => exact Memory.writeRun_wf hw 0 _

/-- PKT_INIT 1 zeroes the eight bytes of the buffer and no other. -/
theorem read_initPacket_zero {s : State} (hw : Memory.wf s.pkt.buf = true) (a : Nat) :
    Memory.read (initPacket true s).pkt.buf a = if a < 8 then 0x00 else Memory.read s.pkt.buf a := by
  rw [initPacket_pkt_buf, if_pos rfl]
  split
  · next ha =>
    have hread := Memory.read_writeRun_inside hw 0 (List.replicate Config.capacity 0x00) (k := a) (by simpa using ha)
    rwa [Nat.zero_add, List.getElem_replicate] at hread
  · next ha => exact Memory.read_writeRun_outside _ 0 _ (by simpa using ha)

/-! ## Status and read-out (R125 to R128) -/

/-- PKT_SUCCESS responds whether the error state is NONE. -/
theorem exec_pktSuccess {s : State} {e : CodecErr} (h : s.pkt.err = e.bits) :
    exec .pktSuccess s = .next (respond [boolByte e.success] s) := by
  simp only [exec, execPktSuccess, readErr_eq h]

theorem exec_pktSuccess_of_sticky {s : State} (h : s.pkt.err = 1 ∨ s.pkt.err = 2) :
    exec .pktSuccess s = .next (respond [0x00] s) :=
  h.elim (exec_pktSuccess (e := .bufferOverflow)) (exec_pktSuccess (e := .invalidLength))

/-- PKT_STATUS responds the number of a legal error state. -/
theorem exec_pktStatus {s : State} (h : s.pkt.err ≠ 3) :
    exec .pktStatus s = .next { s with resp := s.resp ++ [s.pkt.err.setWidth 8] } := by
  obtain ⟨e, he⟩ := exists_err h
  simp only [exec, execPktStatus, readErr_eq he, CodecErr.statusByte, he]
  rfl

/-- PKT_DATA responds the length and the packed bytes. -/
theorem exec_pktData {s : State} (h : s.pkt.len.toNat ≤ 8) : exec .pktData s =
    .next { s with resp := s.resp ++ [s.pkt.len.setWidth 8] ++ packetBytes s 0 s.pkt.len.toNat } := by
  have hread := readStore_of_le (bound := Config.capacity) s.pkt.buf (a := 0) ((Nat.zero_add _).le.trans h)
  simp only [exec, execPktData, hread, packetBytes_eq_readRun, List.append_assoc]
  rfl

/-! ## The controller data steps under a sticky error (R110, 43_controller_data.md R137, R138) -/

theorem exec_cdPack_of_sticky {s : State} (h : s.pkt.err = 1 ∨ s.pkt.err = 2) : exec .cdPack s = .next s := by
  obtain ⟨e, he, herr⟩ := exists_sticky h
  simp only [exec, execCdPack, guardedPack_of_sticky _ he herr, ofExcept]

theorem exec_cdUnpack_of_sticky {s : State} (h : s.pkt.err = 1 ∨ s.pkt.err = 2) : exec .cdUnpack s = .next s := by
  obtain ⟨e, he, herr⟩ := exists_sticky h
  simp only [exec, execCdUnpack, unpackMask, unpackAnalog, guardedUnpack_of_sticky _ he herr, ofExcept]

/-! ## What is packed is what is unpacked (R130, 20_memory.md R51) -/

theorem packCore_len {bs : List Byte} {s : State} (h : s.pkt.len.toNat + bs.length ≤ Config.capacity) :
    (packCore bs s).pkt.len.toNat = s.pkt.len.toNat + bs.length := by
  rw [packCore_fits h]
  exact Nat.mod_eq_of_lt (lt_of_le_of_lt h (by decide))

theorem packCore_err {bs : List Byte} {s : State} (h : s.pkt.len.toNat + bs.length ≤ Config.capacity) :
    (packCore bs s).pkt.err = s.pkt.err := by
  rw [packCore_fits h]

/-- A pack of two runs in a row is a pack of the first and then of the second. -/
theorem packCore_append {x y : List Byte} {s : State} (h : s.pkt.len.toNat + x.length + y.length ≤ Config.capacity) :
    packCore (x ++ y) s = packCore y (packCore x s) := by
  have hx : s.pkt.len.toNat + x.length ≤ Config.capacity := by omega
  rw [packCore_fits (by simp; omega), packCore_fits (s := packCore x s) (by rwa [packCore_len hx]), packCore_len hx,
    packCore_fits hx, Memory.writeRun_append, List.length_append, Nat.add_assoc]

theorem packCore_nil (s : State) (h : s.pkt.len.toNat ≤ Config.capacity) : packCore [] s = s := by
  rw [packCore_fits (by exact h)]
  simp [Memory.writeRun]

/-- A sequence of packs that fits packs the fields' bytes as one run. -/
theorem execAll_packs {fs : List Field} {s : State} (h0 : s.pkt.err = 0)
    (h : s.pkt.len.toNat + (fs.flatMap Field.bytes).length ≤ Config.capacity) :
    execAll (fs.map Field.pack) s = .next (packCore (fs.flatMap Field.bytes) s) := by
  induction fs generalizing s with
  | nil => exact congrArg Host.Outcome.next (packCore_nil s h).symm
  | cons f fs ih =>
    rw [List.flatMap_cons, List.length_append, ← Nat.add_assoc] at h
    have hf : s.pkt.len.toNat + f.bytes.length ≤ Config.capacity := by omega
    rw [List.map_cons, execAll_cons_of_next _ (exec_pack_of_ok f h0), List.flatMap_cons, packCore_append h]
    exact ih ((packCore_err hf).trans h0) (by rwa [packCore_len hf])

/-- PKT_INIT and a sequence of packs that fits leave the packet with exactly the packed bytes, unread. -/
theorem execAll_init_packs {fs : List Field} (s : State) (z : Bool)
    (h : (fs.flatMap Field.bytes).length ≤ Config.capacity) :
    execAll ([.pktInit z] ++ fs.map Field.pack) s =
      .next (withPackedBytes (fs.flatMap Field.bytes) (initPacket z s)) := by
  have hfits : (initPacket z s).pkt.len.toNat + (fs.flatMap Field.bytes).length ≤ Config.capacity := by simpa using h
  have hinit : exec (.pktInit z) s = .next (initPacket z s) := rfl
  rw [List.singleton_append, execAll_cons_of_next _ hinit, execAll_packs (initPacket_pkt_err z s) hfits,
    packCore_fits hfits]
  simp [withPackedBytes, initPacket, CodecErr.bits]

/-- A run inside a longer one. -/
theorem Memory.readRun_eq_take_drop (m : Memory) {a n N : Nat} (h : a + n ≤ N) :
    Memory.readRun m a n = ((Memory.readRun m 0 N).drop a).take n := by
  obtain ⟨k, rfl⟩ := Nat.exists_eq_add_of_le h
  rw [Nat.add_assoc, Memory.readRun_add, List.drop_left' (by simp), Nat.zero_add, Memory.readRun_add,
    List.take_left' (by simp)]

theorem advanceCursor_cur {n : Nat} {s : State} (h : s.pkt.cur.toNat + n ≤ Config.capacity) :
    (advanceCursor n s).pkt.cur.toNat = s.pkt.cur.toNat + n :=
  Nat.mod_eq_of_lt (lt_of_le_of_lt h (by decide))

theorem advanceCursor_add (n k : Nat) (s : State) :
    advanceCursor (n + k) s = advanceCursor k (advanceCursor n s) := by
  have hcur : BitVec.ofNat 4 (s.pkt.cur.toNat + (n + k)) =
      BitVec.ofNat 4 ((advanceCursor n s).pkt.cur.toNat + k) := by
    apply BitVec.eq_of_toNat_eq
    simp [advanceCursor, Nat.add_assoc]
  exact congrArg (fun c => { s with pkt := { s.pkt with cur := c } }) hcur

/-- Reads that stay inside the packed bytes respond them in order and move the cursor. -/
theorem execAll_unpacks {rs : List ReadOp} {bs : List Byte} {s : State} (hp : HoldsPacket bs s) (h0 : s.pkt.err = 0)
    (h : s.pkt.cur.toNat + (rs.map ReadOp.width).sum ≤ bs.length) :
    execAll (rs.map ReadOp.unpack) s = .next (respond (readResponses rs (bs.drop s.pkt.cur.toNat))
      (advanceCursor (rs.map ReadOp.width).sum s)) := by
  induction rs generalizing s with
  | nil => simp [respond, readResponses, advanceCursor]
  | cons r rs ih =>
    rw [List.map_cons, List.sum_cons, ← Nat.add_assoc] at h
    have hr : s.pkt.cur.toNat + r.width ≤ bs.length := by omega
    have hread := Memory.readRun_eq_take_drop s.pkt.buf hr
    have hhead := exec_unpack_fits h0 (hp.len.trans_le hp.fits) (hr.trans_eq hp.len.symm)
    rw [hp.bytes] at hread
    rw [hread] at hhead
    have hcur := advanceCursor_cur (hr.trans hp.fits)
    have htail := ih (s := respond (0x01 :: (bs.drop s.pkt.cur.toNat).take r.width) (advanceCursor r.width s))
      ⟨hp.len, hp.bytes, hp.fits⟩ h0 (by rwa [respond_pkt, hcur])
    rw [List.map_cons, execAll_cons_of_next _ hhead, htail, respond_pkt, hcur, List.map_cons, List.sum_cons,
      advanceCursor_add]
    simp [respond, readResponses, advanceCursor]

/-! ## Chains (R131) -/

/-- The pack or unpack with which a chain fails sets the error and writes nothing else of the packet. -/
theorem exec_first_failure {i : Instr} {s t : State} (hi : i.isPackOrUnpack = true) (h0 : s.pkt.err = 0)
    (h : exec i s = .next t) (ht : t.pkt.err ≠ 0) :
    (t.pkt.err = 1 ∨ t.pkt.err = 2) ∧ t.pkt = { s.pkt with err := t.pkt.err } := by
  obtain ⟨f, rfl⟩ | ⟨r, rfl⟩ := Instr.exists_of_isPackOrUnpack hi
  · rw [exec_pack] at h
    rcases guardedPack_cases (ofExcept_next h) with ⟨-, -, rfl⟩ | ⟨-, -, rfl⟩ | ⟨-, rfl⟩
    · exact absurd h0 ht
    · exact ⟨.inl rfl, rfl⟩
    · exact absurd h0 ht
  · rw [exec_unpack] at h
    obtain ⟨bs, u, hu, rfl⟩ := unpackRespond_cases (ofExcept_next h)
    rcases guardedUnpack_cases hu with ⟨-, -, -, -, rfl⟩ | ⟨-, -, -, rfl⟩ | ⟨-, -, rfl⟩
    · exact absurd h0 ht
    · exact ⟨.inr rfl, rfl⟩
    · exact absurd h0 ht

/-- Under a set error a chain of packs and unpacks writes nothing of the packet. -/
theorem execAll_sticky_pkt {is : List Instr} {s t : State} (hi : ∀ j ∈ is, j.isPackOrUnpack = true)
    (he : s.pkt.err ≠ 0) (h : execAll is s = .next t) : t.pkt = s.pkt := by
  induction is generalizing s with
  | nil => cases h; rfl
  | cons i is ih =>
    obtain ⟨u, hu, htail⟩ := andThen_eq_next h
    obtain ⟨hhead, hrest⟩ := List.forall_mem_cons.mp hi
    have hpkt : u.pkt = s.pkt := exec_sticky_pkt (fun z hz => by subst hz; cases hhead) he hu
    exact (ih hrest (hpkt ▸ he) htail).trans hpkt

end Sys2Proof.Machine

namespace Sys2Proof

open Sys2Proof.Machine Sys2Proof.Claims

/-- Settles O39: the encodings, the buffer byte by byte, and the decoder's refusal of a reserved bit. -/
theorem packetInitialised : Obligations.PacketInitialised := by
  refine ⟨encodes_opcode_cons (i := .pktInit false) rfl rfl, encodes_opcode_cons (i := .pktInit true) rfl rfl,
    fun s hw => ⟨initPacket true s, rfl, rfl, fun a ha => ?_, fun a ha => ?_⟩, fun _ => rfl,
    fun s a rest hp ha => ⟨rest, step_of_decode_rejected (by rw [hp, decode_of_reservedBits ha])⟩⟩
  · rw [read_initPacket_zero hw, if_pos ha]
  · rw [read_initPacket_zero hw, if_neg (by omega)]

/-- Settles O40: each pack is its field's, and a field's bytes are the operand bytes of its encoding. -/
theorem fixedWidthPacksAppend : Obligations.FixedWidthPacksAppend :=
  ⟨fun v => encodes_opcode_cons (i := .pktPackU8 v) rfl (leBytes_one v),
    fun v => encodes_opcode_cons (i := .pktPackU16 v) rfl (leBytes_two v),
    fun v => encodes_opcode_cons (i := .pktPackU32 v) rfl (leBytes_four v),
    fun v => encodes_opcode_cons (i := .pktPackU64 v) rfl (leBytes_eight v),
    fun _ hw => ⟨fun v => exec_pack_appends hw (.u8 v), fun v => exec_pack_appends hw (.u16 v),
      fun v => exec_pack_appends hw (.u32 v), fun v => exec_pack_appends hw (.u64 v)⟩⟩

/-- Settles O41: a raw run is a field too. -/
theorem rawPackAppends : Obligations.RawPackAppends :=
  ⟨fun d hd => encodes_opcode_cons (i := .pktPackBytes d) (decide_eq_true hd) rfl,
    fun _ d hw => exec_pack_appends hw (.run d)⟩

/-- Settles O42: each unpack is the read of its width. -/
theorem fixedWidthUnpacksRead : Obligations.FixedWidthUnpacksRead :=
  ⟨encodes_opcode_cons (i := .pktUnpackU8) rfl rfl, encodes_opcode_cons (i := .pktUnpackU16) rfl rfl,
    encodes_opcode_cons (i := .pktUnpackU32) rfl rfl, encodes_opcode_cons (i := .pktUnpackU64) rfl rfl,
    fun s => ⟨exec_unpack_reads .u8 s, exec_unpack_reads .u16 s, exec_unpack_reads .u32 s,
      exec_unpack_reads .u64 s⟩⟩

/-- Settles O43: a raw unpack is the read of its count. -/
theorem rawUnpackReads : Obligations.RawUnpackReads :=
  ⟨fun n => encodes_opcode_cons (i := .pktUnpackBytes n) rfl rfl, fun s n => exec_unpack_reads (.run n) s⟩

/-- Settles O44: every guarded step stops at the sticky error, and the queries read registers that it leaves alone. -/
theorem stickyErrorGuards : Obligations.StickyErrorGuards := by
  intro s h
  have hlegal : s.pkt.err ≠ 3 := by rcases h with h | h <;> rw [h] <;> decide
  exact ⟨fun v => exec_pack_of_sticky (.u8 v) h, fun v => exec_pack_of_sticky (.u16 v) h,
    fun v => exec_pack_of_sticky (.u32 v) h, fun v => exec_pack_of_sticky (.u64 v) h,
    fun d => exec_pack_of_sticky (.run d) h,
    List.forall_mem_map (l := [ReadOp.u8, .u16, .u32, .u64]) (f := fun r => (r.unpack, r.width)).mpr
      fun r _ => exec_unpack_of_sticky r h,
    fun n => exec_unpack_of_sticky (.run n) h, exec_cdPack_of_sticky h, exec_cdUnpack_of_sticky h,
    fun z => ⟨initPacket z s, rfl, initPacket_pkt_err z s⟩, exec_pktSuccess_of_sticky h, exec_pktStatus hlegal, rfl,
    exec_pktData, ⟨_, rfl, rfl⟩⟩

/-- Settles O46: the response of PKT_SUCCESS by the three legal error states. -/
theorem successAndStatusRead : Obligations.SuccessAndStatusRead := by
  refine ⟨encodes_opcode_cons (i := .pktSuccess) rfl rfl, encodes_opcode_cons (i := .pktStatus) rfl rfl,
    fun s h => ⟨?_, exec_pktStatus h⟩⟩
  obtain ⟨e, he⟩ := exists_err h
  rw [exec_pktSuccess he, he]
  cases e <;> rfl

/-- Settles O47: the length is a register, and the packed bytes are a run of the buffer. -/
theorem lengthAndDataRead : Obligations.LengthAndDataRead :=
  ⟨encodes_opcode_cons (i := .pktLength) rfl rfl, encodes_opcode_cons (i := .pktData) rfl rfl,
    fun _ => ⟨rfl, exec_pktData⟩⟩

/-- Settles O48: the id's bytes are its base-256 digits. -/
theorem idRead : Obligations.IdRead := by
  refine ⟨encodes_opcode_cons (i := .pktId) rfl rfl, fun s _ => ⟨leBytes (idBytes s.idWidth) s.pkt.id, rfl, ?_, ?_,
    fun k hk => toNat_getElem_leBytes _ _ hk⟩⟩ <;>
  · rw [leBytes_length, idBytes]
    omega

/-- Settles O49: the packs store one run, and the reads take it apart again. -/
theorem packedBytesReadBack : Obligations.PackedBytesReadBack := by
  intro s z fs rs hw hfits hrs
  have hp := withPackedBytes_holdsPacket (s := initPacket z s) (initPacket_buf_wf hw z) hfits
  have hcur : (withPackedBytes (fs.flatMap Field.bytes) (initPacket z s)).pkt.cur.toNat = 0 := rfl
  have hreads := execAll_unpacks (rs := rs) hp rfl (by rwa [hcur, Nat.zero_add])
  rw [execAll_append, execAll_init_packs s z hfits, andThen_next]
  refine ⟨_, hreads, rfl, rfl, hp.len, ?_, rfl, rfl⟩
  rw [respond_pkt, advanceCursor_cur (by rw [hcur, Nat.zero_add]; exact hrs.trans hfits), hcur, Nat.zero_add]

/-- Settles O50: the failure sets the error alone, and the sticky error keeps the packet from then on. -/
theorem chainStopsAtFirstFailure : Obligations.ChainStopsAtFirstFailure := by
  intro s s1 s2 t pre post i hchain _ _ h1 hi h2 hpost
  obtain ⟨hsticky, hpkt⟩ := exec_first_failure (hchain i (by simp)) h1 hi h2
  have hkept : t.pkt = s2.pkt := execAll_sticky_pkt (fun j hj => hchain j (by simp [hj])) h2 hpost
  exact ⟨hpkt, hkept, exec_pktSuccess_of_sticky (hkept ▸ hsticky), exec_pktSuccess_of_ok h1⟩

end Sys2Proof

/-! The proofs of the family 43_controller_data.md: the accessors of the buttons and of the channels (R133 to R136),
CD_PACK and CD_UNPACK in every case (R137, R138), the round trip (R139), and who writes the value (R140). -/

namespace Sys2Proof.Machine

open Sys2Proof.Claims

/-! ## Who writes the ControllerData value and the packet (R140) -/

/-- Everything an operation can do to the ControllerData value and to the packet. -/
theorem exec_cd_pkt_cases {i : Instr} {s t : State} (h : exec i s = .next t) :
    (t.cd = s.cd ∧ (t.pkt = s.pkt ∨ i.isCodec = true ∨ i = .cdPack)) ∨
    (∃ j v, i = .cdSetButton j v ∧ t.cd.analog = s.cd.analog ∧ t.pkt = s.pkt) ∨
    (∃ c v, i = .cdSetAnalog c v ∧ t.cd.mask = s.cd.mask ∧ t.pkt = s.pkt) ∨
    i = .cdUnpack := by
  cases exec_cases h with
  | feed d _ hf => exact .inl ⟨(feed_frame hf).cd, .inl (feed_frame hf).pkt⟩
  | send f _ ht => subst ht; exact .inl ⟨rfl, .inl rfl⟩
  | refuse r _ ht => subst ht; exact .inl ⟨rfl, .inl rfl⟩
  | init z hi ht => subst hi ht; exact .inl ⟨rfl, .inr (.inl rfl)⟩
  | pack bs _ hc => exact .inl ⟨exec_codec_cd hc h, .inr (.inl hc)⟩
  | unpack m _ hc => exact .inl ⟨exec_codec_cd hc h, .inr (.inl hc)⟩
  | query bs _ _ _ ht => subst ht; exact .inl ⟨rfl, .inl rfl⟩
  | setButton j v m hi ht => subst ht; exact .inr (.inl ⟨j, v, hi, rfl, rfl⟩)
  | setAnalog c v a hi ht => subst ht; exact .inr (.inr (.inl ⟨c, v, hi, rfl, rfl⟩))
  | cdPack hi hp => exact .inl ⟨(execCdPack_frame hp).2, .inr (.inr hi)⟩
  | cdUnpack hi => exact .inr (.inr (.inr hi))

/-! ## Buttons (10_state.md R28, R133, R134) -/

/-- A button written reads back, and every other button reads as before. -/
theorem getLsbD_writeButton (mask : BitVec 16) (i : Nat) (pressed : Bool) {j : Nat} (hj : j < 16) :
    (writeButton mask i pressed).getLsbD j = if j = i then pressed else mask.getLsbD j := by
  have hbit : (BitVec.twoPow 16 i).getLsbD j = decide (j = i) := by
    rw [BitVec.getLsbD_twoPow, Bool.eq_iff_iff]
    simp only [Bool.and_eq_true, decide_eq_true_eq]
    omega
  cases pressed
  · have hclear : writeButton mask i false = mask &&& ~~~(BitVec.twoPow 16 i) := rfl
    rw [hclear, BitVec.getLsbD_and, BitVec.getLsbD_not, hbit]
    by_cases h : j = i <;> simp [h, hj]
  · have hset : writeButton mask i true = mask ||| BitVec.twoPow 16 i := rfl
    rw [hset, BitVec.getLsbD_or, hbit]
    by_cases h : j = i <;> simp [h]

/-! ## Channels (10_state.md R29, R135, R136) -/

@[simp] theorem hiNibble_fromNibbles (hi lo : BitVec 4) : hiNibble (fromNibbles hi lo) = hi := by
  revert hi lo; decide

@[simp] theorem loNibble_fromNibbles (hi lo : BitVec 4) : loNibble (fromNibbles hi lo) = lo := by
  revert hi lo; decide

theorem Bytes3.get_set (t : Bytes3) {k j : Nat} (hk : k < 3) (hj : j < 3) (b : Byte) :
    (t.set k b).get j = if j = k then b else t.get j := by
  interval_cases k <;> interval_cases j <;> rfl

/-- A channel written reads back, and every other channel reads as before: the other nibble of the same byte, or a
nibble of another byte. -/
theorem channel_writeChannel (a : Bytes3) {c k : Nat} (hc : c < 6) (hk : k < 6) (q : BitVec 4) :
    channel (writeChannel a c q) k = if k = c then q else channel a k := by
  have hget := a.get_set (show c / 2 < 3 by omega) (show k / 2 < 3 by omega)
  by_cases hbyte : k / 2 = c / 2
  · simp only [hbyte, if_true] at hget
    rcases Nat.mod_two_eq_zero_or_one c with hc2 | hc2 <;> by_cases hkc : k = c
    · simp [channel, writeChannel, hget, hc2, hkc]
    · simp [channel, writeChannel, hget, hbyte, hc2, hkc, show k % 2 = 1 by omega]
    · simp [channel, writeChannel, hget, hc2, hkc]
    · simp [channel, writeChannel, hget, hbyte, hc2, hkc, show k % 2 = 0 by omega]
  · have hne : k ≠ c := fun h => hbyte (congrArg (· / 2) h)
    simp only [channel, writeChannel, hget, hbyte, hne, if_false]

/-- The model's channel is the statements' nibble. -/
theorem toNat_channel (a : Bytes3) {c : Nat} (hc : c < 6) : (channel a c).toNat = nibble a c := by
  interval_cases c <;> simp [channel, nibble, Bytes3.get, loNibble, hiNibble, Nat.shiftRight_eq_div_pow]

theorem toNat_clampNibble (v : Byte) : (clampNibble v).toNat = min v.toNat 15 :=
  Nat.mod_eq_of_lt (by omega)

/-! ## The accessors in every case (R133, R135) -/

theorem exec_cdSetButton (i v : Byte) (s : State) : exec (.cdSetButton i v) s = .next { s with
    cd := { s.cd with
      mask := if i.toNat ≤ 15 then writeButton s.cd.mask i.toNat (decide (v ≠ 0)) else s.cd.mask } } := by
  simp only [exec, execCdSetButton]
  split <;> rfl

theorem exec_cdSetAnalog (c v : Byte) (s : State) : exec (.cdSetAnalog c v) s = .next { s with
    cd := { s.cd with
      analog := if c.toNat ≤ 5 then writeChannel s.cd.analog c.toNat (clampNibble v) else s.cd.analog } } := by
  simp only [exec, execCdSetAnalog]
  split <;> rfl

/-! ## CD_PACK in every case (R137) -/

/-- A run written into the packet buffer is stored byte for byte, and every other byte reads as before. -/
theorem storesPacketBytes_of_writeRun {s : State} (hw : Memory.wf s.pkt.buf = true) {pos len : Nat} {bs : List Byte}
    {err : BitVec 2} {r : Result} (hr : r = .next { s with
      pkt := { s.pkt with buf := Memory.writeRun s.pkt.buf pos bs, len := BitVec.ofNat 4 len, err := err } }) :
    StoresPacketBytes pos bs len err s r :=
  ⟨_, hr, rfl, fun _ hk => Memory.read_writeRun_inside hw pos bs hk,
    fun _ ha => Memory.read_writeRun_outside _ pos bs ha⟩

/-- From an error-free packet the first step of CD_PACK packs the mask's two bytes. -/
theorem exec_cdPack_of_ok {s : State} (h0 : s.pkt.err = 0) :
    exec .cdPack s = ofExcept (guardedPack s.cd.analog.toList (packCore ((payloadBytes s.cd).take 2) s)) := by
  simp only [exec, execCdPack, guardedPack_of_ok _ h0, leBytes_two]
  rfl

/-- With room for the mask and not for the analog bytes CD_PACK appends the mask and then overflows. -/
theorem exec_cdPack_maskAlone {s : State} (h0 : s.pkt.err = 0) (hmask : s.pkt.len.toNat + 2 ≤ Config.capacity)
    (hover : s.pkt.len.toNat + 5 > Config.capacity) :
    exec .cdPack s = .next { s with
      pkt := { s.pkt with buf := Memory.writeRun s.pkt.buf s.pkt.len.toNat ((payloadBytes s.cd).take 2)
                          len := BitVec.ofNat 4 (s.pkt.len.toNat + 2)
                          err := 1 } } := by
  have hfits : s.pkt.len.toNat + ((payloadBytes s.cd).take 2).length ≤ Config.capacity := hmask
  rw [exec_cdPack_of_ok h0, guardedPack_of_ok _ ((packCore_err hfits).trans h0),
    packCore_overflow (by rw [packCore_len hfits]; exact hover), packCore_fits hfits]
  rfl

/-- Without room for the mask CD_PACK overflows, and its second step does nothing. -/
theorem exec_cdPack_overflow {s : State} (h0 : s.pkt.err = 0) (hover : s.pkt.len.toNat + 2 > Config.capacity) :
    exec .cdPack s = .next { s with pkt := { s.pkt with err := 1 } } := by
  rw [exec_cdPack_of_ok h0, packCore_overflow (by exact hover),
    guardedPack_of_sticky (e := .bufferOverflow) _ (by decide) rfl]
  rfl

/-! ## CD_UNPACK in every case (R138) -/

theorem ofNat_fromLE_readRun_two (m : Memory) (a : Nat) :
    BitVec.ofNat 16 (fromLE (Memory.readRun m a 2)) = Memory.read m (a + 1) ++ Memory.read m a := by
  apply BitVec.eq_of_toNat_eq
  have hlo := (Memory.read m a).isLt
  have hhi := (Memory.read m (a + 1)).isLt
  rw [BitVec.toNat_append, ← Nat.shiftLeft_add_eq_or_of_lt hlo, Nat.shiftLeft_eq]
  simp [Memory.readRun, fromLE]
  omega

/-- A step of CD_UNPACK that would pass the packed length writes no field. -/
theorem unpackInto_short {m : Nat} (put : List Byte → Controller → Controller) {s : State} (h0 : s.pkt.err = 0)
    (hm : s.pkt.cur.toNat + m > s.pkt.len.toNat) : unpackInto m put s = .ok (setErr .invalidLength s) := by
  simp only [unpackInto, guardedUnpack_short h0 hm]

theorem unpackInto_of_sticky (m : Nat) (put : List Byte → Controller → Controller) {s : State} {e : CodecErr}
    (he : e ≠ .ok) (h : s.pkt.err = e.bits) : unpackInto m put s = .ok s := by
  simp only [unpackInto, guardedUnpack_of_sticky m he h]

/-- With two to four bytes to read CD_UNPACK reads the mask and then fails. -/
theorem exec_cdUnpack_maskAlone {s : State} (h0 : s.pkt.err = 0) (hl : s.pkt.len.toNat ≤ Config.capacity)
    (hmask : s.pkt.cur.toNat + 2 ≤ s.pkt.len.toNat) (hshort : s.pkt.len.toNat < s.pkt.cur.toNat + 5) :
    exec .cdUnpack s = .next { s with
      pkt := { s.pkt with cur := BitVec.ofNat 4 (s.pkt.cur.toNat + 2), err := 2 }
      cd := { s.cd with mask := BitVec.ofNat 16 (fromLE (Memory.readRun s.pkt.buf s.pkt.cur.toNat 2)) } } := by
  have hpast : (advanceCursor 2 s).pkt.cur.toNat + 3 > s.pkt.len.toNat := by
    rw [advanceCursor_cur (hmask.trans hl)]
    exact hshort
  simp only [exec, execCdUnpack, unpackMask_fits h0 hmask hl]
  rw [unpackAnalog_eq, unpackInto_short _ (by exact h0) (by exact hpast)]
  rfl

/-- With fewer than two bytes to read CD_UNPACK fails, and its second step does nothing. -/
theorem exec_cdUnpack_short {s : State} (h0 : s.pkt.err = 0) (hshort : s.pkt.len.toNat < s.pkt.cur.toNat + 2) :
    exec .cdUnpack s = .next { s with pkt := { s.pkt with err := 2 } } := by
  simp only [exec, execCdUnpack, unpackMask_eq, unpackInto_short _ h0 hshort]
  rw [unpackAnalog_eq, unpackInto_of_sticky (e := .invalidLength) 3 _ (by decide) rfl]
  rfl

/-! ## The round trip (R139) -/

/-- PKT_INIT and CD_PACK leave the packet with the payload alone, unread. -/
theorem execAll_pktInit_cdPack (z : Bool) (s : State) :
    execAll [.pktInit z, .cdPack] s = .next (withPackedBytes (payloadBytes s.cd) (initPacket z s)) := by
  have hinit : exec (.pktInit z) s = .next (initPacket z s) := rfl
  have hpack := exec_cdPack_fits (initPacket_pkt_err z s) (by simp [Config.capacity])
  rw [execAll_cons_of_next _ hinit, execAll_cons_of_next [] hpack]
  rfl

/-- PKT_INIT, CD_PACK and CD_UNPACK leave the payload in the packet, read, and the value as it was. -/
theorem execAll_pktInit_cdPack_cdUnpack (z : Bool) {s : State} (hw : Memory.wf s.pkt.buf = true) :
    execAll [.pktInit z, .cdPack, .cdUnpack] s = .next { s with
      pkt := { (withPackedBytes (payloadBytes s.cd) (initPacket z s)).pkt with cur := 5 } } := by
  have hunpack := exec_cdUnpack_payloadBytes (s := withPackedBytes (payloadBytes s.cd) (initPacket z s)) rfl
    (by simp [withPackedBytes]) (by simp [withPackedBytes, Config.capacity])
    (Memory.readRun_writeRun_self (initPacket_buf_wf hw z) 0 (payloadBytes s.cd))
  calc execAll ([.pktInit z, .cdPack] ++ [.cdUnpack]) s
      = execAll [.cdUnpack] (withPackedBytes (payloadBytes s.cd) (initPacket z s)) := by
        rw [execAll_append, execAll_pktInit_cdPack, andThen_next]
    _ = _ := execAll_cons_of_next [] hunpack

end Sys2Proof.Machine

namespace Sys2Proof

open Sys2Proof.Machine Sys2Proof.Claims

/-- Settles O21: each field is written in its own case, and in the others it is as before. -/
theorem controllerDataWrittenOnlyByItsOperations : Obligations.ControllerDataWrittenOnlyByItsOperations := by
  refine ⟨fun i s t h hne => ?_, fun i s t h hne => ?_, fun i s t h hne => ?_⟩
  · rcases exec_cd_pkt_cases h with ⟨hcd, -⟩ | ⟨j, v, hi, -⟩ | ⟨-, -, -, hmask, -⟩ | hi
    · exact absurd (congrArg Controller.mask hcd) hne
    · exact .inl ⟨j, v, hi⟩
    · exact absurd hmask hne
    · exact .inr hi
  · rcases exec_cd_pkt_cases h with ⟨hcd, -⟩ | ⟨-, -, -, hanalog, -⟩ | ⟨c, v, hi, -⟩ | hi
    · exact absurd (congrArg Controller.analog hcd) hne
    · exact absurd hanalog hne
    · exact .inl ⟨c, v, hi⟩
    · exact .inr hi
  · rcases exec_cd_pkt_cases h with ⟨-, hpkt | hi⟩ | ⟨-, -, -, -, hpkt⟩ | ⟨-, -, -, -, hpkt⟩ | hi
    · exact absurd hpkt hne
    · exact hi.imp_right .inl
    · exact absurd hpkt hne
    · exact absurd hpkt hne
    · exact .inr (.inr hi)

/-- Settles O51: a button written reads back, and an index above 15 is none of the sixteen. -/
theorem buttonAccessors : Obligations.ButtonAccessors := by
  refine ⟨fun i v => encodes_opcode_cons (i := .cdSetButton i v) rfl rfl,
    fun i => encodes_opcode_cons (i := .cdTestButton i) rfl rfl,
    fun s i v => ⟨_, exec_cdSetButton i v s, rfl, fun j hj => ?_⟩, fun s i => ?_⟩
  · by_cases hi : i.toNat ≤ 15
    · simp only [hi, if_true]
      exact getLsbD_writeButton _ _ _ hj
    · simp only [hi, show j ≠ i.toNat by omega, if_false]
  · simp [exec, execCdTestButton, respond, boolByte]

/-- Settles O52: a channel written reads back clamped, and a channel above 5 is none of the six. -/
theorem analogAccessors : Obligations.AnalogAccessors := by
  refine ⟨fun c v => encodes_opcode_cons (i := .cdSetAnalog c v) rfl rfl,
    fun c => encodes_opcode_cons (i := .cdGetAnalog c) rfl rfl,
    fun s c v => ⟨_, exec_cdSetAnalog c v s, rfl, fun k hk => ?_⟩, fun s c => ?_⟩
  · by_cases hc : c.toNat ≤ 5
    · simp only [hc, if_true]
      rw [← toNat_channel _ hk, channel_writeChannel _ (Nat.lt_succ_of_le hc) hk, apply_ite BitVec.toNat,
        toNat_clampNibble, toNat_channel _ hk]
    · simp only [hc, show k ≠ c.toNat by omega, if_false]
  · by_cases hc : c.toNat ≤ 5
    · simp only [exec, execCdGetAnalog, hc, if_true, ← toNat_channel _ (Nat.lt_succ_of_le hc), BitVec.ofNat_toNat]
      rfl
    · simp only [exec, execCdGetAnalog, hc, if_false]
      rfl

/-- Settles O53: room for both parts, for the mask alone, for neither, and a sticky error. -/
theorem controllerPacked : Obligations.ControllerPacked := by
  refine ⟨encodes_opcode_cons (i := .cdPack) rfl rfl, fun s hw => ⟨fun h0 hl => ?_, fun h0 hlo hhi => ?_,
    fun h0 hlo => exec_cdPack_overflow h0 (show _ > 8 by omega), exec_cdPack_of_sticky⟩⟩
  · refine storesPacketBytes_of_writeRun hw ?_
    rw [exec_cdPack_fits h0 (show _ ≤ 8 by omega), ← h0]
  · exact storesPacketBytes_of_writeRun hw
      (exec_cdPack_maskAlone h0 (show _ ≤ 8 by omega) (show _ > 8 by omega))

/-- Settles O54: both reads succeed, the mask's alone, neither, and a sticky error. -/
theorem controllerUnpacked : Obligations.ControllerUnpacked := by
  refine ⟨encodes_opcode_cons (i := .cdUnpack) rfl rfl, ?_⟩
  rintro s c rfl hl
  refine ⟨fun h0 hm => ?_, fun h0 hm hshort => ?_, exec_cdUnpack_short, exec_cdUnpack_of_sticky⟩
  · rw [exec_cdUnpack_fits h0 hm hl, ofNat_fromLE_readRun_two]
    rfl
  · rw [exec_cdUnpack_maskAlone h0 hl hm hshort, ofNat_fromLE_readRun_two]

/-- Settles O56: CD_PACK leaves the value's payload in the fresh packet, and CD_UNPACK reads that value from it. -/
theorem controllerRoundTrip : Obligations.ControllerRoundTrip := by
  intro s z hw
  refine ⟨_, execAll_pktInit_cdPack_cdUnpack z hw, rfl, rfl, rfl, rfl, ?_, rfl, rfl⟩
  rw [packetBytes_eq_readRun]
  exact Memory.readRun_writeRun_self (initPacket_buf_wf hw z) 0 (payloadBytes s.cd)

end Sys2Proof

/-! The proofs of the family 60_exceptions.md: under the invariant no operation and no step meets a fault (R142). -/

namespace Sys2Proof.Machine

/-! ## A parser that meets its invariant has a transition for every byte (40_framer_parser.md R80, R101) -/

theorem exists_parserStep_of_waitHead (n : Nat) (b : Byte) {p : Parser} (hs : p.state = ParserState.waitHead.bits) :
    ∃ q evs, ParserStep n b p q evs := by
  by_cases hb : b = Ascii.star
  · exact ⟨_, _, .head hs hb⟩
  · exact ⟨_, _, .discard hs hb⟩

/-- With at most two token bytes held the current one has a place in `ps_cmd`. -/
theorem exists_parserStep_of_command (n : Nat) (b : Byte) {p : Parser} (hs : p.state = ParserState.command.bits)
    (hcnt : p.cmdCnt.toNat ≤ 2) : ∃ q evs, ParserStep n b p q evs := by
  by_cases hIR : p.token b = Ascii.tokenIR
  · exact ⟨_, _, .tokenIR hs hIR⟩
  by_cases hDR : p.token b = Ascii.tokenDR
  · exact ⟨_, _, .tokenDR hs hDR⟩
  by_cases hlen : (p.token b).length = 3
  · exact ⟨_, _, .tokenBad hs hDR hlen⟩
  · exact ⟨_, _, .tokenGrows hs hIR hlen (Nat.lt_succ_of_le hcnt)⟩

theorem exists_parserStep_of_length (n : Nat) (b : Byte) {p : Parser} (hs : p.state = ParserState.length.bits) :
    ∃ q evs, ParserStep n b p q evs := by
  cases hb : hexVal? b with
  | none => exact ⟨_, _, .notHex hs hb⟩
  | some d =>
    by_cases h0 : p.lenCnt = 0
    · exact ⟨_, _, .firstDigit d hs hb h0⟩
    have h1 := (count_ne_zero_iff _).mp h0
    by_cases hlong : n < p.declared d
    · exact ⟨_, _, .tooLong d hs hb h1 hlong⟩
    by_cases hz : p.declared d = 0
    · exact ⟨_, _, .lengthZero d hs hb h1 hz⟩
    · exact ⟨_, _, .lengthFits d hs hb h1 (Nat.pos_of_ne_zero hz) (Nat.not_lt.mp hlong)⟩

/-- The byte has a place in `ps_data` while the bytes held are fewer than MAX_PAYLOAD. -/
theorem exists_parserStep_of_data {n : Nat} (b : Byte) {p : Parser} (hs : p.state = ParserState.data.bits)
    (hcnt : p.dataCnt.toNat < n) : ∃ q evs, ParserStep n b p q evs := by
  by_cases hlast : p.dataCnt + 1 = p.declLen
  · exact ⟨_, _, .lastByte hs hcnt hlast⟩
  · exact ⟨_, _, .dataByte hs hcnt hlast⟩

/-- Only the good footer of a payload reads `ps_data`: there the declared length must lie within MAX_PAYLOAD. -/
theorem exists_parserStep_of_inFooter {n : Nat} (b : Byte) {p : Parser} (hs : p.InFooter)
    (hdecl : p.state = ParserState.tailHasData.bits → p.declLen.toNat ≤ n) : ∃ q evs, ParserStep n b p q evs := by
  by_cases h0 : p.tailCnt = 0
  · exact ⟨_, _, .footerFirst hs h0⟩
  have h1 := (count_ne_zero_iff _).mp h0
  by_cases hgood : p.tailOk = true ∧ b = Ascii.lf
  · obtain ⟨hcr, hlf⟩ := hgood
    rcases hs with hs | hs
    · exact ⟨_, _, .payload hs h1 hcr hlf (hdecl hs)⟩
    · exact ⟨_, _, .collision hs h1 hcr hlf⟩
  · exact ⟨_, _, .footerBad hs h1 hgood⟩

theorem Parser.exists_parserStep_of_inv {n : Nat} (b : Byte) {p : Parser} (h : p.Inv n) :
    ∃ q evs, ParserStep n b p q evs := by
  obtain ⟨hlegal, -, hcommand, hdata, htail, -⟩ := h
  obtain ⟨st, hs⟩ := exists_parserState hlegal
  cases st with
  | waitHead => exact exists_parserStep_of_waitHead n b hs
  | command => exact exists_parserStep_of_command n b hs (hcommand hs)
  | length => exact exists_parserStep_of_length n b hs
  | data =>
    obtain ⟨hdecl, hcnt⟩ := hdata hs
    exact exists_parserStep_of_data b hs (hcnt.trans_le hdecl)
  | tailHasData => exact exists_parserStep_of_inFooter b (.inl hs) fun hs => (htail hs).1
  | tail => exact exists_parserStep_of_inFooter b (.inr hs) fun hs => (htail hs).1

theorem exists_stepByte_of_inv (b : Byte) {s : State} (h : s.ps.Inv s.maxPayload.val) :
    ∃ t, stepByte b s = .ok t := by
  obtain ⟨q, evs, hq⟩ := Parser.exists_parserStep_of_inv b h
  exact ⟨_, hq.stepByte_eq⟩

/-- FR_FEED meets no fault: every byte step completes and keeps the parser's invariant for the next one. -/
theorem exists_feed_of_inv (d : List Byte) {s : State} (h : s.ps.Inv s.maxPayload.val) : ∃ t, feed d s = .ok t := by
  induction d generalizing s with
  | nil => exact ⟨s, rfl⟩
  | cons b bs ih =>
    obtain ⟨t, ht⟩ := exists_stepByte_of_inv b h
    rw [feed_cons_of_ok bs ht]
    exact ih ((stepByte_keeps ht).psInv h)

/-! ## A packet that meets its invariant has an outcome for every codec step (42_packet_codec.md R110 to R113) -/

theorem exists_guardedPack_of_inv (bs : List Byte) {s : State} (h : s.pkt.Inv) : ∃ t, guardedPack bs s = .ok t := by
  obtain ⟨-, -, herr, -⟩ := h
  obtain ⟨e, he⟩ := exists_err herr
  rcases eq_or_ne e .ok with rfl | hok
  · exact ⟨_, guardedPack_of_ok bs he⟩
  · exact ⟨_, guardedPack_of_sticky bs hok he⟩

theorem exists_guardedUnpack_of_inv (m : Nat) {s : State} (h : s.pkt.Inv) : ∃ r t, guardedUnpack m s = .ok (r, t) := by
  obtain ⟨-, hlen, herr, -⟩ := h
  obtain ⟨e, he⟩ := exists_err herr
  rcases eq_or_ne e .ok with rfl | hok
  · rcases Nat.lt_or_ge s.pkt.len.toNat (s.pkt.cur.toNat + m) with hshort | hfits
    · exact ⟨_, _, guardedUnpack_short he hshort⟩
    · exact ⟨_, _, guardedUnpack_fits he hfits hlen⟩
  · exact ⟨_, _, guardedUnpack_of_sticky m hok he⟩

theorem exists_unpackRespond_of_inv (m : Nat) {s : State} (h : s.pkt.Inv) : ∃ t, unpackRespond m s = .ok t := by
  obtain ⟨r, t, ht⟩ := exists_guardedUnpack_of_inv m h
  simp only [unpackRespond, ht]
  exact ⟨_, rfl⟩

theorem exists_unpackInto_of_inv (m : Nat) (put : List Byte → Controller → Controller) {s : State} (h : s.pkt.Inv) :
    ∃ t, unpackInto m put s = .ok t := by
  obtain ⟨r, t, ht⟩ := exists_guardedUnpack_of_inv m h
  cases r with
  | none => exact ⟨t, by simp only [unpackInto, ht]⟩
  | some bs => exact ⟨{ t with cd := put bs t.cd }, by simp only [unpackInto, ht]⟩

/-! ## Every operation and every step completes (60_exceptions.md R142) -/

theorem exists_next_ofExcept {x : Except Fault State} (h : ∃ t, x = .ok t) : ∃ t, ofExcept x = .next t := by
  obtain ⟨t, rfl⟩ := h
  exact ⟨t, rfl⟩

/-- The second pack of CD_PACK starts from a packet that meets the invariant, whatever the first one did. -/
theorem exists_execCdPack_of_inv {s : State} (h : s.pkt.Inv) : ∃ t, execCdPack s = .next t := by
  obtain ⟨u, hu⟩ := exists_guardedPack_of_inv (leBytes 2 s.cd.mask.toNat) h
  simp only [execCdPack, hu]
  exact exists_next_ofExcept (exists_guardedPack_of_inv _ ((guardedPack_frame hu).1.inv h))

/-- The second read of CD_UNPACK starts from a packet that meets the invariant, whatever the first one did. -/
theorem exists_execCdUnpack_of_inv {s : State} (h : s.pkt.Inv) : ∃ t, execCdUnpack s = .next t := by
  obtain ⟨u, hu⟩ := exists_unpackInto_of_inv 2 _ h
  rw [← unpackMask_eq] at hu
  simp only [execCdUnpack, hu, unpackAnalog_eq]
  exact exists_next_ofExcept (exists_unpackInto_of_inv 3 _ ((unpackMask_frame hu).1.inv h))

theorem exists_exec_of_inv (i : Instr) {s : State} (h : s.Inv) : ∃ t, exec i s = .next t := by
  obtain ⟨hpkt, hps, -, -⟩ := h
  have ⟨_, hlen, herr, _⟩ := hpkt
  cases i with
  | frFeed d => exact exists_next_ofExcept (exists_feed_of_inv d hps)
  | pktPackU8 | pktPackU16 | pktPackU32 | pktPackU64 | pktPackBytes =>
    exact exists_next_ofExcept (exists_guardedPack_of_inv _ hpkt)
  | pktUnpackU8 | pktUnpackU16 | pktUnpackU32 | pktUnpackU64 | pktUnpackBytes =>
    exact exists_next_ofExcept (exists_unpackRespond_of_inv _ hpkt)
  | pktSuccess =>
    obtain ⟨e, he⟩ := exists_err herr
    exact ⟨_, exec_pktSuccess he⟩
  | pktStatus => exact ⟨_, exec_pktStatus herr⟩
  | pktData => exact ⟨_, exec_pktData hlen⟩
  | cdPack => exact exists_execCdPack_of_inv hpkt
  | cdUnpack => exact exists_execCdUnpack_of_inv hpkt
  | frSendData | frSendParam | pktInit | pktLength | pktId | cdSetButton | cdTestButton | cdSetAnalog | cdGetAnalog =>
    exact ⟨_, rfl⟩

/-- A step runs an operation, records a refusal, or waits; taking the bytes from the port keeps the invariant. -/
theorem exists_step_of_inv {s : State} (h : s.Inv) : ∃ t, step s = .next t := by
  cases hd : decode s.cmdPort with
  | op i rest =>
    simp only [step, hd]
    exact exists_exec_of_inv i ((withPort_keeps rest s).inv h)
  | rejected r rest => exact ⟨_, step_of_decode_rejected hd⟩
  | incomplete => exact ⟨s, step_of_decode_incomplete hd⟩

end Sys2Proof.Machine

namespace Sys2Proof

open Sys2Proof.Machine

/-- Settles O8: the invariant rules out every fault that an operation, and so a step, could meet. -/
theorem nothingTrapsOrHalts : Obligations.NothingTrapsOrHalts :=
  ⟨fun i _ h => exists_exec_of_inv i h, fun _ h => exists_step_of_inv h⟩

end Sys2Proof

/-! The proofs of the family 70_reset_and_hazards.md: the fresh block (R159), the flush of the parser (R160), and a
payload's length against the packet's capacity (R168). -/

namespace Sys2Proof.Machine

open Sys2Proof.Claims

/-! ## Flushing the parser with copies of one byte (R160) -/

/-- From `s`, `k` or more copies of `g` leave the parser idle and give at most one event. -/
def FlushedBy (g : Byte) (k : Nat) (s : State) : Prop :=
  ∀ n, k ≤ n → ∃ t, feed (List.replicate n g) s = .ok t ∧ t.ps.Idle ∧ (t.sink = s.sink ∨ ∃ e, t.sink = s.sink ++ [e])

theorem FlushedBy.mono {g : Byte} {k k' : Nat} {s : State} (h : FlushedBy g k s) (hk : k ≤ k') : FlushedBy g k' s :=
  fun n hn => h n (hk.trans hn)

theorem ParserStep.stepByte_eq_of_silent {b : Byte} {s : State} {q : Parser}
    (h : ParserStep s.maxPayload.val b s.ps q []) : stepByte b s = .ok { s with ps := q } := by
  rw [h.stepByte_eq, List.append_nil]

/-- A copy that emits nothing leaves the flush to the copies after it. -/
theorem FlushedBy.of_silent {g : Byte} {k : Nat} {s : State} {q : Parser}
    (hq : ParserStep s.maxPayload.val g s.ps q []) (h : FlushedBy g k { s with ps := q }) : FlushedBy g (k + 1) s := by
  intro n hn
  obtain ⟨m, rfl⟩ := Nat.exists_eq_add_of_le' (Nat.le_of_add_left_le hn)
  obtain ⟨t, ht, hidle, hsink⟩ := h m (Nat.le_of_succ_le_succ hn)
  exact ⟨t, (feed_cons_of_ok _ hq.stepByte_eq_of_silent).trans ht, hidle, hsink⟩

section Flush

variable {g : Byte} (hstar : g ≠ Ascii.star) {s : State}

include hstar

/-- In WAIT_HEAD every copy is discarded (R83). -/
theorem feed_replicate_of_idle (n : Nat) (hs : s.ps.Idle) : feed (List.replicate n g) s = .ok s :=
  feed_discards hs.1 fun h => hstar (List.eq_of_mem_replicate h).symm

theorem flushedBy_zero_of_idle (hs : s.ps.Idle) : FlushedBy g 0 s :=
  fun n _ => ⟨s, feed_replicate_of_idle hstar n hs, hs, .inl rfl⟩

/-- A copy that ends the frame gives its event, and the copies after it are discarded. -/
theorem flushedBy_one_of_ends {e : Event} (hq : ParserStep s.maxPayload.val g s.ps s.ps.idle [e]) :
    FlushedBy g 1 s := by
  intro n hn
  obtain ⟨m, rfl⟩ := Nat.exists_eq_add_of_le' hn
  have hidle : s.ps.idle.Idle := ⟨rfl, rfl, rfl, rfl, rfl⟩
  exact ⟨_, (feed_cons_of_ok _ hq.stepByte_eq).trans (feed_replicate_of_idle hstar m hidle), hidle, .inr ⟨e, rfl⟩⟩

/-- The second footer byte ends the frame, whatever it is (R94 to R96). -/
theorem flushedBy_one_of_footerSecond (hs : s.ps.InFooter) (h1 : s.ps.tailCnt = 1)
    (hdecl : s.ps.state = ParserState.tailHasData.bits → s.ps.declLen.toNat ≤ s.maxPayload.val) : FlushedBy g 1 s := by
  by_cases hgood : s.ps.tailOk = true ∧ g = Ascii.lf
  · obtain ⟨hok, hlf⟩ := hgood
    rcases hs with hs | hs
    · exact flushedBy_one_of_ends hstar (.payload hs h1 hok hlf (hdecl hs))
    · exact flushedBy_one_of_ends hstar (.collision hs h1 hok hlf)
  · exact flushedBy_one_of_ends hstar (.footerBad hs h1 hgood)

/-- A footer takes at most two bytes (R93). -/
theorem flushedBy_two_of_inFooter (hs : s.ps.InFooter)
    (hdecl : s.ps.state = ParserState.tailHasData.bits → s.ps.declLen.toNat ≤ s.maxPayload.val) : FlushedBy g 2 s := by
  by_cases h0 : s.ps.tailCnt = 0
  · exact .of_silent (.footerFirst hs h0) (flushedBy_one_of_footerSecond hstar hs rfl hdecl)
  · exact (flushedBy_one_of_footerSecond hstar hs ((count_ne_zero_iff _).mp h0) hdecl).mono (Nat.le_succ 1)

/-- In DATA the `d` payload bytes still missing and two footer bytes end the frame (R92, R93), by induction on `d`. -/
theorem flushedBy_of_data {d : Nat} (hs : s.ps.state = ParserState.data.bits)
    (hdecl : s.ps.declLen.toNat ≤ s.maxPayload.val) (hcnt : s.ps.dataCnt.toNat < s.ps.declLen.toNat)
    (hd : s.ps.declLen.toNat ≤ s.ps.dataCnt.toNat + d) : FlushedBy g (d + 2) s := by
  induction d generalizing s with
  | zero => exact absurd hcnt (Nat.not_lt.mpr hd)
  | succ d ih =>
    have hsucc := Parser.toNat_dataCnt_succ hcnt
    have hplace := hcnt.trans_le hdecl
    by_cases hlast : s.ps.dataCnt + 1 = s.ps.declLen
    · have hfooter := FlushedBy.of_silent (.lastByte hs hplace hlast)
        (flushedBy_two_of_inFooter hstar (.inl rfl) fun _ => hdecl)
      exact hfooter.mono (by omega)
    · have hmore : s.ps.dataCnt.toNat + 1 ≠ s.ps.declLen.toNat := fun h =>
        hlast (BitVec.eq_of_toNat_eq (hsucc.trans h))
      exact .of_silent (.dataByte hs hplace hlast)
        (ih hs hdecl (show (s.ps.dataCnt + 1).toNat < s.ps.declLen.toNat by omega)
          (show s.ps.declLen.toNat ≤ (s.ps.dataCnt + 1).toNat + d by omega))

/-- A byte that is no digit ends a length (R88). -/
theorem flushedBy_one_of_length (hg : hexVal? g = none) (hs : s.ps.state = ParserState.length.bits) :
    FlushedBy g 1 s :=
  flushedBy_one_of_ends hstar (.notHex hs hg)

end Flush

/-! ## The command token of a flush (40_framer_parser.md R84 to R87) -/

/-- The token after a stored byte is the one with that byte and one byte more. -/
theorem Parser.token_stored {p : Parser} (b b' : Byte) (h : p.cmdCnt.toNat ≤ 2) :
    Parser.token { p with cmd := p.cmd.set p.cmdCnt.toNat b, cmdCnt := p.cmdCnt + 1 } b' = p.token b ++ [b'] := by
  simp only [Parser.token, Parser.toNat_cmdCnt_succ h, Parser.take_set_cmd h]

/-- A token that ends in two copies of one byte is none whose last two bytes differ, such as IR and DR=. -/
theorem Parser.token_append_ne (p : Parser) (g : Byte) {bs : List Byte} {a b : Byte} (hab : a ≠ b) :
    p.token g ++ [g] ≠ bs ++ [a, b] := by
  intro h
  rw [Parser.token, List.append_assoc] at h
  obtain ⟨-, hlast⟩ := List.append_inj' h rfl
  cases hlast
  exact hab rfl

theorem Parser.token_append_ne_tokenIR (p : Parser) (g : Byte) : p.token g ++ [g] ≠ Ascii.tokenIR :=
  p.token_append_ne g (bs := []) (by decide)

theorem Parser.token_append_ne_tokenDR (p : Parser) (g : Byte) : p.token g ++ [g] ≠ Ascii.tokenDR :=
  p.token_append_ne g (bs := [Ascii.letterD]) (by decide)

/-- The token with one byte held is IR exactly when `I` is held and the byte is `R`. -/
theorem Parser.token_eq_tokenIR_iff {p : Parser} (h1 : p.cmdCnt = 1) (g : Byte) :
    p.token g = Ascii.tokenIR ↔ p.cmd.b0 = Ascii.letterI ∧ g = Ascii.letterR := by
  simp [Parser.token, h1, Bytes3.toList]

section FlushCommand

variable {g : Byte} (hstar : g ≠ Ascii.star) {s : State} (hs : s.ps.state = ParserState.command.bits)

include hstar hs

/-- The third token byte ends the token; after DR= the next copy is no digit (R85, R86). -/
theorem flushedBy_two_of_cmdCnt_two (hg : hexVal? g = none) (h2 : s.ps.cmdCnt = 2) : FlushedBy g 2 s := by
  have hlen : (s.ps.token g).length = 3 := by rw [Parser.token_length, h2]; rfl
  by_cases hDR : s.ps.token g = Ascii.tokenDR
  · exact .of_silent (.tokenDR hs hDR) (flushedBy_one_of_length hstar hg rfl)
  · exact (flushedBy_one_of_ends hstar (.tokenBad hs hDR hlen)).mono (Nat.le_succ 1)

/-- A second token byte that does not make IR is followed by a third equal to it, which is a bad token (R86, R87). -/
theorem flushedBy_two_of_cmdCnt_one (h1 : s.ps.cmdCnt = 1) (hIR : s.ps.token g ≠ Ascii.tokenIR) : FlushedBy g 2 s := by
  have hcnt : s.ps.cmdCnt.toNat = 1 := by rw [h1]; rfl
  have hstored := Parser.token_stored (p := s.ps) g g (by omega)
  have hlen := s.ps.token_length g
  exact .of_silent (.tokenGrows hs hIR (by omega) (hcnt.trans_lt (by decide)))
    (flushedBy_one_of_ends hstar (.tokenBad hs (hstored ▸ s.ps.token_append_ne_tokenDR g)
      (by rw [hstored, List.length_append, hlen, hcnt]; rfl)))

/-- IR leads to the footer, whose two bytes follow (R84). -/
theorem flushedBy_three_of_tokenIR (hIR : s.ps.token g = Ascii.tokenIR) : FlushedBy g 3 s :=
  .of_silent (.tokenIR hs hIR) (flushedBy_two_of_inFooter hstar (.inr rfl) fun h => by cases h)

/-- With no token byte held the second copy does not make IR, and the third is a bad token (R86, R87). -/
theorem flushedBy_three_of_cmdCnt_zero (h0 : s.ps.cmdCnt = 0) : FlushedBy g 3 s := by
  have hcnt : s.ps.cmdCnt.toNat = 0 := by rw [h0]; rfl
  have hstored := Parser.token_stored (p := s.ps) g g (by omega)
  have hlen := s.ps.token_length g
  have hIR : s.ps.token g ≠ Ascii.tokenIR := fun h => by
    rw [h, hcnt] at hlen
    cases hlen
  exact .of_silent (.tokenGrows hs hIR (by omega) (hcnt.trans_lt (by decide)))
    (flushedBy_two_of_cmdCnt_one hstar hs (congrArg (· + 1) h0) (hstored ▸ s.ps.token_append_ne_tokenIR g))

end FlushCommand

/-- In COMMAND three copies are enough, and two unless the token takes three. -/
theorem flushedBy_of_command {g : Byte} (hstar : g ≠ Ascii.star) (hg : hexVal? g = none) {s : State}
    (hs : s.ps.state = ParserState.command.bits) (hcnt : s.ps.cmdCnt.toNat ≤ 2) {n : Nat} (hn : 2 ≤ n)
    (hthree : TokenTakesThree s g → 3 ≤ n) : FlushedBy g n s := by
  have hcases : s.ps.cmdCnt = 0 ∨ s.ps.cmdCnt = 1 ∨ s.ps.cmdCnt = 2 := by
    revert hcnt
    generalize s.ps.cmdCnt = c
    revert c
    decide
  obtain h0 | h1 | h2 := hcases
  · exact (flushedBy_three_of_cmdCnt_zero hstar hs h0).mono (hthree ⟨hs, .inl h0⟩)
  · by_cases hIR : s.ps.token g = Ascii.tokenIR
    · exact (flushedBy_three_of_tokenIR hstar hs hIR).mono
        (hthree ⟨hs, .inr ⟨h1, (Parser.token_eq_tokenIR_iff h1 g).mp hIR⟩⟩)
    · exact (flushedBy_two_of_cmdCnt_one hstar hs h1 hIR).mono hn
  · exact (flushedBy_two_of_cmdCnt_two hstar hs hg h2).mono hn

/-- Whatever the parser state, MAX_PAYLOAD + 2 copies are enough, if they are three where the token takes three. -/
theorem flushedBy_of_inv {g : Byte} (hstar : g ≠ Ascii.star) (hg : hexVal? g = none) {s : State}
    (h : s.ps.Inv s.maxPayload.val) {n : Nat} (hn : s.maxPayload.val + 2 ≤ n)
    (hthree : TokenTakesThree s g → 3 ≤ n) : FlushedBy g n s := by
  obtain ⟨hlegal, hwait, hcommand, hdata, htail, -⟩ := h
  have htwo : 2 ≤ n := by omega
  obtain ⟨st, hs⟩ := exists_parserState hlegal
  cases st with
  | waitHead => exact (flushedBy_zero_of_idle hstar ⟨hs, hwait hs⟩).mono (Nat.zero_le n)
  | command => exact flushedBy_of_command hstar hg hs (hcommand hs) htwo hthree
  | length => exact (flushedBy_one_of_length hstar hg hs).mono (by omega)
  | data =>
    obtain ⟨hdecl, hcnt⟩ := hdata hs
    exact (flushedBy_of_data hstar hs hdecl hcnt (Nat.le_add_left _ _)).mono (by omega)
  | tailHasData => exact (flushedBy_two_of_inFooter hstar (.inl hs) fun hs => (htail hs).1).mono htwo
  | tail => exact (flushedBy_two_of_inFooter hstar (.inr hs) fun hs => (htail hs).1).mono htwo

/-! ## The flush of a block without payload (R160 at MAX_PAYLOAD = 0; log 15) -/

/-- A block with MAX_PAYLOAD 0 that has met a star and no token byte. -/
def awaitingToken : State :=
  let s := State.resetAt 0 1 0 Unspecified.zero
  { s with ps := { s.ps with state := ParserState.command.bits } }

/-- Reset, the delivery of an FR_FEED with a star, and its step lead there. -/
theorem reachable_awaitingToken : Reachable awaitingToken :=
  .step (deliver [0x10, 0x01, 0x2A] (State.resetAt 0 1 0 Unspecified.zero)) _
    (.deliver _ _ (.reset ⟨0, 1, 0⟩ Unspecified.zero _ (by decide) (by decide))) rfl

/-- Two bytes `G` are two bytes of a token (R87). -/
theorem execAll_flush_awaitingToken :
    ∃ t, execAll (frFeedBytes (List.replicate (awaitingToken.maxPayload.val + 2) 0x47)) awaitingToken = .next t ∧
      t.ps.state = ParserState.command.bits :=
  ⟨_, rfl, rfl⟩

/-! ## A payload in the packet by its length (R168) -/

/-- PKT_INIT 0 and PKT_PACK_BYTES of a run that fits leave the packet with the run alone, unread. -/
theorem execAll_pktInit_pktPackBytes {p : List Byte} (h : p.length ≤ Config.capacity) (s : State) (is : List Instr) :
    execAll (.pktInit false :: .pktPackBytes p :: is) s = execAll is (withPackedBytes p s) := by
  have hinit : exec (.pktInit false) s = .next (initPacket false s) := rfl
  rw [execAll_cons_of_next _ hinit, execAll_cons_of_next _ (exec_pktPackBytes_initPacket h s)]

/-- A run longer than the capacity does not enter a fresh packet. -/
theorem execAll_pktInit_pktPackBytes_overflow {p : List Byte} (h : p.length > Config.capacity) (s : State) :
    execAll [.pktInit false, .pktPackBytes p] s =
      .next { s with pkt := { s.pkt with len := 0, cur := 0, err := 1 } } := by
  have hinit : exec (.pktInit false) s = .next (initPacket false s) := rfl
  have hpack := exec_pack_of_ok (.run p) (initPacket_pkt_err false s)
  rw [packCore_overflow (by simpa [Field.bytes] using h)] at hpack
  rw [execAll_cons_of_next _ hinit]
  exact execAll_cons_of_next [] hpack

/-- The mask read from two bytes has these as its payload bytes. -/
theorem payloadBytes_ofNat_fromLE {bs : List Byte} (h : bs.length = 2) (a : Bytes3) :
    payloadBytes ⟨BitVec.ofNat 16 (fromLE bs), a⟩ = bs ++ a.toList := by
  have hlt : fromLE bs < 2 ^ 16 := by simpa [h] using fromLE_lt bs
  have hmask : leBytes 2 (BitVec.ofNat 16 (fromLE bs)).toNat = bs := by
    rw [BitVec.toNat_ofNat, Nat.mod_eq_of_lt hlt, ← h, leBytes_fromLE]
  rw [← leBytes_mask_append_analog, hmask]

/-- Five bytes, whatever they are, are the payload of a ControllerData value. -/
theorem exists_payloadBytes_eq {bs : List Byte} (h : bs.length = 5) : ∃ cd, payloadBytes cd = bs := by
  obtain ⟨b0, b1, b2, hanalog⟩ := List.length_eq_three.mp (show (bs.drop 2).length = 3 by simp [h])
  refine ⟨⟨_, ⟨b0, b1, b2⟩⟩, (payloadBytes_ofNat_fromLE (bs := bs.take 2) (by simp [h]) _).trans ?_⟩
  rw [Bytes3.toList, ← hanalog, List.take_append_drop]

theorem HoldsPacket.readRun_zero {bs : List Byte} {s : State} (hp : HoldsPacket bs s) {n : Nat} (hn : n ≤ bs.length) :
    Memory.readRun s.pkt.buf 0 n = bs.take n := by
  rw [Memory.readRun_eq_take_drop s.pkt.buf ((Nat.zero_add n).trans_le hn), hp.bytes, List.drop_zero]

/-- Fewer than two packed bytes leave the ControllerData value as it was. -/
theorem exec_cdUnpack_withPackedBytes_short {p : List Byte} (s : State) (h : p.length < 2) :
    ∃ t, exec .cdUnpack (withPackedBytes p s) = .next t ∧ t.pkt.err = 2 ∧ t.cd = s.cd :=
  ⟨_, exec_cdUnpack_short rfl (show p.length % 16 < 2 by omega), rfl, rfl⟩

/-- Two to four packed bytes give the mask the first two and leave the analog bytes as they were. -/
theorem exec_cdUnpack_withPackedBytes_maskAlone {p : List Byte} {s : State} (hw : Memory.wf s.pkt.buf = true)
    (h2 : 2 ≤ p.length) (h5 : p.length < 5) :
    ∃ t, exec .cdUnpack (withPackedBytes p s) = .next t ∧ t.pkt.err = 2 ∧ t.cd.analog = s.cd.analog ∧
      (payloadBytes t.cd).take 2 = p.take 2 := by
  have hp := withPackedBytes_holdsPacket hw (bs := p) (show _ ≤ 8 by omega)
  have hlen : (p.take 2).length = 2 := by simpa using h2
  have hunpack := exec_cdUnpack_maskAlone (s := withPackedBytes p s) rfl (hp.len.trans_le hp.fits)
    (h2.trans_eq hp.len.symm) (hp.len.trans_lt h5)
  refine ⟨_, hunpack, rfl, rfl, ?_⟩
  rw [show (withPackedBytes p s).pkt.cur.toNat = 0 from rfl, hp.readRun_zero h2, payloadBytes_ofNat_fromLE hlen,
    List.take_left' hlen]

/-- Five to eight packed bytes give the ControllerData value the first five and leave the rest unread. -/
theorem exec_cdUnpack_withPackedBytes_fits {p : List Byte} {s : State} (hw : Memory.wf s.pkt.buf = true)
    (h5 : 5 ≤ p.length) (h8 : p.length ≤ Config.capacity) :
    ∃ t, exec .cdUnpack (withPackedBytes p s) = .next t ∧ t.pkt.err = 0 ∧ t.pkt.cur = 5 ∧
      t.pkt.len.toNat = p.length ∧ payloadBytes t.cd = p.take 5 := by
  have hp := withPackedBytes_holdsPacket hw h8
  obtain ⟨cd, hcd⟩ := exists_payloadBytes_eq (bs := p.take 5) (by simpa using h5)
  have hunpack := exec_cdUnpack_payloadBytes (s := withPackedBytes p s) rfl (h5.trans_eq hp.len.symm)
    (hp.len.trans_le hp.fits) ((hp.readRun_zero h5).trans hcd.symm)
  exact ⟨_, hunpack, rfl, rfl, hp.len, hcd⟩

/-! ## The fresh block (R159) -/

/-- Right after reset the packet registers that PKT_INIT 0 writes already have their values. -/
theorem exec_pktInit_resetAt (maxPayload : Fin 255) (idWidth pktId : Nat) (u : Unspecified) :
    exec (.pktInit false) (State.resetAt maxPayload idWidth pktId u) =
      .next (State.resetAt maxPayload idWidth pktId u) := rfl

end Sys2Proof.Machine

namespace Sys2Proof

open Sys2Proof.Machine Sys2Proof.Claims

/-- Settles O32: each parser state has its bound on the copies, and a feed of bytes is one flush. -/
theorem flushReturnsToWaitHead : Obligations.FlushReturnsToWaitHead := by
  rintro s g n ⟨-, hps, -⟩ hstar - hhex hn hthree
  obtain ⟨t, ht, hidle, hsink⟩ := flushedBy_of_inv hstar (hexVal?_of_notHex hhex) hps hn hthree n le_rfl
  exact ⟨t, (execAll_frFeedBytes _ s).trans (congrArg Machine.ofExcept ht), (feed_frame ht).onlyParserAndSink, hidle,
    hsink⟩

/-- Refutes O33: with MAX_PAYLOAD 0 and a star met, two bytes `G` leave the parser in COMMAND. -/
theorem not_flushAlsoWithoutPayload : ¬ Obligations.FlushAlsoWithoutPayload := by
  intro h
  have hhex : NotHex 0x47 := fun v => by simp [HexDigit]
  obtain ⟨t, ht, ⟨hidle, -⟩, -⟩ := h awaitingToken 0x47 reachable_awaitingToken (by decide) (by decide) hhex
  obtain ⟨u, hu, hcommand⟩ := execAll_flush_awaitingToken
  cases ht.symm.trans hu
  exact absurd (hcommand.symm.trans hidle) (by decide)

/-- Settles O57: too long for the packet, or packed and then unpacked by its length. -/
theorem payloadLengthAgainstCapacity : Obligations.PayloadLengthAgainstCapacity := by
  refine fun s p hw => ⟨fun h => execAll_pktInit_pktPackBytes_overflow h s, fun h5 => ?_, fun h5 h8 => ?_⟩
  · rw [execAll_pktInit_pktPackBytes (show _ ≤ 8 by omega)]
    rcases Nat.lt_or_ge p.length 2 with hshort | h2
    · obtain ⟨t, ht, herr, hcd⟩ := exec_cdUnpack_withPackedBytes_short s hshort
      exact ⟨t, execAll_cons_of_next [] ht, herr, by rw [hcd], fun _ => by rw [hcd],
        fun h2 => absurd hshort (Nat.not_lt.mpr h2)⟩
    · obtain ⟨t, ht, herr, hanalog, hmask⟩ := exec_cdUnpack_withPackedBytes_maskAlone hw h2 h5
      exact ⟨t, execAll_cons_of_next [] ht, herr, hanalog, fun h => absurd h (Nat.not_lt.mpr h2), fun _ => hmask⟩
  · rw [execAll_pktInit_pktPackBytes h8]
    obtain ⟨t, ht, hrest⟩ := exec_cdUnpack_withPackedBytes_fits hw h5 h8
    exact ⟨t, execAll_cons_of_next [] ht, hrest⟩

/-- Settles O3: PKT_INIT 0 leaves a freshly reset block as it is. -/
theorem freshBlockActsAsInitialised : Obligations.FreshBlockActsAsInitialised := by
  intro c u s h
  obtain ⟨-, rfl⟩ := construct_eq h
  exact ⟨exec_pktInit_resetAt .., fun ops => execAll_cons_of_next ops (exec_pktInit_resetAt ..)⟩

end Sys2Proof
